-- ==== Sys2Proof/Word.lean ====
section
/-! DEFINITION. The widths of HUFFCORE: the bus word, the byte, a node weight, and the bounded names
of a symbol and of an arena index (00_scope.md R7). -/

namespace Sys2Proof

/-- One bus word, and the width of a register and of a FREQ entry (20_memory.md R60, 10_state.md R24, R40). -/
abbrev Word := BitVec 32

/-- One byte of SYM, OUT or BITS (10_state.md R45 to R47). -/
abbrev Byte := BitVec 8

/-- A node weight, WT_W = 40 bits, unsigned (00_scope.md R7, 10_state.md R42). -/
abbrev Weight := BitVec 40

/-- A symbol value as the arena and the code table hold it: 0..255 and SENTINEL = 256
(30_encoding.md R95); 257..511 never occur (93_implementation_defined.md U12). -/
abbrev SymVal := Fin 257

/-- SENTINEL, the symbol of the synthetic leaf (00_scope.md R7, 41_tree_builder.md R133). -/
def sentinel : SymVal := 256

/-- An index of the NODE arena, 0..510 (10_state.md R41); 511 never occurs (93_implementation_defined.md U12). -/
abbrev NodeIdx := Fin 511

/-- A count of arena entries, 0..511 (10_state.md R37 NODECNT, R21 NALLOC). -/
abbrev NodeCount := Fin 512

end Sys2Proof
end

