-- ==== Sys2Proof/Config.lean ====
section
/-! DEFINITION. What an implementation fixes (the open parameters MAX_LEN and MAX_BITS and the window
bases that go with them, 00_scope.md R7) and the free values of memory that nothing has written since
reset (93_implementation_defined.md U10). -/

namespace Sys2Proof

/-- The open parameters of 00_scope.md R7. They are an argument of the model, held in State as data,
so that what is proved of every state is proved of every parameter value (DESIGN CHOICE, log 8). -/
structure Params where
  /-- MAX_LEN: capacity of SYM and of OUT in symbols. -/
  maxLen : Nat
  /-- MAX_BITS: capacity of BITS in stream elements. -/
  maxBits : Nat
  /-- SYM_BASE, the byte address of the SYM window. -/
  symBase : Nat
  /-- OUT_BASE, the byte address of the OUT window. -/
  outBase : Nat
  /-- BITS_BASE, the byte address of the BITS window. -/
  bitsBase : Nat
  deriving DecidableEq, Repr

/-- The defaults of 00_scope.md R7. -/
def Params.default : Params :=
  { maxLen := 65536, maxBits := 524288, symBase := 0x10000, outBase := 0x20000, bitsBase := 0x80000 }

/-- The three byte-wide memories (10_state.md R45 to R47). -/
inductive ByteMem where
  | sym
  | out
  | bits
  deriving DecidableEq, Repr

/-- FREE VALUE: the byte that index `k` of a byte memory holds after reset number `epoch`, before
anything writes it (10_state.md R51, 70_reset_and_hazards.md R250, 93_implementation_defined.md U10; DESIGN CHOICE, log 4). -/
opaque Config.unwrittenByte (epoch : Nat) (m : ByteMem) (k : Nat) : Byte

/-- FREE VALUE: word `j` (0..3) of arena record `i` after reset number `epoch`, before BUILD writes the
record: "all 128 bits are unspecified" (30_encoding.md R96; DESIGN CHOICE, log 4). -/
opaque Config.unwrittenNodeWord (epoch i j : Nat) : Word

/-- FREE VALUE: word `j` (0..15) of code-table entry `s` after reset number `epoch`, before the first
GENTAB: "it is unspecified" (30_encoding.md R98; DESIGN CHOICE, log 4). -/
opaque Config.unwrittenCodeWord (epoch s j : Nat) : Word

end Sys2Proof
end

