-- ==== Sys2Proof/Syntax.lean ====
section
/-! DEFINITION. The ten commands of HUFFCORE (30_encoding.md R92), one constructor for each row of
spec/opcode_table.json, and the host's transactions (20_memory.md R60). -/

namespace Sys2Proof

/-- The ten commands. "No command carries an operand in its word" (30_encoding.md R94). -/
inductive Instr where
  /-- NOP, 45_compound_and_control.md R205. -/
  | nop
  /-- COUNT, 40_frequency_counter.md R120. -/
  | count
  /-- BUILD, 41_tree_builder.md R130. -/
  | build
  /-- GENTAB, 42_code_table_generator.md R150. -/
  | gentab
  /-- ENCODE, 43_encoder.md R165. -/
  | encode
  /-- DECODE, 44_decoder.md R180. -/
  | decode
  /-- COMPRESS, 45_compound_and_control.md R206. -/
  | compress
  /-- DECOMPRESS, 44_decoder.md R195. -/
  | decompress
  /-- CLEAR, 45_compound_and_control.md R210. -/
  | clear
  /-- ERRACK, 45_compound_and_control.md R209. -/
  | errack
  deriving DecidableEq, Repr

/-- What reaches HUFFCORE from outside: a bus read or a bus write of one 32-bit word at a byte address
(20_memory.md R60, R61), or the reset input (70_reset_and_hazards.md R250). -/
inductive HostOp where
  /-- `MemRead(addr, 4)`, 20_memory.md R62. -/
  | read (addr : Nat)
  /-- `MemWrite(addr, 4, v)`, 20_memory.md R63. -/
  | write (addr : Nat) (v : Word)
  /-- The reset input is asserted and released, 70_reset_and_hazards.md R250, R251. -/
  | reset
  deriving DecidableEq, Repr

end Sys2Proof
end

