-- ==== Sys2Proof/WellFormed.lean ====
section
/-! DEFINITION. What is well formed: a command (always, it has no operand), a command word
(30_encoding.md R91, R93), a host transaction's address (20_memory.md R65), and the open parameters
(00_scope.md R7). -/

namespace Sys2Proof

/-- A command has no operand field, so there is nothing to check (30_encoding.md R90, R94). -/
def Instr.wf : Instr → Bool
  | .nop | .count | .build | .gentab | .encode | .decode | .compress | .decompress | .clear | .errack => true

/-- A command word is legal when `w[31:8] = 0` and `w[7:0]` is one of 0x00..0x09 (30_encoding.md R91, R92). -/
def commandWordLegal (w : Word) : Bool :=
  w.extractLsb' 8 24 == 0#24 && decide ((w.extractLsb' 0 8).toNat ≤ 9)

/-- "A host transaction must be word aligned (`addr[1:0] = 0`)" (20_memory.md R65). -/
def HostOp.aligned : HostOp → Bool
  | .read a => a % 4 == 0
  | .write a _ => a % 4 == 0
  | .reset => true

/-- `n` rounded up to a multiple of 4, the size in bytes of a window of `n` bytes (20_memory.md R67). -/
def roundUp4 (n : Nat) : Nat := 4 * ((n + 3) / 4)

/-- The seven windows of the address map, as (first byte, size in bytes) (20_memory.md R66, R67). -/
def Params.windows (p : Params) : List (Nat × Nat) :=
  [(0x0, 0x2C), (0x400, 0x400), (0x2000, 0x1FF0), (0x4000, 0x4040),
   (p.symBase, roundUp4 p.maxLen), (p.outBase, roundUp4 p.maxLen), (p.bitsBase, p.maxBits)]

/-- Two windows share no byte. -/
def windowsDisjoint (a b : Nat × Nat) : Bool :=
  decide (a.1 + a.2 ≤ b.1) || decide (b.1 + b.2 ≤ a.1)

/-- No two windows of a list overlap. -/
def allDisjoint : List (Nat × Nat) → Bool
  | [] => true
  | w :: ws => ws.all (windowsDisjoint w) && allDisjoint ws

/-- The constraints of 00_scope.md R7 on the open parameters: `1 <= MAX_LEN <= 2^32-1`, MAX_BITS "a
multiple of 32 and at most 2^32-1", "no two windows overlap"; a base is word aligned, as every bus
access is (DESIGN CHOICE, log 8). -/
def Params.wf (p : Params) : Bool :=
  decide (1 ≤ p.maxLen) && decide (p.maxLen < 2 ^ 32) &&
  decide (p.maxBits % 32 = 0) && decide (p.maxBits < 2 ^ 32) &&
  decide (p.symBase % 4 = 0) && decide (p.outBase % 4 = 0) && decide (p.bitsBase % 4 = 0) &&
  allDisjoint p.windows

end Sys2Proof
end

