-- ==== Sys2Proof/Decode.lean ====
section
/-! DEFINITION. Reading a command word (30_encoding.md R90 to R93), total on every 32-bit word, and the
encoder, written from the same opcode map. -/

namespace Sys2Proof

/-- Why a word is no command (30_encoding.md R93). -/
inductive Illegal where
  /-- Bits [31:8], the field ZERO, are not all zero. -/
  | zeroFieldSet
  /-- ZERO is 0 and the low byte is 0x0A..0xFF. -/
  | opcodeUndefined
  deriving DecidableEq, Repr

/-- What decode makes of a word. -/
inductive Decoded where
  | command (i : Instr)
  | illegal (why : Illegal)
  deriving DecidableEq, Repr

/-- OPC, bits [7:0] of a command word (30_encoding.md R90). -/
def opcField (w : Word) : Byte := w.extractLsb' 0 8

/-- ZERO, bits [31:8] of a command word (30_encoding.md R90). -/
def zeroField (w : Word) : BitVec 24 := w.extractLsb' 8 24

/-- The opcode map (30_encoding.md R92). -/
def decodeOpc (opc : Byte) : Decoded :=
  match opc.toNat with
  | 0x00 => .command .nop
  | 0x01 => .command .count
  | 0x02 => .command .build
  | 0x03 => .command .gentab
  | 0x04 => .command .encode
  | 0x05 => .command .decode
  | 0x06 => .command .compress
  | 0x07 => .command .decompress
  | 0x08 => .command .clear
  | 0x09 => .command .errack
  | _ => .illegal .opcodeUndefined

/-- Command decode (30_encoding.md R91): "Decode reads nothing but `w`" (the gate, which reads
STATUS.ERR, stands in the meanings). -/
def decode (w : Word) : Decoded :=
  if zeroField w = 0#24 then decodeOpc (opcField w) else .illegal .zeroFieldSet

/-- The opcode of a command (30_encoding.md R92). -/
def opcode : Instr → Byte
  | .nop => 0x00#8
  | .count => 0x01#8
  | .build => 0x02#8
  | .gentab => 0x03#8
  | .encode => 0x04#8
  | .decode => 0x05#8
  | .compress => 0x06#8
  | .decompress => 0x07#8
  | .clear => 0x08#8
  | .errack => 0x09#8

/-- The command word of a command: its opcode zero-extended to 32 bits (30_encoding.md R90, R92). -/
def encode (i : Instr) : Word := (opcode i).zeroExtend 32

/-- The word that the opcode table's numbering gives: the low `nbits` bits of `w`, every bit above them
0. A command is one 32-bit bus word and is stored nowhere, so no byte order enters (30_encoding.md R90,
10_state.md R25; DEDUCED, log 16). -/
def tableWord (nbits w : Nat) : Word := BitVec.ofNat 32 (w % 2 ^ nbits)

/-- The command the decoder reads from a table row's bits; no command word is longer than 32 bits. -/
def decodeTableWord (nbits w : Nat) : Option Instr :=
  if nbits ≤ 32 then
    match decode (tableWord nbits w) with
    | .command i => some i
    | .illegal _ => none
  else none

end Sys2Proof
end

