-- ==== Sys2Proof/Machine/State.lean ====
section
/-! DEFINITION. The state of HUFFCORE as plain data (10_state.md; the list with widths and reset values
is INVENTORY.md's), the reasons a step can stop, and the state after reset (10_state.md R51,
70_reset_and_hazards.md R250). -/

namespace Sys2Proof.Machine

/-- STATUS.ERRCODE (10_state.md R26, 60_exceptions.md R221); 9..15 never occur. -/
inductive ErrCode where
  | none
  | invalidBit
  | lookup
  | mismatch
  | invariant
  | sequence
  | overflow
  | illegalCmd
  | range
  deriving DecidableEq, Repr

/-- STATUS.TREE (10_state.md R26, R28); 3 never occurs. -/
inductive TreeState where
  /-- No tree built since reset or CLEAR. -/
  | none
  /-- The tree of an all-zero frequency table: absent. -/
  | empty
  /-- A tree is in the arena. -/
  | valid
  deriving DecidableEq, Repr

/-- STATUS.DSTATE (10_state.md R30, 44_decoder.md R186). -/
inductive DecState where
  | atRoot
  | descending
  deriving DecidableEq, Repr

/-- CTRL.FMT (10_state.md R31). -/
inductive Format where
  /-- One byte per stream element. -/
  | char
  /-- One bit per stream element. -/
  | packed
  deriving DecidableEq, Repr

/-- The class of a stream element (30_encoding.md R101). -/
inductive Elem where
  | zero
  | one
  | invalid
  deriving DecidableEq, Repr

/-- The kind field of a node (10_state.md R42). -/
inductive NodeKind where
  | leaf
  | internal
  deriving DecidableEq, Repr

/-- One record of the arena (10_state.md R42). -/
structure Node where
  kind   : NodeKind
  weight : Weight
  sym    : SymVal
  minsym : SymVal
  left   : NodeIdx
  right  : NodeIdx
  deriving DecidableEq, Repr

/-- One entry of the code table: bit `j` of `bits` is the j-th bit of the code counted from the root
(10_state.md R44). -/
structure CodeEntry where
  valid : Bool
  len   : BitVec 8
  bits  : BitVec 255
  deriving DecidableEq, Repr

/-- What a memory lists: (index, value) pairs, the indices strictly rising. An index that is not
listed has not been written since reset. -/
abbrev Store (α : Type) := List (Nat × α)

/-- A byte-wide memory, SYM, OUT or BITS, keyed by its own index (10_state.md R48). -/
abbrev Memory := List Host.Cell

/-- The frequency table (10_state.md R40). -/
abbrev Freq := Vector Word 256

/-- The response of a completed bus transaction (20_memory.md R60, R62, R63). -/
inductive BusResponse where
  /-- A read answered OK with this data. -/
  | readOk (data : Word)
  /-- A read answered ERROR; the data is 0x00000000. -/
  | readError (data : Word)
  /-- A write answered OK. -/
  | writeOk
  /-- A write answered ERROR. -/
  | writeError
  deriving DecidableEq, Repr

/-- The state of the machine. -/
structure State where
  /-- MAX_LEN, MAX_BITS and the window bases (00_scope.md R7, 10_state.md R38, R39). -/
  cfg      : Params
  /-- STATUS.ERR (10_state.md R27). -/
  err      : Bool
  /-- STATUS.ERRCODE (10_state.md R27). -/
  errCode  : ErrCode
  /-- STATUS.TREE (10_state.md R28). -/
  tree     : TreeState
  /-- STATUS.CODEV (10_state.md R29). -/
  codeV    : Bool
  /-- STATUS.DSTATE (10_state.md R30). -/
  dstate   : DecState
  /-- CTRL.FMT (10_state.md R31). -/
  fmt      : Format
  /-- LEN (10_state.md R32). -/
  len      : Word
  /-- BITLEN (10_state.md R33). -/
  bitLen   : Word
  /-- OUTLEN (10_state.md R34). -/
  outLen   : Word
  /-- ERRINFO (10_state.md R35). -/
  errInfo  : Word
  /-- ROOT (10_state.md R36). -/
  root     : NodeIdx
  /-- NODECNT (10_state.md R37). -/
  nodeCnt  : NodeCount
  /-- FREQ (10_state.md R40). -/
  freq     : Freq
  /-- NODE, the arena (10_state.md R41). -/
  node     : Store Node
  /-- ACTIVE: the indices whose flag is 1, rising (10_state.md R43). -/
  active   : List NodeIdx
  /-- CODE (10_state.md R44). -/
  code     : Store CodeEntry
  /-- SYM (10_state.md R45). -/
  sym      : Memory
  /-- OUT (10_state.md R46). -/
  out      : Memory
  /-- BITS (10_state.md R47). -/
  bits     : Memory
  /-- SYMPOS (10_state.md R21). -/
  symPos   : Word
  /-- BITPOS (10_state.md R21). -/
  bitPos   : Word
  /-- POS (10_state.md R21). -/
  pos      : Word
  /-- CUR (10_state.md R21). -/
  cur      : NodeIdx
  /-- NALLOC (10_state.md R21). -/
  nalloc   : NodeCount
  /-- A (10_state.md R21). -/
  regA     : NodeIdx
  /-- B (10_state.md R21). -/
  regB     : NodeIdx
  /-- PATH, bit 0 of the walk first (10_state.md R21). -/
  path     : List Bool
  /-- STACK (10_state.md R21). -/
  stack    : List NodeIdx
  /-- MODEL: how many resets there have been; the free values of unwritten memory depend on it (DESIGN CHOICE, log 4). -/
  epoch    : Nat
  /-- MODEL: what the host does next, oldest first (DESIGN CHOICE, log 1). -/
  pending  : List HostOp
  /-- MODEL: the response of the last completed bus transaction, none since reset (DESIGN CHOICE, log 2). -/
  response : Option BusResponse
  deriving DecidableEq, Repr

/-- Why a step of this model stops. -/
inductive Fault where
  /-- Raised by GENTAB, and by COMPRESS through it, when the walk from ROOT of a VALID arena does not
  come to an end at leaves within 511 nodes or meets a path of more than 255 edges. The arena is then no
  tree: 10_state.md R49 excludes it, and "no transition is defined from a state containing them"
  (93_implementation_defined.md U12, which names the treatment stuck). SAFE: no state with 10_state.md
  R49's tree raises it, and nothing is claimed beyond it (DEDUCED, log 9). -/
  | arenaNotATree
  deriving DecidableEq, Repr

/-- Why an instruction has no meaning in this model. -/
inductive Refusal where
  /-- The instruction has no meaning yet. Raised by `exec` only; no arm raises it now. SAFE. -/
  | notModelled (mnemonic : String)
  deriving DecidableEq, Repr

/-- HUFFCORE right after the release of reset number `epoch`, for the instance with the parameters
`cfg`, with the host's transactions `pending` still to come. Registers and FREQ as 10_state.md R51 and
70_reset_and_hazards.md R250 list them; the memories list nothing, so that they read as free values
(DESIGN CHOICE, log 4); ACTIVE and the working registers, which the spec leaves unspecified, at the values of log 5
and log 6 (DESIGN CHOICE). -/
def State.afterReset (cfg : Params) (epoch : Nat) (pending : List HostOp) : State where
  cfg := cfg
  err := false
  errCode := .none
  tree := .none
  codeV := false
  dstate := .atRoot
  fmt := .char
  len := 0#32
  bitLen := 0#32
  outLen := 0#32
  errInfo := 0#32
  root := 0
  nodeCnt := 0
  freq := Vector.replicate 256 0#32
  node := []
  active := []
  code := []
  sym := []
  out := []
  bits := []
  symPos := 0#32
  bitPos := 0#32
  pos := 0#32
  cur := 0
  nalloc := 0
  regA := 0
  regB := 0
  path := []
  stack := []
  epoch := epoch
  pending := pending
  response := none

/-- HUFFCORE with the default parameters after its first reset (70_reset_and_hazards.md R250, R252). -/
def State.reset : State := State.afterReset Params.default 0 []

end Sys2Proof.Machine
end

