-- ==== Sys2Proof/Machine/Ops.lean ====
section
/-! DEFINITION. The shared operations: cells of a memory, the frequency table, fault entry
(60_exceptions.md R232) with the return from it (45_compound_and_control.md R209), and the gate
(60_exceptions.md R234). -/

namespace Sys2Proof.Machine

/-- What a memory lists at an index; `none` where nothing has been written since reset. -/
def cellAt {α : Type} : Store α → Nat → Option α
  | [], _ => none
  | (j, v) :: m, k => if j = k then some v else cellAt m k

/-- Writes one cell, keeping the indices strictly rising. -/
def putCell {α : Type} : Store α → Nat → α → Store α
  | [], k, v => [(k, v)]
  | (j, w) :: m, k, v =>
    if k < j then (k, v) :: (j, w) :: m
    else if k = j then (k, v) :: m
    else (j, w) :: putCell m k v

/-- Writes a run of cells from index `k` on, the first of the values first. -/
def putCells {α : Type} : Store α → Nat → List α → Store α
  | m, _, [] => m
  | m, k, v :: vs => putCells (putCell m k v) (k + 1) vs

/-- The canonical form of a memory: the indices strictly rise. An unlisted index reads as "not
written", which no listed entry is, so the second half of the form (no entry equal to what an unlisted
index reads as) holds of every list (DESIGN CHOICE, log 4). -/
def storeWf {α : Type} : Store α → Bool
  | [] => true
  | (i, _) :: m => m.all (fun c => decide (i < c.1)) && storeWf m

/-- The canonical form of a byte-wide memory. -/
def Memory.wf (m : Memory) : Bool := storeWf m

/-- Every listed index is below `n`, the number of entries of the memory. -/
def keysBelow {α : Type} (m : Store α) (n : Nat) : Bool := m.all (fun c => decide (c.1 < n))

/-- Byte `k` of a memory whose unwritten bytes are `free`. -/
def byteAt (free : Nat → Byte) (m : Memory) (k : Nat) : Byte := (cellAt m k).getD (free k)

/-- The bytes of memory `id` as the last reset left them (DESIGN CHOICE, log 4). -/
def State.free (s : State) (id : ByteMem) : Nat → Byte := Config.unwrittenByte s.epoch id

/-- SYM[k] (10_state.md R45). -/
def State.symByte (s : State) (k : Nat) : Byte := byteAt (s.free .sym) s.sym k

/-- OUT[k] (10_state.md R46). -/
def State.outByte (s : State) (k : Nat) : Byte := byteAt (s.free .out) s.out k

/-- BITS[k] (10_state.md R47). -/
def State.bitsByte (s : State) (k : Nat) : Byte := byteAt (s.free .bits) s.bits k

/-- FREQ[i] for i in 0..255 (10_state.md R40). -/
def freqAt (f : Freq) (i : Nat) : Word := f[i]?.getD 0#32

/-- FREQ[i] <- v for i in 0..255 (10_state.md R40). -/
def putFreq (f : Freq) (i : Nat) (v : Word) : Freq := f.setIfInBounds i v

/-- The all-zero frequency table (10_state.md R40, R51). -/
def zeroFreq : Freq := Vector.replicate 256 0#32

/-- Whether fault entry voids OUTLEN: the command is DECODE or DECOMPRESS and the fault is INVALID_BIT,
MISMATCH or OVERFLOW (60_exceptions.md R232). -/
def voidsOutput (cmd : Option Instr) (f : ErrCode) : Bool :=
  (cmd == some .decode || cmd == some .decompress) &&
    (f == .invalidBit || f == .mismatch || f == .overflow)

/-- Fault entry, `raise F(info)` (60_exceptions.md R232): ERR, ERRCODE and ERRINFO are latched and
nothing else changes but OUTLEN for three of the decoder's faults. `cmd` is the command that runs, none
for a word that is no command. Nothing is saved and control goes nowhere. -/
def State.raiseFault (s : State) (cmd : Option Instr) (f : ErrCode) (info : Word) : State :=
  { s with
    err := true
    errCode := f
    errInfo := info
    outLen := if voidsOutput cmd f then 0#32 else s.outLen }

/-- The return from a fault, which restores nothing because nothing was saved
(45_compound_and_control.md R209, 60_exceptions.md R236). -/
def State.ackFault (s : State) : State :=
  { s with err := false, errCode := .none, errInfo := 0#32 }

/-- The gate, the first line of every command but NOP, CLEAR and ERRACK: `if STATUS.ERR = 1: return`
(60_exceptions.md R234). -/
def gated (s : State) (body : State → Host.Outcome State Fault Refusal) : Host.Outcome State Fault Refusal :=
  if s.err then .next s else body s

end Sys2Proof.Machine
end

