-- ==== Sys2Proof/Machine/Flags.lean ====
section
/-! DEFINITION. The STATUS and CTRL words as the host reads them (10_state.md R26, R31) and the numbers
of their fields. The machine has no arithmetic condition codes (10_state.md R52). -/

namespace Sys2Proof.Machine

/-- The number of a fault code (60_exceptions.md R221). -/
def ErrCode.num : ErrCode → BitVec 4
  | .none => 0#4
  | .invalidBit => 1#4
  | .lookup => 2#4
  | .mismatch => 3#4
  | .invariant => 4#4
  | .sequence => 5#4
  | .overflow => 6#4
  | .illegalCmd => 7#4
  | .range => 8#4

/-- The number of a tree state (10_state.md R26). -/
def TreeState.num : TreeState → BitVec 2
  | .none => 0#2
  | .empty => 1#2
  | .valid => 2#2

/-- The bit of a decoder state (10_state.md R30). -/
def DecState.num : DecState → BitVec 1
  | .atRoot => 0#1
  | .descending => 1#1

/-- The bit of a stream format (10_state.md R31). -/
def Format.num : Format → BitVec 1
  | .char => 0#1
  | .packed => 1#1

/-- The format a bit names (10_state.md R31). -/
def Format.ofBit (b : Bool) : Format := if b then .packed else .char

/-- STATUS (10_state.md R26): {reserved [31:9], DSTATE [8], CODEV [7], TREE [6:5], ERRCODE [4:1], ERR [0]}. -/
def State.statusWord (s : State) : Word :=
  0#23 ++ s.dstate.num ++ BitVec.ofBool s.codeV ++ s.tree.num ++ s.errCode.num ++ BitVec.ofBool s.err

/-- CTRL (10_state.md R31): {reserved [31:1], FMT [0]}. -/
def State.ctrlWord (s : State) : Word := 0#31 ++ s.fmt.num

end Sys2Proof.Machine
end

