-- ==== Sys2Proof/Machine/Operands.lean ====
section
/-! DEFINITION. The operands of the commands, which are fixed state elements (30_encoding.md R94): the
input sequence, the stream elements of BITS in both formats (30_encoding.md R100 to R103), the node
record (R96) and the code-table entry (R98) with their words, and the byte lanes of a bus word
(20_memory.md R64). -/

namespace Sys2Proof.Machine

/-! ### The input sequence -/

/-- SYM[0..LEN-1], the input sequence (10_state.md R32, R45). -/
def State.inputSeq (s : State) : List Byte := (List.range s.len.toNat).map s.symByte

/-! ### Stream elements -/

/-- `x` with bit `i` set to `b`, the other bits as they were. -/
def setBit (x : Byte) (i : Nat) (b : Bool) : Byte :=
  if b then x ||| (1#8 <<< i) else x &&& ~~~(1#8 <<< i)

/-- The class of a CHAR element: 0x30 is ZERO, 0x31 is ONE, each other byte is INVALID (30_encoding.md R102). -/
def charElem (x : Byte) : Elem :=
  if x = 0x30#8 then .zero else if x = 0x31#8 then .one else .invalid

/-- The class of a bit: 0 is ZERO, 1 is ONE (30_encoding.md R101, R103). -/
def bitElem (b : Bool) : Elem := if b then .one else .zero

/-- `elem(i)` over the bytes `rd` (30_encoding.md R101 to R103). -/
def elemAt (fmt : Format) (rd : Nat → Byte) (i : Nat) : Elem :=
  match fmt with
  | .char => charElem (rd i)
  | .packed => bitElem ((rd (i / 8)).getLsbD (i % 8))

/-- `putelem(i, b)` on the memory `m` (30_encoding.md R101 to R103); PACKED reads the byte, changes one
bit and writes the byte. -/
def putElem (fmt : Format) (free : Nat → Byte) (m : Memory) (i : Nat) (b : Bool) : Memory :=
  match fmt with
  | .char => putCell m i (0x30#8 + (BitVec.ofBool b).zeroExtend 8)
  | .packed => putCell m (i / 8) (setBit (byteAt free m (i / 8)) (i % 8) b)

/-- Writes the elements `bs` from element `i` on, the first of them first. -/
def putElems (fmt : Format) (free : Nat → Byte) : Memory → Nat → List Bool → Memory
  | m, _, [] => m
  | m, i, b :: bs => putElems fmt free (putElem fmt free m i b) (i + 1) bs

/-- E[i], the class of stream element `i` of BITS in the format in force (30_encoding.md R100, R101). -/
def State.elem (s : State) (i : Nat) : Elem := elemAt s.fmt s.bitsByte i

/-- E[0..BITLEN-1], the encoded bit-string (30_encoding.md R100). -/
def State.elems (s : State) : List Elem := (List.range s.bitLen.toNat).map s.elem

/-! ### The node record -/

/-- A 9-bit field holding a symbol value. -/
def symField (v : SymVal) : BitVec 9 := BitVec.ofNat 9 v.val

/-- A 9-bit field holding an arena index. -/
def idxField (v : NodeIdx) : BitVec 9 := BitVec.ofNat 9 v.val

/-- The kind bit of a node record: 0 Leaf, 1 Internal (10_state.md R42). -/
def NodeKind.num : NodeKind → BitVec 1
  | .leaf => 0#1
  | .internal => 1#1

/-- Word `j` (0..3) of a node record (30_encoding.md R96). -/
def Node.word (n : Node) (j : Nat) : Word :=
  match j with
  | 0 => n.weight.extractLsb' 0 32
  | 1 => 0#24 ++ n.weight.extractLsb' 32 8
  | 2 => n.kind.num ++ 0#6 ++ symField n.minsym ++ 0#7 ++ symField n.sym
  | 3 => 0#7 ++ idxField n.right ++ 0#7 ++ idxField n.left
  | _ => 0#32

/-- The record that four words hold, by the fields of 30_encoding.md R96. A field value outside the
bounds of 93_implementation_defined.md U12 is taken modulo the bound; only words that nothing has
written can hold one (DESIGN CHOICE, log 10). -/
def Node.ofWords (w : Nat → Word) : Node where
  kind := if (w 2).getLsbD 31 then .internal else .leaf
  weight := (w 1).extractLsb' 0 8 ++ w 0
  sym := Fin.ofNat 257 ((w 2).extractLsb' 0 9).toNat
  minsym := Fin.ofNat 257 ((w 2).extractLsb' 16 9).toNat
  left := Fin.ofNat 511 ((w 3).extractLsb' 0 9).toNat
  right := Fin.ofNat 511 ((w 3).extractLsb' 16 9).toNat

/-- NODE[i] (10_state.md R41). -/
def State.nodeAt (s : State) (i : NodeIdx) : Node :=
  (cellAt s.node i.val).getD (Node.ofWords (Config.unwrittenNodeWord s.epoch i.val))

/-- Word `j` of NODE[i] as the host reads it: by 30_encoding.md R96 for a written record, "all 128 bits
are unspecified" for one never written since reset. -/
def State.nodeWordAt (s : State) (i j : Nat) : Word :=
  match cellAt s.node i with
  | some n => n.word j
  | none => Config.unwrittenNodeWord s.epoch i j

/-! ### The code-table entry -/

/-- The entry of a symbol without a code: "valid = 0, len = 0 and all code bits zero" (30_encoding.md R98). -/
def CodeEntry.absent : CodeEntry := { valid := false, len := 0#8, bits := 0#255 }

/-- The entry that holds the code `p`: bits[j] = p[j] for j < |p|, every other bit zero
(42_code_table_generator.md R150, 30_encoding.md R98). -/
def CodeEntry.ofPath (p : List Bool) : CodeEntry where
  valid := true
  len := BitVec.ofNat 8 p.length
  bits := (BitVec.ofBoolListLE p).setWidth 255

/-- The code an entry holds: bits[0..len-1] (10_state.md R44). -/
def CodeEntry.code (e : CodeEntry) : List Bool := (List.range e.len.toNat).map e.bits.getLsbD

/-- Word `j` (0..15) of an entry (30_encoding.md R98). -/
def CodeEntry.word (e : CodeEntry) (j : Nat) : Word :=
  if j = 0 then BitVec.ofBool e.valid ++ 0#23 ++ e.len
  else if j ≤ 8 then (e.bits.setWidth 256).extractLsb' (32 * (j - 1)) 32
  else 0#32

/-- The entry that sixteen words hold (30_encoding.md R98). -/
def CodeEntry.ofWords (w : Nat → Word) : CodeEntry where
  valid := (w 0).getLsbD 31
  len := (w 0).extractLsb' 0 8
  bits := (w 8 ++ w 7 ++ w 6 ++ w 5 ++ w 4 ++ w 3 ++ w 2 ++ w 1).setWidth 255

/-- CODE[k] for a symbol value k in 0..256 (10_state.md R44). -/
def State.codeAt (s : State) (k : Nat) : CodeEntry :=
  (cellAt s.code k).getD (CodeEntry.ofWords (Config.unwrittenCodeWord s.epoch k))

/-- Word `j` of CODE[k] as the host reads it: by 30_encoding.md R98, unspecified before the first
GENTAB since reset. -/
def State.codeWordAt (s : State) (k j : Nat) : Word :=
  match cellAt s.code k with
  | some e => e.word j
  | none => Config.unwrittenCodeWord s.epoch k j

/-! ### Byte lanes -/

/-- Byte lane `l` (0..3) of a bus word: bits [8*l+7 : 8*l] (20_memory.md R64). -/
def laneOf (v : Word) (l : Nat) : Byte := v.extractLsb' (8 * l) 8

/-- The bus word `w` of a byte memory whose bytes are `rd` and of which `limit` exist: {M[4w+3], M[4w+2],
M[4w+1], M[4w]}, a byte beyond the memory reading as 0 (20_memory.md R64, R67). -/
def wordOfBytes (rd : Nat → Byte) (limit w : Nat) : Word :=
  let lane := fun l => if 4 * w + l < limit then rd (4 * w + l) else 0#8
  lane 3 ++ lane 2 ++ lane 1 ++ lane 0

/-- Stores lane `l` of `v` as byte `4*w + l`, where that byte exists (20_memory.md R64, R67). -/
def putLane (limit w : Nat) (v : Word) (m : Memory) (l : Nat) : Memory :=
  if 4 * w + l < limit then putCell m (4 * w + l) (laneOf v l) else m

/-- Stores the four bytes of the bus word `v` at word `w` (20_memory.md R61, R64, R67). -/
def putWord (limit w : Nat) (v : Word) (m : Memory) : Memory :=
  putLane limit w v (putLane limit w v (putLane limit w v (putLane limit w v m 0) 1) 2) 3

end Sys2Proof.Machine
end

