-- ==== Sys2Proof/Machine/Bus.lean ====
section
/-! DEFINITION. The host's bus: the address map (10_state.md R24, 20_memory.md R66, R67), the read
(R62) and the write of everything but CMD (R63). -/

namespace Sys2Proof.Machine

/-- The eleven host-addressable registers (10_state.md R24). -/
inductive Reg where
  | cmd
  | status
  | ctrl
  | len
  | bitLen
  | outLen
  | errInfo
  | root
  | nodeCnt
  | capLen
  | capBits
  deriving DecidableEq, Repr

/-- What stands at a bus address (20_memory.md R66). -/
inductive Location where
  | reg (r : Reg)
  /-- FREQ[i]. -/
  | freq (i : Nat)
  /-- Word `j` of NODE[i]. -/
  | node (i j : Nat)
  /-- Word `j` of CODE[k]. -/
  | code (k j : Nat)
  /-- Word `w` of the SYM window. -/
  | sym (w : Nat)
  /-- Word `w` of the OUT window. -/
  | out (w : Nat)
  /-- Word `w` of the BITS window. -/
  | bits (w : Nat)
  /-- No row of the map, or a misaligned address: the response is ERROR (20_memory.md R62, R63, R65). -/
  | unmapped
  deriving DecidableEq, Repr

/-- The register at a byte offset (10_state.md R24). -/
def regAt : Nat → Option Reg
  | 0x000 => some .cmd
  | 0x004 => some .status
  | 0x008 => some .ctrl
  | 0x00C => some .len
  | 0x010 => some .bitLen
  | 0x014 => some .outLen
  | 0x018 => some .errInfo
  | 0x01C => some .root
  | 0x020 => some .nodeCnt
  | 0x024 => some .capLen
  | 0x028 => some .capBits
  | _ => none

/-- Whether `a` lies in the window of `size` bytes at `base`. -/
def inWindow (base size a : Nat) : Bool := decide (base ≤ a) && decide (a < base + size)

/-- The address map for an aligned address (20_memory.md R66, R67). -/
def locateAligned (p : Params) (a : Nat) : Location :=
  if a < 0x2C then
    match regAt a with
    | some r => .reg r
    | none => .unmapped
  else if inWindow 0x400 0x400 a then .freq ((a - 0x400) / 4)
  else if inWindow 0x2000 0x1FF0 a then .node ((a - 0x2000) / 16) ((a - 0x2000) % 16 / 4)
  else if inWindow 0x4000 0x4040 a then .code ((a - 0x4000) / 64) ((a - 0x4000) % 64 / 4)
  else if inWindow p.symBase (roundUp4 p.maxLen) a then .sym ((a - p.symBase) / 4)
  else if inWindow p.outBase (roundUp4 p.maxLen) a then .out ((a - p.outBase) / 4)
  else if inWindow p.bitsBase p.maxBits a then .bits ((a - p.bitsBase) / 4)
  else .unmapped

/-- The address map; a misaligned address answers as an unmapped one (20_memory.md R62, R63, R65). -/
def locate (p : Params) (a : Nat) : Location :=
  if a % 4 = 0 then locateAligned p a else .unmapped

/-- A register as the host reads it (10_state.md R25 to R39): CMD reads 0. -/
def State.regWord (s : State) : Reg → Word
  | .cmd => 0#32
  | .status => s.statusWord
  | .ctrl => s.ctrlWord
  | .len => s.len
  | .bitLen => s.bitLen
  | .outLen => s.outLen
  | .errInfo => s.errInfo
  | .root => BitVec.ofNat 32 s.root.val
  | .nodeCnt => BitVec.ofNat 32 s.nodeCnt.val
  | .capLen => BitVec.ofNat 32 s.cfg.maxLen
  | .capBits => BitVec.ofNat 32 s.cfg.maxBits

/-- `MemRead(addr, 4)` (20_memory.md R62): the response; "A read never changes state". -/
def State.busRead (s : State) (a : Nat) : BusResponse :=
  match locate s.cfg a with
  | .reg r => .readOk (s.regWord r)
  | .freq i => .readOk (freqAt s.freq i)
  | .node i j => .readOk (s.nodeWordAt i j)
  | .code k j => .readOk (s.codeWordAt k j)
  | .sym w => .readOk (wordOfBytes s.symByte s.cfg.maxLen w)
  | .out w => .readOk (wordOfBytes s.outByte s.cfg.maxLen w)
  | .bits w => .readOk (wordOfBytes s.bitsByte s.cfg.maxBits w)
  | .unmapped => .readError 0#32

/-- A write to a register other than CMD (20_memory.md R63, 10_state.md R24): CTRL keeps `v[0]`, LEN and
BITLEN keep `v`, a read-only register ignores the write. -/
def State.putReg (s : State) (r : Reg) (v : Word) : State :=
  match r with
  | .ctrl => { s with fmt := Format.ofBit (v.getLsbD 0) }
  | .len => { s with len := v }
  | .bitLen => { s with bitLen := v }
  | .cmd | .status | .outLen | .errInfo | .root | .nodeCnt | .capLen | .capBits => s

/-- What `MemWrite(addr, 4, v)` stores at a location other than CMD (20_memory.md R63): "a write to a
read-only location changes nothing". -/
def State.putLocation (s : State) (l : Location) (v : Word) : State :=
  match l with
  | .reg r => s.putReg r v
  | .freq i => { s with freq := putFreq s.freq i v }
  | .sym w => { s with sym := putWord s.cfg.maxLen w v s.sym }
  | .bits w => { s with bits := putWord s.cfg.maxBits w v s.bits }
  | .node _ _ | .code _ _ | .out _ | .unmapped => s

/-- The response of a write: ERROR for a misaligned or unmapped address, else OK (20_memory.md R63). -/
def writeResponse (l : Location) : BusResponse :=
  match l with
  | .unmapped => .writeError
  | .reg _ | .freq _ | .node _ _ | .code _ _ | .sym _ | .out _ | .bits _ => .writeOk

/-- The state with the response of the transaction just performed. -/
def State.respond (s : State) (r : BusResponse) : State := { s with response := some r }

end Sys2Proof.Machine
end

