-- ==== Sys2Proof/Machine/CodeTable.lean ====
section
/-! DEFINITION. CG, the code-table generator: GENTAB (42_code_table_generator.md R150 to R158). -/

namespace Sys2Proof.Machine

/-- CODE with all 257 entries invalid (42_code_table_generator.md R150). -/
def clearedCode : Store CodeEntry := (List.range 257).map (fun k => (k, CodeEntry.absent))

/-- `walk(n, p)` (42_code_table_generator.md R150), left child first (R152): the table with the codes
below node `n` recorded, and the path of the last leaf visited. `fuel` bounds the depth; a child's index is
smaller than its parent's in every tree BUILD makes (41_tree_builder.md R145), so 511 is enough there.
`none` where the arena is no tree: the walk does not end, or a path is longer than the 255 bits an entry
holds (42_code_table_generator.md R156). -/
def walk (node : NodeIdx → Node) : Nat → NodeIdx → List Bool → Store CodeEntry → Option (Store CodeEntry × List Bool)
  | 0, _, _, _ => none
  | fuel + 1, n, p, code =>
    match (node n).kind with
    | .leaf =>
      if p.length ≤ 255 then some (putCell code (node n).sym.val (CodeEntry.ofPath p), p) else none
    | .internal =>
      match walk node fuel (node n).left (p ++ [false]) code with
      | none => none
      | some (code', _) => walk node fuel (node n).right (p ++ [true]) code'

/-- The code table of the tree now described by TREE, ROOT and NODE, with the path of the last leaf
visited: the empty mapping for an absent tree (42_code_table_generator.md R153), the walk's table for a
VALID one (R150). -/
def State.tableOfTree (s : State) : Option (Store CodeEntry × List Bool) :=
  match s.tree with
  | .valid => walk s.nodeAt 511 s.root [] clearedCode
  | .empty | .none => some (clearedCode, [])

/-- GENTAB's writes before the walk: CODEV 0, all entries invalid; PATH and STACK start empty. -/
def State.startTable (s : State) : State :=
  { s with codeV := false, code := clearedCode, path := [], stack := [] }

/-- GENTAB behind the gate (42_code_table_generator.md R150): SEQUENCE before CODE is touched; INVARIANT for
a root that is a leaf (R154), with CODE cleared and CODEV = 0; else the table and CODEV = 1. -/
def gentabUnit (s : State) : Host.Outcome State Fault Refusal :=
  if s.tree = .none then
    .next (s.raiseFault (some .gentab) .sequence ((opcode .gentab).zeroExtend 32))
  else if s.tree = .valid ∧ (s.nodeAt s.root).kind = .leaf then
    .next (s.startTable.raiseFault (some .gentab) .invariant (BitVec.ofNat 32 s.root.val))
  else
    match s.tableOfTree with
    | some (code, p) => .next { s.startTable with code := code, path := p, codeV := true }
    | none => .fault .arenaNotATree

/-- GENTAB (42_code_table_generator.md R150). -/
def execGentab (s : State) : Host.Outcome State Fault Refusal := gated s gentabUnit

end Sys2Proof.Machine
end

