-- ==== Sys2Proof/Machine/Decoder.lean ====
section
/-! DEFINITION. DE, the decoder: DECODE and DECOMPRESS (44_decoder.md R180 to R196). -/

namespace Sys2Proof.Machine

/-- The working state of the walk: OUT, OUTLEN, the decoder state (DSTATE, CUR, BITPOS) of 44_decoder.md
R186, and the fault that ended the walk, if any. -/
structure DecRegs where
  out    : Memory
  outLen : Nat
  dstate : DecState
  cur    : NodeIdx
  bitPos : Nat
  stop   : ErrCode
  deriving DecidableEq, Repr

/-- The child an element selects: left on ZERO, right on ONE (44_decoder.md R187). -/
def Node.child (n : Node) (e : Elem) : NodeIdx := if e = .zero then n.left else n.right

/-- One element of the walk (44_decoder.md R186, R187): the synthetic leaf is MISMATCH (R189), before
OVERFLOW for a full OUT (R190). -/
def decodeElem (node : NodeIdx → Node) (root : NodeIdx) (cap : Nat) (e : Elem) (r : DecRegs) : DecRegs :=
  let n := (node r.cur).child e
  let r' := { r with bitPos := r.bitPos + 1 }
  match (node n).kind with
  | .leaf =>
    if (node n).sym = sentinel then { r' with stop := .mismatch }
    else if r.outLen = cap then { r' with stop := .overflow }
    else
      { r' with
        out := putCell r.out r.outLen (BitVec.ofNat 8 (node n).sym.val)
        outLen := r.outLen + 1
        cur := root
        dstate := .atRoot }
  | .internal => { r' with cur := n, dstate := .descending }

/-- The walk over the elements, ended by the first fault (44_decoder.md R180, R185). -/
def decodeElems (node : NodeIdx → Node) (root : NodeIdx) (cap : Nat) : List Elem → DecRegs → DecRegs
  | [], r => r
  | e :: es, r =>
    let r' := decodeElem node root cap e r
    if r'.stop = .none then decodeElems node root cap es r' else r'

/-- The index of the first INVALID element (44_decoder.md R182). -/
def firstInvalid (es : List Elem) : Option Nat := es.findIdx? (fun e => e == .invalid)

/-- The initialisation of DECODE (44_decoder.md R181). -/
def State.startDecode (s : State) : State :=
  { s with outLen := 0#32, dstate := .atRoot, cur := s.root, bitPos := 0#32 }

/-- The walk on the machine's operands, from the initialised state (44_decoder.md R180). -/
def State.decodeRun (s : State) : DecRegs :=
  decodeElems s.nodeAt s.root s.cfg.maxLen s.elems
    { out := s.out, outLen := 0, dstate := .atRoot, cur := s.root, bitPos := 0, stop := .none }

/-- What the walk leaves in the machine. -/
def State.withDecRegs (s : State) (r : DecRegs) : State :=
  { s with
    out := r.out
    outLen := BitVec.ofNat 32 r.outLen
    dstate := r.dstate
    cur := r.cur
    bitPos := BitVec.ofNat 32 r.bitPos }

/-- The end of the walk: the fault that ended it, with ERRINFO = BITPOS - 1 (44_decoder.md R189, R190);
or, with the elements exhausted, success in AtRoot and MISMATCH(BITLEN) in Descending (R188). -/
def State.finishDecode (s : State) (cmd : Instr) (r : DecRegs) : State :=
  if r.stop = .none then
    if r.dstate = .descending then (s.withDecRegs r).raiseFault (some cmd) .mismatch s.bitLen
    else s.withDecRegs r
  else (s.withDecRegs r).raiseFault (some cmd) r.stop (BitVec.ofNat 32 (r.bitPos - 1))

/-- DECODE and DECOMPRESS behind the gate (44_decoder.md R180, R195, R196): SEQUENCE, then RANGE, both
before any write; INVALID_BIT from the whole bit-string before the walk (R182, R183); the absent tree
(R184); the walk. -/
def decodeUnit (cmd : Instr) (s : State) : State :=
  if s.tree = .none then s.raiseFault (some cmd) .sequence ((opcode cmd).zeroExtend 32)
  else if s.cfg.maxBits < s.bitLen.toNat then s.raiseFault (some cmd) .range s.bitLen
  else
    match firstInvalid s.elems with
    | some i => s.startDecode.raiseFault (some cmd) .invalidBit (BitVec.ofNat 32 i)
    | none =>
      if s.tree = .empty then
        if s.bitLen = 0#32 then s.startDecode else s.startDecode.raiseFault (some cmd) .mismatch 0#32
      else s.finishDecode cmd s.decodeRun

/-- DECODE (44_decoder.md R180). -/
def execDecode (s : State) : Host.Outcome State Fault Refusal := gated s (fun s => .next (decodeUnit .decode s))

/-- DECOMPRESS, "identical in every respect to DECODE" but for its own opcode in a SEQUENCE fault
(44_decoder.md R195). -/
def execDecompress (s : State) : Host.Outcome State Fault Refusal :=
  gated s (fun s => .next (decodeUnit .decompress s))

end Sys2Proof.Machine
end

