-- ==== Sys2Proof/Machine/Encoder.lean ====
section
/-! DEFINITION. EN, the encoder: ENCODE (43_encoder.md R165 to R173). -/

namespace Sys2Proof.Machine

/-- The working state of ENCODE: BITS, the cursors SYMPOS and POS (10_state.md R21, R23), and the fault
that ended the loop, if any. -/
structure EncRegs where
  bits   : Memory
  symPos : Nat
  pos    : Nat
  stop   : ErrCode
  deriving DecidableEq, Repr

/-- One symbol of ENCODE's loop: LOOKUP before OVERFLOW, and nothing of a code that does not fit is written
(43_encoder.md R165, R168, R169). -/
def encodeSym (fmt : Format) (free : Nat → Byte) (look : Byte → CodeEntry) (cap : Nat) (c : Byte) (r : EncRegs) :
    EncRegs :=
  if (look c).valid = false then { r with stop := .lookup }
  else if cap < r.pos + (look c).len.toNat then { r with stop := .overflow }
  else
    { r with
      bits := putElems fmt free r.bits r.pos (look c).code
      pos := r.pos + (look c).len.toNat
      symPos := r.symPos + 1 }

/-- ENCODE's loop over the input, ended by the first fault (43_encoder.md R165). -/
def encodeSyms (fmt : Format) (free : Nat → Byte) (look : Byte → CodeEntry) (cap : Nat) :
    List Byte → EncRegs → EncRegs
  | [], r => r
  | c :: cs, r =>
    let r' := encodeSym fmt free look cap c r
    if r'.stop = .none then encodeSyms fmt free look cap cs r' else r'

/-- How many zero elements fill the last byte in PACKED format; none in CHAR (43_encoder.md R170). -/
def padCount (fmt : Format) (pos : Nat) : Nat :=
  match fmt with
  | .char => 0
  | .packed => 8 * ((pos + 7) / 8) - pos

/-- The code-table entry ENCODE looks up for a symbol of SYM: CODE[c], index 0..255 (43_encoder.md R165). -/
def State.look (s : State) (c : Byte) : CodeEntry := s.codeAt c.toNat

/-- ENCODE's loop on the machine's operands, from BITLEN, SYMPOS and POS at 0. -/
def State.encodeRun (s : State) : EncRegs :=
  encodeSyms s.fmt (s.free .bits) s.look s.cfg.maxBits s.inputSeq
    { bits := s.bits, symPos := 0, pos := 0, stop := .none }

/-- What the loop leaves: BITS, BITLEN still 0, and the cursors (43_encoder.md R172). -/
def State.withEncRegs (s : State) (r : EncRegs) : State :=
  { s with
    bits := r.bits
    bitLen := 0#32
    symPos := BitVec.ofNat 32 r.symPos
    pos := BitVec.ofNat 32 r.pos }

/-- The end of a fault-free ENCODE: the padding of the last byte, then BITLEN (43_encoder.md R165, R170). -/
def State.finishEncode (s : State) (r : EncRegs) : State :=
  { s.withEncRegs r with
    bits := putElems s.fmt (s.free .bits) r.bits r.pos (List.replicate (padCount s.fmt r.pos) false)
    bitLen := BitVec.ofNat 32 r.pos }

/-- ENCODE behind the gate (43_encoder.md R165): SEQUENCE, then RANGE, both before any write; LOOKUP and
OVERFLOW inside the loop, with ERRINFO = SYMPOS and BITLEN = 0. -/
def encodeUnit (s : State) : State :=
  if s.codeV = false then s.raiseFault (some .encode) .sequence ((opcode .encode).zeroExtend 32)
  else if s.cfg.maxLen < s.len.toNat then s.raiseFault (some .encode) .range s.len
  else if s.encodeRun.stop = .none then s.finishEncode s.encodeRun
  else (s.withEncRegs s.encodeRun).raiseFault (some .encode) s.encodeRun.stop (BitVec.ofNat 32 s.encodeRun.symPos)

/-- ENCODE (43_encoder.md R165). -/
def execEncode (s : State) : Host.Outcome State Fault Refusal := gated s (fun s => .next (encodeUnit s))

end Sys2Proof.Machine
end

