-- ==== Sys2Proof/Machine/FrequencyCounter.lean ====
section
/-! DEFINITION. FC, the frequency counter: COUNT (40_frequency_counter.md R120 to R124). -/

namespace Sys2Proof.Machine

/-- `FREQ[s] <- FREQ[s] + 1`, 32-bit unsigned (40_frequency_counter.md R120, R122). -/
def bumpFreq (f : Freq) (c : Byte) : Freq := putFreq f c.toNat (freqAt f c.toNat + 1#32)

/-- The frequency table of a sequence: all entries zeroed, then one increment per symbol in order
(40_frequency_counter.md R120, R124). -/
def countFreq (input : List Byte) : Freq := input.foldl bumpFreq zeroFreq

/-- COUNT behind the gate (40_frequency_counter.md R120): RANGE before any write, else FREQ; SYMPOS has
then gone over the whole input (DEDUCED, log 7). -/
def countUnit (s : State) : State :=
  if s.cfg.maxLen < s.len.toNat then s.raiseFault (some .count) .range s.len
  else { s with freq := countFreq s.inputSeq, symPos := s.len }

/-- COUNT (40_frequency_counter.md R120). -/
def execCount (s : State) : Host.Outcome State Fault Refusal := gated s (fun s => .next (countUnit s))

end Sys2Proof.Machine
end

