-- ==== Sys2Proof/Machine/TreeBuilder.lean ====
section
/-! DEFINITION. TB, the prefix-tree builder: BUILD (41_tree_builder.md R130 to R146). BUILD reads no
arena entry that it has not written itself, so its work stands on the list of the nodes allocated so
far, whose position is the arena index; at the end the list is written over entries 0..NODECNT-1. -/

namespace Sys2Proof.Machine

/-- The working state of BUILD: the nodes allocated so far (NALLOC is their number), ACTIVE, and the
registers A and B (10_state.md R21, R43). -/
structure Forest where
  nodes  : List Node
  active : List Nat
  a      : Nat
  b      : Nat
  deriving DecidableEq, Repr

/-- A filler for the list accessor; every index BUILD uses is below NALLOC, so it is never read. -/
def Node.filler : Node :=
  { kind := .leaf, weight := 0#40, sym := 0, minsym := 0, left := 0, right := 0 }

/-- NODE[i] of a list of allocated nodes. -/
def nodeOf (nodes : List Node) (i : Nat) : Node := nodes.getD i Node.filler

/-- The order on nodes: weight, then minsym, both unsigned (41_tree_builder.md R134). -/
def Node.less (x y : Node) : Bool :=
  decide (x.weight < y.weight) || (x.weight == y.weight && decide (x.minsym < y.minsym))

/-- The least of `x` and the members of a list under the order of 41_tree_builder.md R134. -/
def leastOf (nodes : List Node) : Nat → List Nat → Nat
  | x, [] => x
  | x, y :: ys => leastOf nodes (if (nodeOf nodes y).less (nodeOf nodes x) then y else x) ys

/-- The scan of step 1: "BUILD scans s = 0, 1, ..., 255 in ascending order" (41_tree_builder.md R132); the
symbols from `i` on whose count is not zero. -/
def scanSyms : Nat → List Word → List Nat
  | _, [] => []
  | i, w :: ws => if w = 0#32 then scanSyms (i + 1) ws else i :: scanSyms (i + 1) ws

/-- The symbols with a non-zero count, ascending (41_tree_builder.md R132). -/
def presentSyms (f : Freq) : List Nat := scanSyms 0 f.toList

/-- The leaf of symbol `i` (41_tree_builder.md R130, R132). -/
def leafNode (f : Freq) (i : Nat) : Node :=
  { kind := .leaf, weight := (freqAt f i).zeroExtend 40, sym := Fin.ofNat 257 i, minsym := Fin.ofNat 257 i,
    left := 0, right := 0 }

/-- The synthetic leaf (41_tree_builder.md R133). -/
def syntheticLeaf : Node :=
  { kind := .leaf, weight := 0#40, sym := sentinel, minsym := sentinel, left := 0, right := 0 }

/-- Steps 1 and 2: the leaves in arena order, with the synthetic leaf at index 1 "only when exactly one
leaf exists" (41_tree_builder.md R132, R133). -/
def startNodes (f : Freq) : List Node :=
  let leaves := (presentSyms f).map (leafNode f)
  if leaves.length = 1 then leaves ++ [syntheticLeaf] else leaves

/-- The forest of unmerged leaves: every one is a member of ACTIVE. -/
def startForest (f : Freq) (a b : Nat) : Forest :=
  { nodes := startNodes f, active := List.range (startNodes f).length, a := a, b := b }

/-- The internal node with children `a` and `b` (41_tree_builder.md R135, R136, R140). -/
def internalNode (nodes : List Node) (a b : Nat) : Node :=
  { kind := .internal
    weight := (nodeOf nodes a).weight + (nodeOf nodes b).weight
    sym := 0
    minsym := min (nodeOf nodes a).minsym (nodeOf nodes b).minsym
    left := Fin.ofNat 511 a
    right := Fin.ofNat 511 b }

/-- Step 3, one merge: A, the least member of ACTIVE, and B, the least of what remains, leave ACTIVE;
their parent takes the next free index and joins it (41_tree_builder.md R130, R135). -/
def mergeStep (f : Forest) : Forest :=
  match f.active with
  | [] => f
  | x :: xs =>
    let a := leastOf f.nodes x xs
    match (x :: xs).erase a with
    | [] => f
    | y :: ys =>
      let b := leastOf f.nodes y ys
      { nodes := f.nodes ++ [internalNode f.nodes a b]
        active := (y :: ys).erase b ++ [f.nodes.length]
        a := a
        b := b }

/-- Merges while more than one member of ACTIVE remains (41_tree_builder.md R137); each merge leaves one
member fewer, so `|ACTIVE|` merges are enough. -/
def mergeLoop : Nat → Forest → Forest
  | 0, f => f
  | k + 1, f => if f.active.length ≤ 1 then f else mergeLoop k (mergeStep f)

/-- Steps 1 to 4 of BUILD on a frequency table (41_tree_builder.md R130). -/
def buildForest (f : Freq) (a b : Nat) : Forest :=
  mergeLoop (startNodes f).length (startForest f a b)

/-- BUILD behind the gate (41_tree_builder.md R130, R131, R139): CODEV is cleared in every case; the nodes go over
entries 0..NODECNT-1, and "an entry BUILD does not write keeps its previous content" (10_state.md R41). -/
def buildUnit (s : State) : State :=
  let f := buildForest s.freq s.regA.val s.regB.val
  let n := f.nodes.length
  { s with
    codeV := false
    node := putCells s.node 0 f.nodes
    active := f.active.map (Fin.ofNat 511)
    nalloc := Fin.ofNat 512 n
    regA := Fin.ofNat 511 f.a
    regB := Fin.ofNat 511 f.b
    tree := if n = 0 then .empty else .valid
    root := Fin.ofNat 511 (n - 1)
    nodeCnt := Fin.ofNat 512 n }

/-- BUILD (41_tree_builder.md R130). -/
def execBuild (s : State) : Host.Outcome State Fault Refusal := gated s (fun s => .next (buildUnit s))

end Sys2Proof.Machine
end

