-- ==== Sys2Proof/Machine/Control.lean ====
section
/-! DEFINITION. SEQ, the command sequencer: NOP, COMPRESS, CLEAR, ERRACK (45_compound_and_control.md
R205 to R210), and a word that is no command (60_exceptions.md R229). -/

namespace Sys2Proof.Machine

/-- NOP: "It changes no state whether STATUS.ERR is 0 or 1" (45_compound_and_control.md R205). -/
def execNop (s : State) : Host.Outcome State Fault Refusal := .next s

/-- COMPRESS from the end of its GENTAB on: ENCODE unless a fault is latched (45_compound_and_control.md R206). -/
def encodeAfter (o : Host.Outcome State Fault Refusal) : Host.Outcome State Fault Refusal :=
  match o with
  | .next s => if s.err then .next s else .next (encodeUnit s)
  | .fault r => .fault r
  | .refused r => .refused r

/-- The four units in the order of 45_compound_and_control.md R206, stopping at the first fault (R207). -/
def compressUnit (s : State) : Host.Outcome State Fault Refusal :=
  if (countUnit s).err then .next (countUnit s) else encodeAfter (gentabUnit (buildUnit (countUnit s)))

/-- COMPRESS (45_compound_and_control.md R206). -/
def execCompress (s : State) : Host.Outcome State Fault Refusal := gated s compressUnit

/-- CLEAR's writes (45_compound_and_control.md R210): every register and FREQ at the reset value of
10_state.md R51; NODE, CODE, SYM, OUT, BITS and ACTIVE are not changed. -/
def State.cleared (s : State) : State :=
  { s with
    err := false
    errCode := .none
    tree := .none
    codeV := false
    dstate := .atRoot
    fmt := .char
    len := 0#32
    bitLen := 0#32
    outLen := 0#32
    errInfo := 0#32
    root := 0
    nodeCnt := 0
    freq := zeroFreq }

/-- CLEAR: "It runs whether STATUS.ERR is 0 or 1" (45_compound_and_control.md R210). -/
def execClear (s : State) : Host.Outcome State Fault Refusal := .next s.cleared

/-- ERRACK: "It runs whether STATUS.ERR is 0 or 1" (45_compound_and_control.md R209). -/
def execErrack (s : State) : Host.Outcome State Fault Refusal := .next s.ackFault

/-- A word that is no command: ILLEGAL_CMD with ERRINFO = the word when no fault is latched, ignored
when one is (30_encoding.md R93, 60_exceptions.md R229, R234). -/
def illegalCommand (w : Word) (s : State) : State :=
  if s.err then s else s.raiseFault none .illegalCmd w

end Sys2Proof.Machine
end

