-- ==== Sys2Proof/Machine/Transaction.lean ====
section
/-! DEFINITION. One transaction of the host performed: a read, a write, a command (a write to CMD), a
reset (20_memory.md R62, R63; 10_state.md R25; 70_reset_and_hazards.md R250). -/

namespace Sys2Proof.Machine

/-- "Issue command `w`" (10_state.md R25, 30_encoding.md R91). -/
def issueCommand (w : Word) (s : State) : Host.Outcome State Fault Refusal :=
  match decode w with
  | .command i => exec i s
  | .illegal _ => .next (illegalCommand w s)

/-- A bus write (20_memory.md R63). The response to a CMD write is OK whatever the command does, and the
command is finished before the next transaction (20_memory.md R69). -/
def performWrite (a : Nat) (v : Word) (s : State) : Host.Outcome State Fault Refusal :=
  let l := locate s.cfg a
  let s' := s.respond (writeResponse l)
  if l = .reg .cmd then issueCommand v s' else .next (s'.putLocation l v)

/-- One event of the host's side (20_memory.md R72). A reset starts a new epoch of unspecified memory
contents, keeps the parameters, and leaves no response standing (70_reset_and_hazards.md R250 to R252). -/
def perform (op : HostOp) (s : State) : Host.Outcome State Fault Refusal :=
  match op with
  | .read a => .next (s.respond (s.busRead a))
  | .write a v => performWrite a v s
  | .reset => .next (State.afterReset s.cfg (s.epoch + 1) s.pending)

/-- The byte address of CMD (10_state.md R24, R25). -/
def cmdAddr : Nat := 0x000

/-- The transaction that issues a command word given by the opcode table's numbering (10_state.md R25). -/
def commandWrite (nbits w : Nat) : HostOp := .write cmdAddr (tableWord nbits w)

/-- Takes the oldest transaction off the queue and performs it; with none, the block is idle "and keeps
all state" (60_exceptions.md R241). -/
def nextTransaction (s : State) : Host.Outcome State Fault Refusal :=
  match s.pending with
  | [] => .next s
  | op :: rest => perform op { s with pending := rest }

end Sys2Proof.Machine
end

