-- ==== Sys2Proof/Machine/Step.lean ====
section
/-! DEFINITION. One step of HUFFCORE: the next transaction of the host, a command run to its end being
one of them (00_scope.md R6, R9, R12). -/

namespace Sys2Proof.Machine

/-- One step: the next transaction of the host (20_memory.md R72). -/
def step (s : State) : Host.Outcome State Fault Refusal := nextTransaction s

/-- `s` with the CMD write of the given command word as the host's next transaction. HUFFCORE has no
program counter and no fetch: "The order of commands is the order in which the host writes the CMD
register" (10_state.md R22; DESIGN CHOICE, log 1). -/
def State.withFetchWord (s : State) (nbits w : Nat) : State :=
  { s with pending := commandWrite nbits w :: s.pending }

end Sys2Proof.Machine
end

