-- ==== Sys2Proof/Safety.lean ====
section
/-! DEFINITION. What a good state is: the tree invariants of 10_state.md R49, the latch of R27, the
currency of the code table of R29, the bounds of the registers, the canonical form of the memories; and
the notions the statements use for paths and codes. -/

namespace Sys2Proof.Machine

/-- `i` is an Internal node that has `c` as a child. -/
def IsChildOf (node : NodeIdx → Node) (c i : NodeIdx) : Prop :=
  (node i).kind = .internal ∧ ((node i).left = c ∨ (node i).right = c)

/-- The fields of record `i` are those of a Leaf or of an Internal node (10_state.md R42): an Internal node
has two different children (R49 (b)) of smaller index (R49 (e)), its weight is their exact sum (R49 (d)) and
its minsym the smaller of theirs (41_tree_builder.md R136). -/
def NodeOk (node : NodeIdx → Node) (i : NodeIdx) : Prop :=
  match (node i).kind with
  | .leaf => (node i).minsym = (node i).sym ∧ (node i).left = 0 ∧ (node i).right = 0
  | .internal =>
    (node i).sym = 0 ∧ (node i).left < i ∧ (node i).right < i ∧ (node i).left ≠ (node i).right ∧
      (node i).weight.toNat = (node (node i).left).weight.toNat + (node (node i).right).weight.toNat ∧
      (node i).minsym = min (node (node i).left).minsym (node (node i).right).minsym

/-- The tree invariants of a VALID arena (10_state.md R49, with R36, R37 for ROOT and NODECNT). That ROOT is
the child of none follows from `nodes` and `rootLast`. -/
structure TreeOk (node : NodeIdx → Node) (cnt : Nat) (root : NodeIdx) : Prop where
  /-- "it is odd and in 3..511" (10_state.md R37). -/
  size : 3 ≤ cnt ∧ cnt ≤ 511 ∧ cnt % 2 = 1
  /-- "ROOT = NODECNT - 1" (10_state.md R36). -/
  rootLast : root.val + 1 = cnt
  /-- "NODE[ROOT] is Internal" (R49 (c)). -/
  rootInternal : (node root).kind = .internal
  /-- R49 (b), (d), (e). -/
  nodes : ∀ i : NodeIdx, i.val < cnt → NodeOk node i
  /-- "Every Leaf's Symbol is unique within a tree" (R49 (a)). -/
  leafUnique : ∀ i j : NodeIdx, i.val < cnt → j.val < cnt → (node i).kind = .leaf → (node j).kind = .leaf →
    (node i).sym = (node j).sym → i = j
  /-- Every index other than ROOT is the child of some Internal node (R49 (e)) ... -/
  hasParent : ∀ c : NodeIdx, c.val < root.val → ∃ i : NodeIdx, i.val < cnt ∧ IsChildOf node c i
  /-- ... and of no second one. -/
  oneParent : ∀ c i j : NodeIdx, i.val < cnt → j.val < cnt → IsChildOf node c i → IsChildOf node c j → i = j

/-- What TREE, ROOT and NODECNT say (10_state.md R28, R36, R37, R49), with every record of the tree written. -/
def TreeStateOk (s : State) : Prop :=
  match s.tree with
  | .none | .empty => s.root = 0 ∧ s.nodeCnt = 0
  | .valid => TreeOk s.nodeAt s.nodeCnt.val s.root ∧ ∀ i, i < s.nodeCnt.val → (cellAt s.node i).isSome

/-- The fault latch (10_state.md R27): "ERR = 0 implies ERRCODE = 0 and ERRINFO = 0; ERR = 1 implies ERRCODE
is in 1..8". -/
def LatchOk (s : State) : Prop :=
  (s.err = false → s.errCode = .none ∧ s.errInfo = 0#32) ∧ (s.err = true → s.errCode ≠ .none)

/-- The code table (10_state.md R29): "CODEV = 1 therefore means: CODE was generated from the tree now
described by TREE, ROOT, NODECNT and NODE". -/
def TableOk (s : State) : Prop :=
  s.codeV = true → s.tree ≠ .none ∧ ∃ p, s.tableOfTree = some (s.code, p)

/-- Every memory is in canonical form and lists only indices it has (10_state.md R41, R44 to R47). -/
def MemoriesOk (s : State) : Prop :=
  (storeWf s.node = true ∧ keysBelow s.node 511 = true) ∧
  (storeWf s.code = true ∧ keysBelow s.code 257 = true) ∧
  (Memory.wf s.sym = true ∧ keysBelow s.sym s.cfg.maxLen = true) ∧
  (Memory.wf s.out = true ∧ keysBelow s.out s.cfg.maxLen = true) ∧
  (Memory.wf s.bits = true ∧ keysBelow s.bits s.cfg.maxBits = true)

/-- The invariant of HUFFCORE. -/
structure Inv (s : State) : Prop where
  /-- The parameters meet 00_scope.md R7. -/
  cfgOk : s.cfg.wf = true
  latchOk : LatchOk s
  treeOk : TreeStateOk s
  tableOk : TableOk s
  /-- "0 <= OUTLEN <= MAX_LEN always" (10_state.md R34). -/
  outLenOk : s.outLen.toNat ≤ s.cfg.maxLen
  memoriesOk : MemoriesOk s

/-- Where a path leads from node `n`: left on `false`, right on `true`, through Internal nodes only; `none` if
it would leave a Leaf (42_code_table_generator.md R151). -/
def descend (node : NodeIdx → Node) : NodeIdx → List Bool → Option NodeIdx
  | n, [] => some n
  | n, b :: p =>
    match (node n).kind with
    | .internal => descend node (if b then (node n).right else (node n).left) p
    | .leaf => none

/-- The code of symbol value `k`, if it has one (10_state.md R44). -/
def State.codeOf (s : State) (k : Nat) : Option (List Bool) :=
  if (s.codeAt k).valid then some (s.codeAt k).code else none

/-- The sum of all FREQ entries (41_tree_builder.md R140). -/
def freqSum (f : Freq) : Nat := ((List.range 256).map (fun i => (freqAt f i).toNat)).sum

/-- The number L of symbols with a non-zero count (41_tree_builder.md R141). -/
def presentCount (f : Freq) : Nat := (presentSyms f).length

/-- The concatenation of the codes of a sequence, in order (43_encoder.md R166). -/
def concatCodes (look : Byte → CodeEntry) (input : List Byte) : List Bool :=
  input.flatMap (fun c => (look c).code)

/-- A bit as the class of a stream element: 0 is ZERO, 1 is ONE (30_encoding.md R101). -/
def elemsOfBits (bs : List Bool) : List Elem := bs.map bitElem

/-- One command after another, as a host issues them: the second runs on the state the first leaves. -/
def andThen (o : Host.Outcome State Fault Refusal) (f : State → Host.Outcome State Fault Refusal) :
    Host.Outcome State Fault Refusal :=
  match o with
  | .next s => f s
  | .fault r => .fault r
  | .refused r => .refused r

/-- `x` comes before `y` in the order on nodes: the smaller weight, or equal weights and the smaller minsym
(41_tree_builder.md R134). -/
def Precedes (x y : Node) : Prop := x.weight < y.weight ∨ (x.weight = y.weight ∧ x.minsym < y.minsym)

/-- The members of the working collection when the node of index `n` is about to be created: the nodes of smaller
index that no Internal node of smaller index has taken as a child (41_tree_builder.md R135). -/
def Unmerged (node : NodeIdx → Node) (n : Nat) (j : NodeIdx) : Prop :=
  j.val < n ∧ ∀ i : NodeIdx, i.val < n → ¬ IsChildOf node j i

/-- The number of symbols with a non-zero count, L of 41_tree_builder.md R141. -/
def symbolCount (f : Freq) : Nat := ((List.range 256).filter (fun i => freqAt f i != 0#32)).length

/-- The byte of BITS that holds stream element `i` (30_encoding.md R102, R103). -/
def elemByte (fmt : Format) (i : Nat) : Nat :=
  match fmt with
  | .char => i
  | .packed => i / 8

/-- The bits of a path that leads from the root of the machine's tree to the leaf of symbol value `k`
(42_code_table_generator.md R151). -/
def State.IsCode (s : State) (p : List Bool) (k : Nat) : Prop :=
  ∃ l, descend s.nodeAt s.root p = some l ∧ (s.nodeAt l).kind = .leaf ∧ (s.nodeAt l).sym.val = k

/-- The bits `bs` are the codes of the symbols `cs`, one after the other, by the machine's tree
(30_encoding.md R100, 43_encoder.md R166). -/
inductive State.SpellsOut (s : State) : List Bool → List Byte → Prop where
  | nil : s.SpellsOut [] []
  | cons {p bs : List Bool} {c : Byte} {cs : List Byte} (code : s.IsCode p c.toNat) (rest : s.SpellsOut bs cs) :
      s.SpellsOut (p ++ bs) (c :: cs)

end Sys2Proof.Machine
end

