-- ==== Sys2Proof/Certificates/Slice0/Obligations.lean ====
section
/-! DEFINITION. The statements for the provers. A statement about what a command does is an equation for the next
state: every field it does not name is unchanged. A working register (10_state.md R21) that the spec leaves without an
observable value is named by "there is" only. -/

section Statements

open Sys2Proof Sys2Proof.Machine

/-! ### Command words and steps -/

/-- 30_encoding.md R92: the ten command words, written out. -/
def Obligations.TenCommandWordsDecode : Prop :=
  decode 0x00000000#32 = .command .nop ∧ decode 0x00000001#32 = .command .count ∧
  decode 0x00000002#32 = .command .build ∧ decode 0x00000003#32 = .command .gentab ∧
  decode 0x00000004#32 = .command .encode ∧ decode 0x00000005#32 = .command .decode ∧
  decode 0x00000006#32 = .command .compress ∧ decode 0x00000007#32 = .command .decompress ∧
  decode 0x00000008#32 = .command .clear ∧ decode 0x00000009#32 = .command .errack

/-- 30_encoding.md R92: a word is the command `i` exactly when it is the opcode of `i` zero-extended (mask
0xFFFFFFFF), and the host's table numbering reads it back. -/
def Obligations.DecodeInvertsEncode : Prop :=
  ∀ (w : Word) (i : Instr),
    (decode w = .command i ↔ w = encode i) ∧ (encode i).toNat = (opcode i).toNat ∧
      (decodeTableWord 32 w.toNat = some i ↔ w = encode i)

/-- 30_encoding.md R91, R93: which words are illegal, and why. -/
def Obligations.DecodeRejectsEveryOtherWord : Prop :=
  ∀ w : Word,
    ((∃ i, decode w = .command i) ↔ commandWordLegal w = true) ∧
    (decode w = .illegal .zeroFieldSet ↔ w.extractLsb' 8 24 ≠ 0#24) ∧
    (decode w = .illegal .opcodeUndefined ↔ w.extractLsb' 8 24 = 0#24 ∧ 9 < (w.extractLsb' 0 8).toNat)

/-- A step on a CMD write of a command word runs that command (10_state.md R25, 30_encoding.md R91), on the state in
which the write is off the host's queue and answered OK. The queue and the response are the model's own (log 1, log
2). -/
def Obligations.StepRunsTheDecodedCommand : Prop :=
  ∀ (s : State) (w : Word) (i : Instr), decode w = .command i → i.wf = true →
    (∀ rest, s.pending = .write 0 w :: rest →
      step s = exec i { s with pending := rest, response := some .writeOk }) ∧
    step (s.withFetchWord 32 w.toNat) = exec i { s with response := some .writeOk }

/-- With no transaction waiting the block is idle and keeps all state (60_exceptions.md R241); with one, a step
performs the oldest and only that one (20_memory.md R72). Of a reset it says what 70_reset_and_hazards.md R250 gives the
registers and FREQ; what the memories then read as is ResetEventRestoresTheResetValues'. The queue, the response, the
reset as one of the queue's events and the epoch are the model's own (log 1, log 2, log 3, log 4). -/
def Obligations.StepPerformsTheOldestTransaction : Prop :=
  ∀ s : State,
    (s.pending = [] → step s = .next s) ∧
    (∀ a rest, s.pending = .read a :: rest →
      step s = .next { s with pending := rest, response := some (s.busRead a) }) ∧
    (∀ a v rest, s.pending = .write a v :: rest → step s = performWrite a v { s with pending := rest }) ∧
    (∀ rest, s.pending = .reset :: rest →
      ∃ t, step s = .next t ∧ t.cfg = s.cfg ∧ t.pending = rest ∧ t.epoch = s.epoch + 1 ∧ t.response = none ∧
        t.statusWord = 0#32 ∧ t.ctrlWord = 0#32 ∧ t.len = 0#32 ∧ t.bitLen = 0#32 ∧ t.outLen = 0#32 ∧
        t.errInfo = 0#32 ∧ t.root.val = 0 ∧ t.nodeCnt.val = 0 ∧ ∀ i, i < 256 → freqAt t.freq i = 0#32)

/-- 30_encoding.md R93: a word that is none of the ten commands latches ILLEGAL_CMD with ERRINFO = the word, and is
ignored under a latched fault. The queue and the response field are the model's own (log 1, log 2). -/
def Obligations.IllegalWordLatchesOrIsIgnored : Prop :=
  ∀ (s : State) (w : Word) (rest : List HostOp), s.pending = .write 0 w :: rest → (∀ i, w ≠ encode i) →
    (s.err = false →
      step s = .next { s with pending := rest, response := some .writeOk,
                              err := true, errCode := .illegalCmd, errInfo := w }) ∧
    (s.err = true → step s = .next { s with pending := rest, response := some .writeOk })

/-- 60_exceptions.md R234: under a latched fault every word but CLEAR and ERRACK has no effect, and the host's reads
and writes of everything but CMD work as ever. The queue and the response field are the model's own (log 1, log 2). -/
def Obligations.GateIgnoresCommandsUnderAFault : Prop :=
  ∀ s : State, s.err = true →
    (∀ i, i ≠ .clear → i ≠ .errack → exec i s = .next s) ∧
    (∀ w rest, s.pending = .write 0 w :: rest → w ≠ 0x00000008#32 → w ≠ 0x00000009#32 →
      step s = .next { s with pending := rest, response := some .writeOk }) ∧
    (∀ a rest, s.pending = .read a :: rest →
      step s = .next { s with pending := rest, response := some (s.busRead a) }) ∧
    (∀ a v, a ≠ 0 → performWrite a v s =
      .next ((s.respond (writeResponse (locate s.cfg a))).putLocation (locate s.cfg a) v))

/-! ### The host's bus -/

/-- 20_memory.md R62, R63, R65, R66: a misaligned address and an address in no window answer ERROR and change nothing;
every other address answers OK. The response field is the model's own (log 2). -/
def Obligations.BusErrorExactlyWhenMisalignedOrUnmapped : Prop :=
  ∀ (s : State) (a : Nat) (v : Word),
    ((a % 4 ≠ 0 ∨ ∀ w ∈ s.cfg.windows, ¬ (w.1 ≤ a ∧ a < w.1 + w.2)) →
      s.busRead a = .readError 0#32 ∧ performWrite a v s = .next { s with response := some .writeError }) ∧
    (a % 4 = 0 → ∀ w ∈ s.cfg.windows, w.1 ≤ a → a < w.1 + w.2 →
      (∃ d, s.busRead a = .readOk d) ∧
      (a ≠ 0 → ∃ t, performWrite a v s = .next t ∧ t.response = some .writeOk))

/-- 10_state.md R24 to R39: what the eleven registers read as, and the fields of STATUS with the number of each of
their values (R26, 60_exceptions.md R221). -/
def Obligations.RegistersReadAsTheirFields : Prop :=
  ∀ s : State,
    s.busRead 0x000 = .readOk 0#32 ∧ s.busRead 0x004 = .readOk s.statusWord ∧
    s.busRead 0x008 = .readOk (if s.fmt = .packed then 1#32 else 0#32) ∧ s.busRead 0x00C = .readOk s.len ∧
    s.busRead 0x010 = .readOk s.bitLen ∧ s.busRead 0x014 = .readOk s.outLen ∧
    s.busRead 0x018 = .readOk s.errInfo ∧ s.busRead 0x01C = .readOk (BitVec.ofNat 32 s.root.val) ∧
    s.busRead 0x020 = .readOk (BitVec.ofNat 32 s.nodeCnt.val) ∧
    s.busRead 0x024 = .readOk (BitVec.ofNat 32 s.cfg.maxLen) ∧
    s.busRead 0x028 = .readOk (BitVec.ofNat 32 s.cfg.maxBits) ∧
    s.statusWord.getLsbD 0 = s.err ∧
    (∀ f ∈ [(ErrCode.none, 0#4), (.invalidBit, 1#4), (.lookup, 2#4), (.mismatch, 3#4), (.invariant, 4#4),
        (.sequence, 5#4), (.overflow, 6#4), (.illegalCmd, 7#4), (.range, 8#4)],
      s.errCode = f.1 → s.statusWord.extractLsb' 1 4 = f.2) ∧
    (∀ f ∈ [(TreeState.none, 0#2), (.empty, 1#2), (.valid, 2#2)],
      s.tree = f.1 → s.statusWord.extractLsb' 5 2 = f.2) ∧
    s.statusWord.getLsbD 7 = s.codeV ∧
    s.statusWord.getLsbD 8 = decide (s.dstate = .descending) ∧ s.statusWord.extractLsb' 9 23 = 0#23

/-- 20_memory.md R63: what a host write to a register does; a read-only register ignores it and answers OK. The
response field is the model's own (log 2). -/
def Obligations.HostWritesOfRegisters : Prop :=
  ∀ (s : State) (v : Word),
    performWrite 0x008 v s =
      .next { s with response := some .writeOk, fmt := if v.getLsbD 0 then .packed else .char } ∧
    performWrite 0x00C v s = .next { s with response := some .writeOk, len := v } ∧
    performWrite 0x010 v s = .next { s with response := some .writeOk, bitLen := v } ∧
    (∀ a ∈ [0x004, 0x014, 0x018, 0x01C, 0x020, 0x024, 0x028],
      performWrite a v s = .next { s with response := some .writeOk })

/-- 20_memory.md R63: the NODE, CODE and OUT windows ignore a write and answer OK. The response field is the model's
own (log 2). -/
def Obligations.ReadOnlyWindowsIgnoreWrites : Prop :=
  ∀ (s : State) (a : Nat) (v : Word), s.cfg.wf = true → a % 4 = 0 →
    (0x2000 ≤ a ∧ a < 0x3FF0) ∨ (0x4000 ≤ a ∧ a < 0x8040) ∨
      (s.cfg.outBase ≤ a ∧ a < s.cfg.outBase + roundUp4 s.cfg.maxLen) →
    performWrite a v s = .next { s with response := some .writeOk }

/-- 10_state.md R40, 20_memory.md R66: FREQ[i] is the word at 0x400 + 4*i, read and written whole; a write changes no
other entry and nothing else. The response field is the model's own (log 2). -/
def Obligations.FreqWindowReadsWhatWasWritten : Prop :=
  ∀ (s : State) (i : Nat) (v : Word), i < 256 →
    s.busRead (0x400 + 4 * i) = .readOk (freqAt s.freq i) ∧
    ∃ f, performWrite (0x400 + 4 * i) v s = .next { s with response := some .writeOk, freq := f } ∧
      ∀ j, j < 256 → freqAt f j = if j = i then v else freqAt s.freq j

/-- 20_memory.md R64, R67: byte k of SYM, OUT and BITS is bits [8*(k mod 4)+7 : 8*(k mod 4)] of the word at base +
4*(k div 4); a byte of the last word beyond MAX_LEN-1 reads as 0. -/
def Obligations.ByteMemoriesReadLittleEndian : Prop :=
  ∀ (s : State) (k : Nat), s.cfg.wf = true →
    (k < roundUp4 s.cfg.maxLen →
      ∃ v, s.busRead (s.cfg.symBase + 4 * (k / 4)) = .readOk v ∧
        v.extractLsb' (8 * (k % 4)) 8 = if k < s.cfg.maxLen then s.symByte k else 0#8) ∧
    (k < roundUp4 s.cfg.maxLen →
      ∃ v, s.busRead (s.cfg.outBase + 4 * (k / 4)) = .readOk v ∧
        v.extractLsb' (8 * (k % 4)) 8 = if k < s.cfg.maxLen then s.outByte k else 0#8) ∧
    (k < s.cfg.maxBits →
      ∃ v, s.busRead (s.cfg.bitsBase + 4 * (k / 4)) = .readOk v ∧ v.extractLsb' (8 * (k % 4)) 8 = s.bitsByte k)

/-- 20_memory.md R61, R64, R67: a write to SYM or BITS replaces the four bytes of the addressed word, of those that
exist, and no other byte. The response field is the model's own (log 2). -/
def Obligations.ByteMemoriesWriteLittleEndian : Prop :=
  ∀ (s : State) (w : Nat) (v : Word), s.cfg.wf = true →
    (4 * w < s.cfg.maxLen →
      ∃ m, performWrite (s.cfg.symBase + 4 * w) v s = .next { s with response := some .writeOk, sym := m } ∧
        ∀ k, byteAt (s.free .sym) m k =
          if k / 4 = w ∧ k < s.cfg.maxLen then v.extractLsb' (8 * (k % 4)) 8 else s.symByte k) ∧
    (4 * w < s.cfg.maxBits →
      ∃ m, performWrite (s.cfg.bitsBase + 4 * w) v s = .next { s with response := some .writeOk, bits := m } ∧
        ∀ k, byteAt (s.free .bits) m k = if k / 4 = w then v.extractLsb' (8 * (k % 4)) 8 else s.bitsByte k)

/-- 30_encoding.md R96: the four words of an arena record that BUILD has written. An entry that has been written is
one the model lists (log 4). -/
def Obligations.NodeWindowLayout : Prop :=
  ∀ (s : State) (i : Nat) (n : Node), i < 511 → cellAt s.node i = some n →
    ∃ w0 w1 w2 w3 : Word,
      s.busRead (0x2000 + 16 * i) = .readOk w0 ∧ s.busRead (0x2000 + 16 * i + 4) = .readOk w1 ∧
      s.busRead (0x2000 + 16 * i + 8) = .readOk w2 ∧ s.busRead (0x2000 + 16 * i + 12) = .readOk w3 ∧
      w0 = n.weight.extractLsb' 0 32 ∧
      w1.extractLsb' 0 8 = n.weight.extractLsb' 32 8 ∧ w1.extractLsb' 8 24 = 0#24 ∧
      (w2.extractLsb' 0 9).toNat = n.sym.val ∧ w2.extractLsb' 9 7 = 0#7 ∧
      (w2.extractLsb' 16 9).toNat = n.minsym.val ∧ w2.extractLsb' 25 6 = 0#6 ∧
      w2.getLsbD 31 = decide (n.kind = .internal) ∧
      (w3.extractLsb' 0 9).toNat = n.left.val ∧ w3.extractLsb' 9 7 = 0#7 ∧
      (w3.extractLsb' 16 9).toNat = n.right.val ∧ w3.extractLsb' 25 7 = 0#7

/-- 30_encoding.md R98: the sixteen words of a code-table entry that GENTAB has written. An entry that has been
written is one the model lists (log 4). -/
def Obligations.CodeWindowLayout : Prop :=
  ∀ (s : State) (k : Nat) (e : CodeEntry), k < 257 → cellAt s.code k = some e →
    (∃ w : Word, s.busRead (0x4000 + 64 * k) = .readOk w ∧ w.extractLsb' 0 8 = e.len ∧
      w.extractLsb' 8 23 = 0#23 ∧ w.getLsbD 31 = e.valid) ∧
    (∀ j, j < 256 → ∃ w : Word, s.busRead (0x4000 + 64 * k + 4 * (1 + j / 32)) = .readOk w ∧
      w.getLsbD (j % 32) = (decide (j < 255) && e.bits.getLsbD j)) ∧
    (∀ j, 9 ≤ j → j < 16 → s.busRead (0x4000 + 64 * k + 4 * j) = .readOk 0#32)

/-! ### Reset -/

/-- 10_state.md R51: the values the spec gives the registers and FREQ after the first reset. -/
def Obligations.ResetValues : Prop :=
  let s := State.reset
  s.busRead 0x000 = .readOk 0#32 ∧ s.statusWord = 0#32 ∧ s.ctrlWord = 0#32 ∧ s.len = 0#32 ∧ s.bitLen = 0#32 ∧
    s.outLen = 0#32 ∧ s.errInfo = 0#32 ∧ s.root.val = 0 ∧ s.nodeCnt.val = 0 ∧
    s.busRead 0x024 = .readOk 65536#32 ∧ s.busRead 0x028 = .readOk 524288#32 ∧
    ∀ i, i < 256 → freqAt s.freq i = 0#32

/-- 70_reset_and_hazards.md R250, R252: a later reset leaves the same registers, keeps the parameters and the host's
transactions to come, and promises nothing of the memories: each byte, record and entry reads as a free value of the
new epoch (log 3, log 4: the epochs are the model's own). -/
def Obligations.ResetEventRestoresTheResetValues : Prop :=
  ∀ (s : State) (rest : List HostOp), s.pending = .reset :: rest →
    ∃ t, step s = .next t ∧ t.cfg = s.cfg ∧ t.pending = rest ∧ t.epoch = s.epoch + 1 ∧
      t.statusWord = 0#32 ∧ t.ctrlWord = 0#32 ∧ t.len = 0#32 ∧ t.bitLen = 0#32 ∧ t.outLen = 0#32 ∧
      t.errInfo = 0#32 ∧ t.root.val = 0 ∧ t.nodeCnt.val = 0 ∧ (∀ i, i < 256 → freqAt t.freq i = 0#32) ∧
      (∀ k, t.symByte k = Config.unwrittenByte t.epoch .sym k ∧ t.outByte k = Config.unwrittenByte t.epoch .out k ∧
        t.bitsByte k = Config.unwrittenByte t.epoch .bits k) ∧
      (∀ i j, t.nodeWordAt i j = Config.unwrittenNodeWord t.epoch i j ∧
        t.codeWordAt i j = Config.unwrittenCodeWord t.epoch i j)

/-! ### NOP, ERRACK, CLEAR -/

/-- 45_compound_and_control.md R205: NOP is the all-zero word and changes no state, under a latched fault or not. -/
def Obligations.NopChangesNothing : Prop :=
  decode 0x00000000#32 = .command .nop ∧ ∀ s : State, exec .nop s = .next s

/-- 45_compound_and_control.md R209: ERRACK, word 0x00000009, clears the latch and nothing else; with ERR = 0 in a
state that keeps 10_state.md R27 it changes nothing. -/
def Obligations.ErrackClearsTheLatchOnly : Prop :=
  decode 0x00000009#32 = .command .errack ∧ ∀ s : State,
    exec .errack s = .next { s with err := false, errCode := .none, errInfo := 0#32 } ∧
    (LatchOk s → s.err = false → exec .errack s = .next s)

/-- 45_compound_and_control.md R210: CLEAR, word 0x00000008, gives every register and FREQ its reset value, under a
latched fault or not, and leaves NODE, CODE, SYM, OUT, BITS and ACTIVE as they were. -/
def Obligations.ClearIsASoftReset : Prop :=
  decode 0x00000008#32 = .command .clear ∧ ∀ s : State, ∃ f, exec .clear s =
      .next { s with err := false, errCode := .none, tree := .none, codeV := false, dstate := .atRoot, fmt := .char,
                     len := 0#32, bitLen := 0#32, outLen := 0#32, errInfo := 0#32, root := 0, nodeCnt := 0,
                     freq := f } ∧
    ∀ i, i < 256 → freqAt f i = 0#32

/-! ### Faults raised before anything is written -/

/-- 60_exceptions.md R226: SEQUENCE, with ERRINFO = the opcode, when the input of a command does not exist yet;
nothing else changes. -/
def Obligations.SequenceFaultChangesOnlyTheLatch : Prop :=
  ∀ s : State, s.err = false →
    (s.tree = .none → ∀ i ∈ [Instr.gentab, .decode, .decompress],
      exec i s = .next { s with err := true, errCode := .sequence, errInfo := (opcode i).zeroExtend 32 }) ∧
    (s.codeV = false →
      exec .encode s = .next { s with err := true, errCode := .sequence, errInfo := 0x00000004#32 })

/-- 60_exceptions.md R228, R235: RANGE, with ERRINFO = the offending length, after the SEQUENCE check; nothing else
changes. -/
def Obligations.RangeFaultChangesOnlyTheLatch : Prop :=
  ∀ s : State, s.err = false →
    (s.cfg.maxLen < s.len.toNat → ∀ i ∈ [Instr.count, .encode, .compress], (i = .encode → s.codeV = true) →
      exec i s = .next { s with err := true, errCode := .range, errInfo := s.len }) ∧
    (s.cfg.maxBits < s.bitLen.toNat → s.tree ≠ .none → ∀ i ∈ [Instr.decode, .decompress],
      exec i s = .next { s with err := true, errCode := .range, errInfo := s.bitLen })

/-! ### COUNT -/

/-- 40_frequency_counter.md R121: after COUNT, FREQ[c] is the number of times c stands in SYM[0..LEN-1], the entries
sum to LEN, and an entry is not zero exactly for a symbol of the input. Only FREQ and SYMPOS change. -/
def Obligations.CountCountsTheInput : Prop :=
  ∀ s : State, s.err = false → s.len.toNat ≤ s.cfg.maxLen →
    ∃ f sp, exec .count s = .next { s with freq := f, symPos := sp } ∧
      (∀ c : Byte, (freqAt f c.toNat).toNat =
        ((List.range s.len.toNat).filter (fun i => s.symByte i == c)).length) ∧
      freqSum f = s.len.toNat ∧
      (∀ c : Byte, freqAt f c.toNat ≠ 0#32 ↔ ∃ i, i < s.len.toNat ∧ s.symByte i = c)

/-! ### BUILD -/

/-- 41_tree_builder.md R146, 10_state.md R41: BUILD ends with no fault in every state that has none; it changes only
TREE, CODEV, ROOT, NODECNT, ACTIVE, the arena and its working registers, and of the arena only the entries below the
new NODECNT. -/
def Obligations.BuildFrame : Prop :=
  ∀ s : State, s.err = false →
    ∃ tree root cnt node active nalloc a b,
      exec .build s = .next { s with codeV := false, tree := tree, root := root, nodeCnt := cnt, node := node,
                                     active := active, nalloc := nalloc, regA := a, regB := b } ∧
      tree ≠ .none ∧
      ∀ i, cnt.val ≤ i → cellAt node i = cellAt s.node i

/-- 41_tree_builder.md R131: the all-zero frequency table. -/
def Obligations.BuildOfNoSymbolIsTheEmptyTree : Prop :=
  ∀ s : State, s.err = false → (∀ i, i < 256 → freqAt s.freq i = 0#32) →
    ∃ nalloc a b, exec .build s =
      .next { s with codeV := false, tree := .empty, root := 0, nodeCnt := 0, active := [], nalloc := nalloc,
                     regA := a, regB := b }

/-- 41_tree_builder.md R141: with L symbols present and L' = L, but 2 for L = 1, the leaves are 0..L'-1, the internal
nodes L'..2L'-2, NODECNT = 2L' - 1 and ROOT = 2L' - 2. -/
def Obligations.BuildNodeCounts : Prop :=
  ∀ s : State, s.err = false → 1 ≤ symbolCount s.freq →
    ∃ t, exec .build s = .next t ∧ t.tree = .valid ∧
      let l := if symbolCount s.freq = 1 then 2 else symbolCount s.freq
      l ≤ 256 ∧ t.nodeCnt.val = 2 * l - 1 ∧ t.root.val = 2 * l - 2 ∧
      (∀ i : NodeIdx, i.val < l → (t.nodeAt i).kind = .leaf) ∧
      (∀ i : NodeIdx, l ≤ i.val → i.val < 2 * l - 1 → (t.nodeAt i).kind = .internal)

/-- 41_tree_builder.md R132: the k-th symbol with a non-zero count, in ascending order, is the leaf NODE[k]. -/
def Obligations.BuildLeavesInAscendingOrder : Prop :=
  ∀ s : State, s.err = false →
    ∃ t, exec .build s = .next t ∧
      ∀ k c, ((List.range 256).filter (fun i => freqAt s.freq i != 0#32))[k]? = some c → ∀ i : NodeIdx, i.val = k →
        (t.nodeAt i).kind = .leaf ∧ (t.nodeAt i).weight = (freqAt s.freq c).zeroExtend 40 ∧
        (t.nodeAt i).sym.val = c ∧ (t.nodeAt i).minsym.val = c ∧ (t.nodeAt i).left = 0 ∧ (t.nodeAt i).right = 0

/-- 41_tree_builder.md R133: exactly one symbol present. NODE[1] is the synthetic leaf and the left child, the real
leaf NODE[0] the right child, and the root is NODE[2]. -/
def Obligations.BuildOfOneSymbolAddsTheSyntheticLeaf : Prop :=
  ∀ (s : State) (c : Byte), s.err = false → (∀ i, i < 256 → (freqAt s.freq i ≠ 0#32 ↔ i = c.toNat)) →
    ∃ t, exec .build s = .next t ∧ t.tree = .valid ∧ t.nodeCnt.val = 3 ∧ t.root.val = 2 ∧
      (t.nodeAt 0).kind = .leaf ∧ (t.nodeAt 0).sym.val = c.toNat ∧
      t.nodeAt 1 = { kind := .leaf, weight := 0#40, sym := sentinel, minsym := sentinel, left := 0, right := 0 } ∧
      (t.nodeAt 2).kind = .internal ∧ (t.nodeAt 2).left = 1 ∧ (t.nodeAt 2).right = 0 ∧
      t.IsCode [true] c.toNat ∧ t.IsCode [false] 256

/-- 41_tree_builder.md R134, R135: every internal node BUILD makes has as its left child the first, and as its right
child the second, of the members of the working collection in the order on nodes. -/
def Obligations.BuildMergesTheTwoLeast : Prop :=
  ∀ s : State, s.err = false →
    ∃ t, exec .build s = .next t ∧
      ∀ i : NodeIdx, i.val < t.nodeCnt.val → (t.nodeAt i).kind = .internal →
        Unmerged t.nodeAt i.val (t.nodeAt i).left ∧ Unmerged t.nodeAt i.val (t.nodeAt i).right ∧
        (t.nodeAt i).left ≠ (t.nodeAt i).right ∧
        (∀ j, Unmerged t.nodeAt i.val j → j ≠ (t.nodeAt i).left →
          Precedes (t.nodeAt (t.nodeAt i).left) (t.nodeAt j)) ∧
        (∀ j, Unmerged t.nodeAt i.val j → j ≠ (t.nodeAt i).left → j ≠ (t.nodeAt i).right →
          Precedes (t.nodeAt (t.nodeAt i).right) (t.nodeAt j))

/-- 10_state.md R49: the tree invariants of the arena that BUILD leaves; its leaves are the symbols present, with the
synthetic leaf for one symbol only. -/
def Obligations.BuildMakesATree : Prop :=
  ∀ s : State, s.err = false → 1 ≤ symbolCount s.freq →
    ∃ t, exec .build s = .next t ∧ t.tree = .valid ∧ TreeOk t.nodeAt t.nodeCnt.val t.root ∧
      (∀ c : Byte, (∃ i : NodeIdx, i.val < t.nodeCnt.val ∧ (t.nodeAt i).kind = .leaf ∧
        (t.nodeAt i).sym.val = c.toNat) ↔ freqAt s.freq c.toNat ≠ 0#32) ∧
      ((∃ i : NodeIdx, i.val < t.nodeCnt.val ∧ (t.nodeAt i).kind = .leaf ∧ (t.nodeAt i).sym = sentinel) ↔
        symbolCount s.freq = 1) ∧
      t.active = [t.root]

/-- 41_tree_builder.md R140: the root's weight is the sum of all counts, and nothing wraps at 40 bits. -/
def Obligations.BuildRootWeightIsTheSumOfCounts : Prop :=
  ∀ s : State, s.err = false → 1 ≤ symbolCount s.freq →
    ∃ t, exec .build s = .next t ∧ (t.nodeAt t.root).weight.toNat = freqSum s.freq ∧ freqSum s.freq < 2 ^ 40

/-- 41_tree_builder.md R142: BUILD is a function of FREQ alone. -/
def Obligations.BuildDependsOnFreqAlone : Prop :=
  ∀ s₁ s₂ : State, s₁.err = false → s₂.err = false → (∀ i, i < 256 → freqAt s₁.freq i = freqAt s₂.freq i) →
    ∃ t₁ t₂, exec .build s₁ = .next t₁ ∧ exec .build s₂ = .next t₂ ∧ t₁.tree = t₂.tree ∧ t₁.root = t₂.root ∧
      t₁.nodeCnt = t₂.nodeCnt ∧ ∀ i : NodeIdx, i.val < t₁.nodeCnt.val → t₁.nodeAt i = t₂.nodeAt i

/-! ### GENTAB -/

/-- 42_code_table_generator.md R150, R151: on a tree, the code of every leaf's symbol is the path from the root to
that leaf, stored with every bit beyond it zero; every other symbol has none. Only CODE, CODEV and the working
registers change. -/
def Obligations.GentabRecordsThePaths : Prop :=
  ∀ s : State, s.err = false → s.tree = .valid → TreeOk s.nodeAt s.nodeCnt.val s.root →
    ∃ code path stack,
      exec .gentab s = .next { s with codeV := true, code := code, path := path, stack := stack } ∧
      ∀ k, k < 257 →
        (∀ p, s.IsCode p k → ∃ e, cellAt code k = some e ∧ e.valid = true ∧ e.len.toNat = p.length ∧ e.code = p ∧
          ∀ j, p.length ≤ j → e.bits.getLsbD j = false) ∧
        ((∀ p, ¬ s.IsCode p k) → cellAt code k = some { valid := false, len := 0#8, bits := 0#255 })

/-- 42_code_table_generator.md R156, R157: the codes GENTAB records have at least one bit and at most L' - 1 ≤ 255,
where the tree has 2L' - 1 nodes, and none is a prefix of another; the synthetic leaf's code is one of them. -/
def Obligations.GentabCodesArePrefixFree : Prop :=
  ∀ s : State, s.err = false → s.tree = .valid → TreeOk s.nodeAt s.nodeCnt.val s.root →
    ∃ t, exec .gentab s = .next t ∧ t.err = false ∧
      (∀ k p, k < 257 → t.codeOf k = some p → 1 ≤ p.length ∧ 2 * p.length + 1 ≤ s.nodeCnt.val ∧ p.length ≤ 255) ∧
      (∀ j k p q, j < 257 → k < 257 → j ≠ k → t.codeOf j = some p → t.codeOf k = some q → ¬ p <+: q)

/-- 42_code_table_generator.md R153 with 30_encoding.md R98: GENTAB of the absent tree makes each of the 257 entries
the all-zero one and sets CODEV; ENCODE with that table gives the empty bit-string for LEN = 0 and LOOKUP on the first
symbol for LEN > 0 (RANGE comes first where LEN > MAX_LEN, 43_encoder.md R165). -/
def Obligations.GentabOfTheEmptyTree : Prop :=
  ∀ s : State, s.err = false → s.tree = .empty →
    ∃ code path stack,
      let t := { s with codeV := true, code := code, path := path, stack := stack }
      exec .gentab s = .next t ∧
      (∀ k, k < 257 → cellAt t.code k = some { valid := false, len := 0#8, bits := 0#255 } ∧ t.codeOf k = none) ∧
      (s.len = 0#32 → ∃ u, exec .encode t = .next u ∧ u.err = false ∧ u.bitLen = 0#32) ∧
      (0 < s.len.toNat → s.len.toNat ≤ s.cfg.maxLen →
        ∃ u, exec .encode t = .next u ∧ u.err = true ∧ u.errCode = .lookup ∧ u.errInfo = 0#32)

/-- 42_code_table_generator.md R154, 60_exceptions.md R225: a root that is a Leaf is the INVARIANT fault with ERRINFO
= ROOT, CODE cleared and CODEV = 0; no state that keeps the invariant has such a root. -/
def Obligations.GentabInvariantFault : Prop :=
  ∀ s : State, s.tree = .valid → (s.nodeAt s.root).kind = .leaf →
    (s.err = false → ∃ code path stack,
      exec .gentab s = .next { s with codeV := false, code := code, path := path, stack := stack, err := true,
                                      errCode := .invariant, errInfo := BitVec.ofNat 32 s.root.val } ∧
      ∀ k, k < 257 → cellAt code k = some { valid := false, len := 0#8, bits := 0#255 }) ∧
    ¬ Inv s

/-! ### ENCODE -/

/-- 43_encoder.md R166: after ENCODE the bit-string is the concatenation of the codes of the input and BITLEN the sum
of their lengths. Only BITS, BITLEN and the cursors change. -/
def Obligations.EncodeConcatenatesTheCodes : Prop :=
  ∀ s : State, s.cfg.wf = true → s.err = false → s.codeV = true → s.len.toNat ≤ s.cfg.maxLen →
    (∀ i, i < s.len.toNat → (s.codeAt (s.symByte i).toNat).valid = true) →
    (s.inputSeq.map (fun c => (s.codeAt c.toNat).len.toNat)).sum ≤ s.cfg.maxBits →
    ∃ bits bl sp p, exec .encode s = .next { s with bits := bits, bitLen := bl, symPos := sp, pos := p } ∧
      bl.toNat = (s.inputSeq.map (fun c => (s.codeAt c.toNat).len.toNat)).sum ∧
      { s with bits := bits, bitLen := bl }.elems =
        elemsOfBits (s.inputSeq.flatMap (fun c => (s.codeAt c.toNat).code))

/-- 43_encoder.md R167, R170: which bytes of BITS ENCODE writes and what they hold, in both formats; every other byte
of BITS is as before. -/
def Obligations.EncodeWritesExactlyItsBytes : Prop :=
  ∀ s : State, s.cfg.wf = true → s.err = false → s.codeV = true → s.len.toNat ≤ s.cfg.maxLen →
    (∀ i, i < s.len.toNat → (s.codeAt (s.symByte i).toNat).valid = true) →
    (s.inputSeq.flatMap (fun c => (s.codeAt c.toNat).code)).length ≤ s.cfg.maxBits →
    ∃ t, exec .encode s = .next t ∧ t.err = false ∧
      let bs := s.inputSeq.flatMap (fun c => (s.codeAt c.toNat).code)
      (s.fmt = .char → ∀ k, t.bitsByte k =
        if k < bs.length then (if bs.getD k false then 0x31#8 else 0x30#8) else s.bitsByte k) ∧
      (s.fmt = .packed → ∀ k,
        (k < (bs.length + 7) / 8 → ∀ j, j < 8 → (t.bitsByte k).getLsbD j = bs.getD (8 * k + j) false) ∧
        ((bs.length + 7) / 8 ≤ k → t.bitsByte k = s.bitsByte k))

/-- 43_encoder.md R171: LEN = 0 with a current table, whatever the table holds. No byte of BITS is written. -/
def Obligations.EncodeOfEmptyInput : Prop :=
  ∀ s : State, s.err = false → s.codeV = true → s.len = 0#32 →
    ∃ sp p, exec .encode s = .next { s with bitLen := 0#32, symPos := sp, pos := p }

/-- 43_encoder.md R168, R169, R172: the first symbol that has no code raises LOOKUP, one whose code does not fit
raises OVERFLOW, with ERRINFO its index; BITLEN = 0, the elements of the symbols before it are written, and the rest of
BITS is as before: every byte that holds none of them and, as there is no padding step, in PACKED format every bit of
the last, partly filled byte beyond them. -/
def Obligations.EncodeStopsAtTheFirstFaultySymbol : Prop :=
  ∀ (s : State) (done rest : List Byte) (c : Byte) (f : ErrCode), s.cfg.wf = true → s.err = false → s.codeV = true →
    s.len.toNat ≤ s.cfg.maxLen → s.inputSeq = done ++ c :: rest → (∀ d ∈ done, (s.codeAt d.toNat).valid = true) →
    (done.flatMap (fun d => (s.codeAt d.toNat).code)).length ≤ s.cfg.maxBits →
    (((s.codeAt c.toNat).valid = false ∧ f = .lookup) ∨
      ((s.codeAt c.toNat).valid = true ∧ f = .overflow ∧
        s.cfg.maxBits < (done.flatMap (fun d => (s.codeAt d.toNat).code)).length + (s.codeAt c.toNat).len.toNat)) →
    ∃ bits sp p, exec .encode s =
        .next { s with bits := bits, bitLen := 0#32, symPos := sp, pos := p, err := true, errCode := f,
                       errInfo := BitVec.ofNat 32 done.length } ∧
      let bs := done.flatMap (fun d => (s.codeAt d.toNat).code)
      (∀ j, j < bs.length → { s with bits := bits }.elem j = bitElem (bs.getD j false)) ∧
      (∀ k, (∀ j, j < bs.length → elemByte s.fmt j ≠ k) → { s with bits := bits }.bitsByte k = s.bitsByte k) ∧
      (s.fmt = .packed → ∀ k j, j < 8 → bs.length ≤ 8 * k + j →
        ({ s with bits := bits }.bitsByte k).getLsbD j = (s.bitsByte k).getLsbD j)

/-! ### DECODE and DECOMPRESS -/

/-- 44_decoder.md R195: DECOMPRESS, word 0x00000007, is DECODE in every respect but the opcode that a SEQUENCE fault
records. -/
def Obligations.DecompressIsDecode : Prop :=
  decode 0x00000007#32 = .command .decompress ∧ ∀ s : State,
    (s.tree ≠ .none ∨ s.err = true → exec .decompress s = exec .decode s) ∧
    (s.tree = .none → s.err = false → ∃ t, exec .decode s = .next t ∧ t.errInfo = 0x00000005#32 ∧
      exec .decompress s = .next { t with errInfo := 0x00000007#32 })

/-- 44_decoder.md R187, R188, R192: the bits of complete codes of real symbols (of none: the empty bit-string) decode
to those symbols. Only OUT, OUTLEN, DSTATE, CUR and BITPOS change, and of OUT only the bytes 0..OUTLEN-1. -/
def Obligations.DecodeOfCompleteCodes : Prop :=
  ∀ (s : State) (bs : List Bool) (cs : List Byte), Inv s → s.err = false → s.tree = .valid →
    s.elems = elemsOfBits bs → s.bitLen.toNat ≤ s.cfg.maxBits → s.SpellsOut bs cs → cs.length ≤ s.cfg.maxLen →
    ∀ i ∈ [Instr.decode, .decompress], ∃ out,
      exec i s = .next { s with out := out, outLen := BitVec.ofNat 32 cs.length, dstate := .atRoot, cur := s.root,
                                bitPos := s.bitLen } ∧
      ∀ k, { s with out := out }.outByte k = cs.getD k (s.outByte k)

/-- 44_decoder.md R188, R191: elements that end inside a code raise MISMATCH with ERRINFO = BITLEN and leave DSTATE
Descending and OUTLEN 0; the symbols emitted before stay in OUT. -/
def Obligations.DecodeOfAPartialTrailingCode : Prop :=
  ∀ (s : State) (bs p : List Bool) (cs : List Byte) (n : NodeIdx), Inv s → s.err = false → s.tree = .valid →
    s.elems = elemsOfBits (bs ++ p) → s.bitLen.toNat ≤ s.cfg.maxBits → s.SpellsOut bs cs →
    cs.length ≤ s.cfg.maxLen → p ≠ [] → descend s.nodeAt s.root p = some n → (s.nodeAt n).kind = .internal →
    ∀ i ∈ [Instr.decode, .decompress], ∃ out,
      exec i s = .next { s with out := out, outLen := 0#32, dstate := .descending, cur := n, bitPos := s.bitLen,
                                err := true, errCode := .mismatch, errInfo := s.bitLen } ∧
      ∀ k, { s with out := out }.outByte k = cs.getD k (s.outByte k)

/-- 44_decoder.md R189, R190, R191: a walk that reaches the synthetic leaf raises MISMATCH, and one that completes a
real symbol when OUT is full raises OVERFLOW, with ERRINFO = the index of the element that led there; OUTLEN = 0,
DSTATE is as before that element (AtRoot when it is the first of its code), and the symbols emitted before stay in
OUT. -/
def Obligations.DecodeStopsInsideTheBitString : Prop :=
  ∀ (s : State) (bs p rest : List Bool) (cs : List Byte) (k : Nat) (f : ErrCode), Inv s → s.err = false →
    s.tree = .valid → s.elems = elemsOfBits (bs ++ p ++ rest) → s.bitLen.toNat ≤ s.cfg.maxBits →
    s.SpellsOut bs cs → cs.length ≤ s.cfg.maxLen → s.IsCode p k →
    ((k = 256 ∧ f = .mismatch) ∨ (k < 256 ∧ cs.length = s.cfg.maxLen ∧ f = .overflow)) →
    ∀ i ∈ [Instr.decode, .decompress], ∃ out cur pos,
      exec i s = .next { s with out := out, outLen := 0#32, dstate := if p.length = 1 then .atRoot else .descending,
                                cur := cur, bitPos := pos, err := true, errCode := f,
                                errInfo := BitVec.ofNat 32 (bs.length + p.length - 1) } ∧
      ∀ j, { s with out := out }.outByte j = cs.getD j (s.outByte j)

/-- 44_decoder.md R182, R183: an INVALID element anywhere wins over everything but SEQUENCE and RANGE, whatever the
tree is; ERRINFO is the index of the first one, OUTLEN = 0, and OUT is not touched. -/
def Obligations.DecodeOfAnInvalidElement : Prop :=
  ∀ (s : State) (i : Nat), s.err = false → s.tree ≠ .none → s.bitLen.toNat ≤ s.cfg.maxBits → i < s.bitLen.toNat →
    s.elem i = .invalid → (∀ j, j < i → s.elem j ≠ .invalid) →
    ∀ c ∈ [Instr.decode, .decompress], ∃ cur pos,
      exec c s = .next { s with outLen := 0#32, dstate := .atRoot, cur := cur, bitPos := pos, err := true,
                                errCode := .invalidBit, errInfo := BitVec.ofNat 32 i }

/-- 44_decoder.md R184: the absent tree decodes the empty bit-string to the empty sequence and raises MISMATCH(0) for
any other. -/
def Obligations.DecodeOfTheAbsentTree : Prop :=
  ∀ s : State, s.err = false → s.tree = .empty → ∀ c ∈ [Instr.decode, .decompress],
    (s.bitLen = 0#32 → ∃ cur pos,
      exec c s = .next { s with outLen := 0#32, dstate := .atRoot, cur := cur, bitPos := pos }) ∧
    (0 < s.bitLen.toNat → s.bitLen.toNat ≤ s.cfg.maxBits → (∀ j, j < s.bitLen.toNat → s.elem j ≠ .invalid) →
      ∃ cur pos, exec c s =
        .next { s with outLen := 0#32, dstate := .atRoot, cur := cur, bitPos := pos, err := true,
                       errCode := .mismatch, errInfo := 0#32 })

/-- 44_decoder.md R194, R191, 10_state.md R30: DECODE and DECOMPRESS end in every state that has no fault, change
nothing but OUT, OUTLEN, DSTATE, the latch and their cursors, write no byte of OUT beyond the symbols of their walk,
and without a fault leave DSTATE AtRoot; a fault other than SEQUENCE and RANGE leaves OUTLEN 0. -/
def Obligations.DecodeFrame : Prop :=
  ∀ s : State, s.err = false → ∀ i ∈ [Instr.decode, .decompress],
    ∃ out ol ds cur pos e code info,
      exec i s = .next { s with out := out, outLen := ol, dstate := ds, cur := cur, bitPos := pos, err := e,
                                errCode := code, errInfo := info } ∧
      (∀ k, s.decodeRun.outLen ≤ k → { s with out := out }.outByte k = s.outByte k) ∧
      (e = false → ds = .atRoot) ∧
      (e = true → code ∈ [ErrCode.sequence, .range, .invalidBit, .mismatch, .overflow]) ∧
      (e = true → code ≠ .sequence → code ≠ .range → ol = 0#32)

/-- 44_decoder.md R194, R181: the result of DECODE and DECOMPRESS is a function of TREE, ROOT, NODE, FMT, BITLEN and
the BITLEN elements (and of the parameters): nothing of an earlier DECODE survives. SEQUENCE and RANGE are raised before
anything is written and leave OUT, OUTLEN and DSTATE (R191). -/
def Obligations.DecodeDependsOnTheEncodedResultAlone : Prop :=
  ∀ s₁ s₂ : State, s₁.err = false → s₂.err = false → s₁.cfg = s₂.cfg → s₁.tree = s₂.tree → s₁.root = s₂.root →
    (∀ i, s₁.nodeAt i = s₂.nodeAt i) → s₁.fmt = s₂.fmt → s₁.bitLen = s₂.bitLen →
    (∀ j, j < s₁.bitLen.toNat → s₁.elem j = s₂.elem j) → ∀ i ∈ [Instr.decode, .decompress],
    ∃ t₁ t₂, exec i s₁ = .next t₁ ∧ exec i s₂ = .next t₂ ∧
      t₁.err = t₂.err ∧ (t₁.err = true → t₁.errCode = t₂.errCode ∧ t₁.errInfo = t₂.errInfo) ∧
      (s₁.tree ≠ .none → s₁.bitLen.toNat ≤ s₁.cfg.maxBits → t₁.outLen = t₂.outLen ∧ t₁.dstate = t₂.dstate ∧
        ∀ k, k < t₁.outLen.toNat → t₁.outByte k = t₂.outByte k) ∧
      (s₁.tree = .none ∨ s₁.cfg.maxBits < s₁.bitLen.toNat → t₁.err = true ∧
        (t₁.outLen = s₁.outLen ∧ t₁.dstate = s₁.dstate ∧ ∀ k, t₁.outByte k = s₁.outByte k) ∧
        (t₂.outLen = s₂.outLen ∧ t₂.dstate = s₂.dstate ∧ ∀ k, t₂.outByte k = s₂.outByte k))

/-! ### COMPRESS -/

/-- 45_compound_and_control.md R206, R207, 70_reset_and_hazards.md R254: COMPRESS is COUNT, BUILD, GENTAB and ENCODE,
each as if the host had issued it. -/
def Obligations.CompressIsTheFourCommands : Prop :=
  ∀ s : State, exec .compress s =
    andThen (andThen (andThen (exec .count s) (exec .build)) (exec .gentab)) (exec .encode)

/-- 45_compound_and_control.md R208, R206, 43_encoder.md R168: COMPRESS ends in every state that has no fault and LEN
within MAX_LEN; the only fault left is OVERFLOW, when the codes of the input do not fit; without one FREQ, the tree,
the table and the bit-string are those of the input. -/
def Obligations.CompressResult : Prop :=
  ∀ s : State, s.cfg.wf = true → s.err = false → s.len.toNat ≤ s.cfg.maxLen →
    ∃ t, exec .compress s = .next t ∧ t.codeV = true ∧
      (∀ c : Byte, (freqAt t.freq c.toNat).toNat =
        ((List.range s.len.toNat).filter (fun i => s.symByte i == c)).length) ∧
      (s.len = 0#32 → t.err = false ∧ t.tree = .empty ∧ t.nodeCnt = 0 ∧ t.bitLen = 0#32 ∧
        ∀ k, k < 257 → t.codeOf k = none) ∧
      (s.len ≠ 0#32 → t.tree = .valid ∧ TreeOk t.nodeAt t.nodeCnt.val t.root ∧
        (∀ i, i < s.len.toNat → ∃ p, t.codeOf (s.symByte i).toNat = some p ∧ 1 ≤ p.length ∧ p.length ≤ 255 ∧
          t.IsCode p (s.symByte i).toNat)) ∧
      let bs := s.inputSeq.flatMap (fun c => (t.codeAt c.toNat).code)
      (bs.length ≤ s.cfg.maxBits → t.err = false ∧ t.bitLen.toNat = bs.length ∧ t.elems = elemsOfBits bs) ∧
      (s.cfg.maxBits < bs.length → t.err = true ∧ t.errCode = .overflow ∧ t.bitLen = 0#32)

/-- 45_compound_and_control.md R208: an input of one distinct symbol has the code "1", BITLEN = LEN and every element
ONE. -/
def Obligations.CompressOfOneSymbol : Prop :=
  ∀ (s : State) (c : Byte), s.cfg.wf = true → s.err = false → s.len.toNat ≤ s.cfg.maxLen → s.len ≠ 0#32 →
    s.len.toNat ≤ s.cfg.maxBits → (∀ i, i < s.len.toNat → s.symByte i = c) →
    ∃ t, exec .compress s = .next t ∧ t.err = false ∧ t.tree = .valid ∧ t.nodeCnt.val = 3 ∧
      t.codeOf c.toNat = some [true] ∧ t.codeOf 256 = some [false] ∧ t.bitLen = s.len ∧
      ∀ j, j < s.len.toNat → t.elem j = .one

/-- What COMPRESS leaves alone (10_state.md R50): it ends in every state that has no fault, and changes neither SYM,
OUT, OUTLEN, LEN, FMT nor DSTATE; with a RANGE fault it changes the latch only (60_exceptions.md R228). Of BITS it
changes the bytes that hold an element of the codes it wrote (43_encoder.md R167): those of the whole input or, on
OVERFLOW, of the ERRINFO symbols before the one that does not fit (R172). -/
def Obligations.CompressFrame : Prop :=
  ∀ s : State, s.err = false →
    ∃ t, exec .compress s = .next t ∧
      t = { s with freq := t.freq, tree := t.tree, codeV := t.codeV, root := t.root, nodeCnt := t.nodeCnt,
                   node := t.node, active := t.active, code := t.code, bits := t.bits, bitLen := t.bitLen,
                   err := t.err, errCode := t.errCode, errInfo := t.errInfo, symPos := t.symPos, pos := t.pos,
                   nalloc := t.nalloc, regA := t.regA, regB := t.regB, path := t.path, stack := t.stack } ∧
      (∀ k, t.symByte k = s.symByte k ∧ t.outByte k = s.outByte k) ∧
      (∀ i, t.nodeCnt.val ≤ i → cellAt t.node i = cellAt s.node i) ∧
      (s.cfg.maxLen < s.len.toNat → t = { s with err := true, errCode := .range, errInfo := s.len }) ∧
      (s.len.toNat ≤ s.cfg.maxLen →
        let n := if t.err then t.errInfo.toNat else s.len.toNat
        let bs := (s.inputSeq.take n).flatMap (fun c => (t.codeAt c.toNat).code)
        bs.length ≤ s.cfg.maxBits ∧
          ∀ k, (∀ j, j < bs.length → elemByte s.fmt j ≠ k) → t.bitsByte k = s.bitsByte k)

/-- 45_compound_and_control.md R208: COMPRESS is a function of FMT, LEN and SYM[0..LEN-1] (and of the parameters). -/
def Obligations.CompressDependsOnTheInputAlone : Prop :=
  ∀ s₁ s₂ : State, s₁.err = false → s₂.err = false → s₁.cfg = s₂.cfg → s₁.fmt = s₂.fmt → s₁.len = s₂.len →
    s₁.cfg.wf = true → s₁.len.toNat ≤ s₁.cfg.maxLen → (∀ i, i < s₁.len.toNat → s₁.symByte i = s₂.symByte i) →
    ∃ t₁ t₂, exec .compress s₁ = .next t₁ ∧ exec .compress s₂ = .next t₂ ∧ t₁.err = t₂.err ∧ t₁.freq = t₂.freq ∧
      t₁.tree = t₂.tree ∧ t₁.root = t₂.root ∧ t₁.nodeCnt = t₂.nodeCnt ∧
      (∀ i : NodeIdx, i.val < t₁.nodeCnt.val → t₁.nodeAt i = t₂.nodeAt i) ∧ t₁.code = t₂.code ∧
      t₁.bitLen = t₂.bitLen ∧ t₁.elems = t₂.elems

/-- 44_decoder.md R193: what COMPRESS encoded without a fault, DECODE and DECOMPRESS reconstruct without a fault, in
any later state that has the same FMT, BITS, BITLEN and tree. -/
def Obligations.CompressDecompressRoundTrip : Prop :=
  ∀ s t u : State, s.cfg.wf = true → s.err = false → exec .compress s = .next t → t.err = false →
    u.err = false → u.cfg = t.cfg → u.fmt = t.fmt → u.bitLen = t.bitLen → (∀ k, u.bitsByte k = t.bitsByte k) →
    u.tree = t.tree → u.root = t.root → (∀ i, u.nodeAt i = t.nodeAt i) →
    ∀ i ∈ [Instr.decode, .decompress], ∃ v, exec i u = .next v ∧ v.err = false ∧ v.outLen = s.len ∧
      ∀ k, k < s.len.toNat → v.outByte k = s.symByte k

/-- 00_scope.md R8: with MAX_BITS = 8 x MAX_LEN, COMPRESS never raises OVERFLOW. -/
def Obligations.CompressNeverOverflowsAtEightBitsASymbol : Prop :=
  ∀ s : State, s.cfg.wf = true → s.cfg.maxBits = 8 * s.cfg.maxLen → s.err = false → s.len.toNat ≤ s.cfg.maxLen →
    ∃ t, exec .compress s = .next t ∧ t.err = false ∧ t.bitLen.toNat ≤ 8 * s.len.toNat

/-! ### The whole machine -/

/-- 10_state.md R50: which command, and which write of the host, writes which state; the parameters are constants. The
response field is the model's own (log 2). -/
def Obligations.OnlyTheOwnersWrite : Prop :=
  (∀ (s t : State) (a : Nat) (v : Word), locate s.cfg a ≠ .reg .cmd → performWrite a v s = .next t →
    ∃ fmt len bl freq sym bits,
      t = { s with response := some (writeResponse (locate s.cfg a)), fmt := fmt, len := len, bitLen := bl,
                   freq := freq, sym := sym, bits := bits }) ∧
  (∀ s t : State, step s = .next t → t.cfg = s.cfg) ∧
  ∀ (i : Instr) (s t : State), exec i s = .next t →
    t.cfg = s.cfg ∧ (∀ k, t.symByte k = s.symByte k) ∧
    (i ≠ .clear → t.fmt = s.fmt ∧ t.len = s.len) ∧
    (i ∉ [Instr.count, .compress, .clear] → ∀ k, freqAt t.freq k = freqAt s.freq k) ∧
    (i ∉ [Instr.build, .compress, .clear] → t.tree = s.tree ∧ t.root = s.root ∧ t.nodeCnt = s.nodeCnt) ∧
    (i ∉ [Instr.build, .compress] → t.active = s.active ∧ ∀ k j, t.nodeWordAt k j = s.nodeWordAt k j) ∧
    (i ∉ [Instr.gentab, .build, .compress, .clear] → t.codeV = s.codeV) ∧
    (i ∉ [Instr.gentab, .compress] → ∀ k j, t.codeWordAt k j = s.codeWordAt k j) ∧
    (i ∉ [Instr.decode, .decompress, .clear] → t.dstate = s.dstate ∧ t.outLen = s.outLen) ∧
    (i ∉ [Instr.decode, .decompress] → ∀ k, t.outByte k = s.outByte k) ∧
    (i ∉ [Instr.encode, .compress, .clear] → t.bitLen = s.bitLen) ∧
    (i ∉ [Instr.encode, .compress] → ∀ k, t.bitsByte k = s.bitsByte k) ∧
    (i ∉ [Instr.errack, .clear] →
      (t.err = s.err ∧ t.errCode = s.errCode ∧ t.errInfo = s.errInfo) ∨ (s.err = false ∧ t.err = true))

/-- 10_state.md R51, 70_reset_and_hazards.md R250, with 10_state.md R27, R29, R34, R36, R37: the machine right after
reset meets the invariant, for every legal parameter. The canonical form of the memories, which list nothing then, the
well-formed parameters, the epoch and the queue are the model's own (log 1, log 3, log 4, log 8); the invariant says
nothing of ACTIVE or a working register (log 5, log 6). -/
def Obligations.ResetMeetsTheInvariant : Prop :=
  Inv State.reset ∧ ∀ cfg epoch pending, cfg.wf = true → Inv (State.afterReset cfg epoch pending)

/-- 10_state.md R27, R29, R34, R36, R37, R49: every step keeps the invariant: the latch, the tree, the currency of the
code table, the bound on OUTLEN, the canonical form of the memories. The canonical form and the well-formed parameters
are the model's own (log 4, log 8). -/
def Obligations.StepKeepsTheInvariant : Prop := ∀ s t : State, Inv s → step s = .next t → Inv t

/-- 70_reset_and_hazards.md R262: from every state that meets the invariant a step ends: no register and no memory
content hangs the host. -/
def Obligations.StepAlwaysCompletes : Prop := ∀ s : State, Inv s → ∃ t, step s = .next t

end Statements
end

