-- ==== Sys2Proof/Laws/State.lean ====
section
/-! SUPPORT. One lemma per field for each named update of State, true by rfl. -/

namespace Sys2Proof.Machine

variable (s : State)

/-! ### `State.raiseFault`: fault entry (60_exceptions.md R232) -/

@[simp] theorem State.raiseFault_cfg (cmd : Option Instr) (f : ErrCode) (info : Word) :
    (s.raiseFault cmd f info).cfg = s.cfg := rfl
@[simp] theorem State.raiseFault_err (cmd : Option Instr) (f : ErrCode) (info : Word) :
    (s.raiseFault cmd f info).err = true := rfl
@[simp] theorem State.raiseFault_errCode (cmd : Option Instr) (f : ErrCode) (info : Word) :
    (s.raiseFault cmd f info).errCode = f := rfl
@[simp] theorem State.raiseFault_tree (cmd : Option Instr) (f : ErrCode) (info : Word) :
    (s.raiseFault cmd f info).tree = s.tree := rfl
@[simp] theorem State.raiseFault_codeV (cmd : Option Instr) (f : ErrCode) (info : Word) :
    (s.raiseFault cmd f info).codeV = s.codeV := rfl
@[simp] theorem State.raiseFault_dstate (cmd : Option Instr) (f : ErrCode) (info : Word) :
    (s.raiseFault cmd f info).dstate = s.dstate := rfl
@[simp] theorem State.raiseFault_fmt (cmd : Option Instr) (f : ErrCode) (info : Word) :
    (s.raiseFault cmd f info).fmt = s.fmt := rfl
@[simp] theorem State.raiseFault_len (cmd : Option Instr) (f : ErrCode) (info : Word) :
    (s.raiseFault cmd f info).len = s.len := rfl
@[simp] theorem State.raiseFault_bitLen (cmd : Option Instr) (f : ErrCode) (info : Word) :
    (s.raiseFault cmd f info).bitLen = s.bitLen := rfl
@[simp] theorem State.raiseFault_outLen (cmd : Option Instr) (f : ErrCode) (info : Word) :
    (s.raiseFault cmd f info).outLen = if voidsOutput cmd f then 0#32 else s.outLen := rfl
@[simp] theorem State.raiseFault_errInfo (cmd : Option Instr) (f : ErrCode) (info : Word) :
    (s.raiseFault cmd f info).errInfo = info := rfl
@[simp] theorem State.raiseFault_root (cmd : Option Instr) (f : ErrCode) (info : Word) :
    (s.raiseFault cmd f info).root = s.root := rfl
@[simp] theorem State.raiseFault_nodeCnt (cmd : Option Instr) (f : ErrCode) (info : Word) :
    (s.raiseFault cmd f info).nodeCnt = s.nodeCnt := rfl
@[simp] theorem State.raiseFault_freq (cmd : Option Instr) (f : ErrCode) (info : Word) :
    (s.raiseFault cmd f info).freq = s.freq := rfl
@[simp] theorem State.raiseFault_node (cmd : Option Instr) (f : ErrCode) (info : Word) :
    (s.raiseFault cmd f info).node = s.node := rfl
@[simp] theorem State.raiseFault_active (cmd : Option Instr) (f : ErrCode) (info : Word) :
    (s.raiseFault cmd f info).active = s.active := rfl
@[simp] theorem State.raiseFault_code (cmd : Option Instr) (f : ErrCode) (info : Word) :
    (s.raiseFault cmd f info).code = s.code := rfl
@[simp] theorem State.raiseFault_sym (cmd : Option Instr) (f : ErrCode) (info : Word) :
    (s.raiseFault cmd f info).sym = s.sym := rfl
@[simp] theorem State.raiseFault_out (cmd : Option Instr) (f : ErrCode) (info : Word) :
    (s.raiseFault cmd f info).out = s.out := rfl
@[simp] theorem State.raiseFault_bits (cmd : Option Instr) (f : ErrCode) (info : Word) :
    (s.raiseFault cmd f info).bits = s.bits := rfl
@[simp] theorem State.raiseFault_symPos (cmd : Option Instr) (f : ErrCode) (info : Word) :
    (s.raiseFault cmd f info).symPos = s.symPos := rfl
@[simp] theorem State.raiseFault_bitPos (cmd : Option Instr) (f : ErrCode) (info : Word) :
    (s.raiseFault cmd f info).bitPos = s.bitPos := rfl
@[simp] theorem State.raiseFault_pos (cmd : Option Instr) (f : ErrCode) (info : Word) :
    (s.raiseFault cmd f info).pos = s.pos := rfl
@[simp] theorem State.raiseFault_cur (cmd : Option Instr) (f : ErrCode) (info : Word) :
    (s.raiseFault cmd f info).cur = s.cur := rfl
@[simp] theorem State.raiseFault_nalloc (cmd : Option Instr) (f : ErrCode) (info : Word) :
    (s.raiseFault cmd f info).nalloc = s.nalloc := rfl
@[simp] theorem State.raiseFault_regA (cmd : Option Instr) (f : ErrCode) (info : Word) :
    (s.raiseFault cmd f info).regA = s.regA := rfl
@[simp] theorem State.raiseFault_regB (cmd : Option Instr) (f : ErrCode) (info : Word) :
    (s.raiseFault cmd f info).regB = s.regB := rfl
@[simp] theorem State.raiseFault_path (cmd : Option Instr) (f : ErrCode) (info : Word) :
    (s.raiseFault cmd f info).path = s.path := rfl
@[simp] theorem State.raiseFault_stack (cmd : Option Instr) (f : ErrCode) (info : Word) :
    (s.raiseFault cmd f info).stack = s.stack := rfl
@[simp] theorem State.raiseFault_epoch (cmd : Option Instr) (f : ErrCode) (info : Word) :
    (s.raiseFault cmd f info).epoch = s.epoch := rfl
@[simp] theorem State.raiseFault_pending (cmd : Option Instr) (f : ErrCode) (info : Word) :
    (s.raiseFault cmd f info).pending = s.pending := rfl
@[simp] theorem State.raiseFault_response (cmd : Option Instr) (f : ErrCode) (info : Word) :
    (s.raiseFault cmd f info).response = s.response := rfl

/-! ### `State.ackFault`: the return from a fault (45_compound_and_control.md R209) -/

@[simp] theorem State.ackFault_cfg : s.ackFault.cfg = s.cfg := rfl
@[simp] theorem State.ackFault_err : s.ackFault.err = false := rfl
@[simp] theorem State.ackFault_errCode : s.ackFault.errCode = .none := rfl
@[simp] theorem State.ackFault_tree : s.ackFault.tree = s.tree := rfl
@[simp] theorem State.ackFault_codeV : s.ackFault.codeV = s.codeV := rfl
@[simp] theorem State.ackFault_dstate : s.ackFault.dstate = s.dstate := rfl
@[simp] theorem State.ackFault_fmt : s.ackFault.fmt = s.fmt := rfl
@[simp] theorem State.ackFault_len : s.ackFault.len = s.len := rfl
@[simp] theorem State.ackFault_bitLen : s.ackFault.bitLen = s.bitLen := rfl
@[simp] theorem State.ackFault_outLen : s.ackFault.outLen = s.outLen := rfl
@[simp] theorem State.ackFault_errInfo : s.ackFault.errInfo = 0#32 := rfl
@[simp] theorem State.ackFault_root : s.ackFault.root = s.root := rfl
@[simp] theorem State.ackFault_nodeCnt : s.ackFault.nodeCnt = s.nodeCnt := rfl
@[simp] theorem State.ackFault_freq : s.ackFault.freq = s.freq := rfl
@[simp] theorem State.ackFault_node : s.ackFault.node = s.node := rfl
@[simp] theorem State.ackFault_active : s.ackFault.active = s.active := rfl
@[simp] theorem State.ackFault_code : s.ackFault.code = s.code := rfl
@[simp] theorem State.ackFault_sym : s.ackFault.sym = s.sym := rfl
@[simp] theorem State.ackFault_out : s.ackFault.out = s.out := rfl
@[simp] theorem State.ackFault_bits : s.ackFault.bits = s.bits := rfl
@[simp] theorem State.ackFault_symPos : s.ackFault.symPos = s.symPos := rfl
@[simp] theorem State.ackFault_bitPos : s.ackFault.bitPos = s.bitPos := rfl
@[simp] theorem State.ackFault_pos : s.ackFault.pos = s.pos := rfl
@[simp] theorem State.ackFault_cur : s.ackFault.cur = s.cur := rfl
@[simp] theorem State.ackFault_nalloc : s.ackFault.nalloc = s.nalloc := rfl
@[simp] theorem State.ackFault_regA : s.ackFault.regA = s.regA := rfl
@[simp] theorem State.ackFault_regB : s.ackFault.regB = s.regB := rfl
@[simp] theorem State.ackFault_path : s.ackFault.path = s.path := rfl
@[simp] theorem State.ackFault_stack : s.ackFault.stack = s.stack := rfl
@[simp] theorem State.ackFault_epoch : s.ackFault.epoch = s.epoch := rfl
@[simp] theorem State.ackFault_pending : s.ackFault.pending = s.pending := rfl
@[simp] theorem State.ackFault_response : s.ackFault.response = s.response := rfl

/-! ### `State.cleared`: CLEAR (45_compound_and_control.md R210) -/

@[simp] theorem State.cleared_cfg : s.cleared.cfg = s.cfg := rfl
@[simp] theorem State.cleared_err : s.cleared.err = false := rfl
@[simp] theorem State.cleared_errCode : s.cleared.errCode = .none := rfl
@[simp] theorem State.cleared_tree : s.cleared.tree = .none := rfl
@[simp] theorem State.cleared_codeV : s.cleared.codeV = false := rfl
@[simp] theorem State.cleared_dstate : s.cleared.dstate = .atRoot := rfl
@[simp] theorem State.cleared_fmt : s.cleared.fmt = .char := rfl
@[simp] theorem State.cleared_len : s.cleared.len = 0#32 := rfl
@[simp] theorem State.cleared_bitLen : s.cleared.bitLen = 0#32 := rfl
@[simp] theorem State.cleared_outLen : s.cleared.outLen = 0#32 := rfl
@[simp] theorem State.cleared_errInfo : s.cleared.errInfo = 0#32 := rfl
@[simp] theorem State.cleared_root : s.cleared.root = 0 := rfl
@[simp] theorem State.cleared_nodeCnt : s.cleared.nodeCnt = 0 := rfl
@[simp] theorem State.cleared_freq : s.cleared.freq = zeroFreq := rfl
@[simp] theorem State.cleared_node : s.cleared.node = s.node := rfl
@[simp] theorem State.cleared_active : s.cleared.active = s.active := rfl
@[simp] theorem State.cleared_code : s.cleared.code = s.code := rfl
@[simp] theorem State.cleared_sym : s.cleared.sym = s.sym := rfl
@[simp] theorem State.cleared_out : s.cleared.out = s.out := rfl
@[simp] theorem State.cleared_bits : s.cleared.bits = s.bits := rfl
@[simp] theorem State.cleared_symPos : s.cleared.symPos = s.symPos := rfl
@[simp] theorem State.cleared_bitPos : s.cleared.bitPos = s.bitPos := rfl
@[simp] theorem State.cleared_pos : s.cleared.pos = s.pos := rfl
@[simp] theorem State.cleared_cur : s.cleared.cur = s.cur := rfl
@[simp] theorem State.cleared_nalloc : s.cleared.nalloc = s.nalloc := rfl
@[simp] theorem State.cleared_regA : s.cleared.regA = s.regA := rfl
@[simp] theorem State.cleared_regB : s.cleared.regB = s.regB := rfl
@[simp] theorem State.cleared_path : s.cleared.path = s.path := rfl
@[simp] theorem State.cleared_stack : s.cleared.stack = s.stack := rfl
@[simp] theorem State.cleared_epoch : s.cleared.epoch = s.epoch := rfl
@[simp] theorem State.cleared_pending : s.cleared.pending = s.pending := rfl
@[simp] theorem State.cleared_response : s.cleared.response = s.response := rfl

/-! ### `State.startTable`: GENTAB before the walk (42_code_table_generator.md R150) -/

@[simp] theorem State.startTable_cfg : s.startTable.cfg = s.cfg := rfl
@[simp] theorem State.startTable_err : s.startTable.err = s.err := rfl
@[simp] theorem State.startTable_errCode : s.startTable.errCode = s.errCode := rfl
@[simp] theorem State.startTable_tree : s.startTable.tree = s.tree := rfl
@[simp] theorem State.startTable_codeV : s.startTable.codeV = false := rfl
@[simp] theorem State.startTable_dstate : s.startTable.dstate = s.dstate := rfl
@[simp] theorem State.startTable_fmt : s.startTable.fmt = s.fmt := rfl
@[simp] theorem State.startTable_len : s.startTable.len = s.len := rfl
@[simp] theorem State.startTable_bitLen : s.startTable.bitLen = s.bitLen := rfl
@[simp] theorem State.startTable_outLen : s.startTable.outLen = s.outLen := rfl
@[simp] theorem State.startTable_errInfo : s.startTable.errInfo = s.errInfo := rfl
@[simp] theorem State.startTable_root : s.startTable.root = s.root := rfl
@[simp] theorem State.startTable_nodeCnt : s.startTable.nodeCnt = s.nodeCnt := rfl
@[simp] theorem State.startTable_freq : s.startTable.freq = s.freq := rfl
@[simp] theorem State.startTable_node : s.startTable.node = s.node := rfl
@[simp] theorem State.startTable_active : s.startTable.active = s.active := rfl
@[simp] theorem State.startTable_code : s.startTable.code = clearedCode := rfl
@[simp] theorem State.startTable_sym : s.startTable.sym = s.sym := rfl
@[simp] theorem State.startTable_out : s.startTable.out = s.out := rfl
@[simp] theorem State.startTable_bits : s.startTable.bits = s.bits := rfl
@[simp] theorem State.startTable_symPos : s.startTable.symPos = s.symPos := rfl
@[simp] theorem State.startTable_bitPos : s.startTable.bitPos = s.bitPos := rfl
@[simp] theorem State.startTable_pos : s.startTable.pos = s.pos := rfl
@[simp] theorem State.startTable_cur : s.startTable.cur = s.cur := rfl
@[simp] theorem State.startTable_nalloc : s.startTable.nalloc = s.nalloc := rfl
@[simp] theorem State.startTable_regA : s.startTable.regA = s.regA := rfl
@[simp] theorem State.startTable_regB : s.startTable.regB = s.regB := rfl
@[simp] theorem State.startTable_path : s.startTable.path = [] := rfl
@[simp] theorem State.startTable_stack : s.startTable.stack = [] := rfl
@[simp] theorem State.startTable_epoch : s.startTable.epoch = s.epoch := rfl
@[simp] theorem State.startTable_pending : s.startTable.pending = s.pending := rfl
@[simp] theorem State.startTable_response : s.startTable.response = s.response := rfl

/-! ### `State.withEncRegs`: what ENCODE's loop leaves (43_encoder.md R172) -/

@[simp] theorem State.withEncRegs_cfg (r : EncRegs) : (s.withEncRegs r).cfg = s.cfg := rfl
@[simp] theorem State.withEncRegs_err (r : EncRegs) : (s.withEncRegs r).err = s.err := rfl
@[simp] theorem State.withEncRegs_errCode (r : EncRegs) : (s.withEncRegs r).errCode = s.errCode := rfl
@[simp] theorem State.withEncRegs_tree (r : EncRegs) : (s.withEncRegs r).tree = s.tree := rfl
@[simp] theorem State.withEncRegs_codeV (r : EncRegs) : (s.withEncRegs r).codeV = s.codeV := rfl
@[simp] theorem State.withEncRegs_dstate (r : EncRegs) : (s.withEncRegs r).dstate = s.dstate := rfl
@[simp] theorem State.withEncRegs_fmt (r : EncRegs) : (s.withEncRegs r).fmt = s.fmt := rfl
@[simp] theorem State.withEncRegs_len (r : EncRegs) : (s.withEncRegs r).len = s.len := rfl
@[simp] theorem State.withEncRegs_bitLen (r : EncRegs) : (s.withEncRegs r).bitLen = 0#32 := rfl
@[simp] theorem State.withEncRegs_outLen (r : EncRegs) : (s.withEncRegs r).outLen = s.outLen := rfl
@[simp] theorem State.withEncRegs_errInfo (r : EncRegs) : (s.withEncRegs r).errInfo = s.errInfo := rfl
@[simp] theorem State.withEncRegs_root (r : EncRegs) : (s.withEncRegs r).root = s.root := rfl
@[simp] theorem State.withEncRegs_nodeCnt (r : EncRegs) : (s.withEncRegs r).nodeCnt = s.nodeCnt := rfl
@[simp] theorem State.withEncRegs_freq (r : EncRegs) : (s.withEncRegs r).freq = s.freq := rfl
@[simp] theorem State.withEncRegs_node (r : EncRegs) : (s.withEncRegs r).node = s.node := rfl
@[simp] theorem State.withEncRegs_active (r : EncRegs) : (s.withEncRegs r).active = s.active := rfl
@[simp] theorem State.withEncRegs_code (r : EncRegs) : (s.withEncRegs r).code = s.code := rfl
@[simp] theorem State.withEncRegs_sym (r : EncRegs) : (s.withEncRegs r).sym = s.sym := rfl
@[simp] theorem State.withEncRegs_out (r : EncRegs) : (s.withEncRegs r).out = s.out := rfl
@[simp] theorem State.withEncRegs_bits (r : EncRegs) : (s.withEncRegs r).bits = r.bits := rfl
@[simp] theorem State.withEncRegs_symPos (r : EncRegs) : (s.withEncRegs r).symPos = BitVec.ofNat 32 r.symPos := rfl
@[simp] theorem State.withEncRegs_bitPos (r : EncRegs) : (s.withEncRegs r).bitPos = s.bitPos := rfl
@[simp] theorem State.withEncRegs_pos (r : EncRegs) : (s.withEncRegs r).pos = BitVec.ofNat 32 r.pos := rfl
@[simp] theorem State.withEncRegs_cur (r : EncRegs) : (s.withEncRegs r).cur = s.cur := rfl
@[simp] theorem State.withEncRegs_nalloc (r : EncRegs) : (s.withEncRegs r).nalloc = s.nalloc := rfl
@[simp] theorem State.withEncRegs_regA (r : EncRegs) : (s.withEncRegs r).regA = s.regA := rfl
@[simp] theorem State.withEncRegs_regB (r : EncRegs) : (s.withEncRegs r).regB = s.regB := rfl
@[simp] theorem State.withEncRegs_path (r : EncRegs) : (s.withEncRegs r).path = s.path := rfl
@[simp] theorem State.withEncRegs_stack (r : EncRegs) : (s.withEncRegs r).stack = s.stack := rfl
@[simp] theorem State.withEncRegs_epoch (r : EncRegs) : (s.withEncRegs r).epoch = s.epoch := rfl
@[simp] theorem State.withEncRegs_pending (r : EncRegs) : (s.withEncRegs r).pending = s.pending := rfl
@[simp] theorem State.withEncRegs_response (r : EncRegs) : (s.withEncRegs r).response = s.response := rfl

/-! ### `State.finishEncode`: the end of a fault-free ENCODE (43_encoder.md R165, R170) -/

@[simp] theorem State.finishEncode_cfg (r : EncRegs) : (s.finishEncode r).cfg = s.cfg := rfl
@[simp] theorem State.finishEncode_err (r : EncRegs) : (s.finishEncode r).err = s.err := rfl
@[simp] theorem State.finishEncode_errCode (r : EncRegs) : (s.finishEncode r).errCode = s.errCode := rfl
@[simp] theorem State.finishEncode_tree (r : EncRegs) : (s.finishEncode r).tree = s.tree := rfl
@[simp] theorem State.finishEncode_codeV (r : EncRegs) : (s.finishEncode r).codeV = s.codeV := rfl
@[simp] theorem State.finishEncode_dstate (r : EncRegs) : (s.finishEncode r).dstate = s.dstate := rfl
@[simp] theorem State.finishEncode_fmt (r : EncRegs) : (s.finishEncode r).fmt = s.fmt := rfl
@[simp] theorem State.finishEncode_len (r : EncRegs) : (s.finishEncode r).len = s.len := rfl
@[simp] theorem State.finishEncode_bitLen (r : EncRegs) : (s.finishEncode r).bitLen = BitVec.ofNat 32 r.pos := rfl
@[simp] theorem State.finishEncode_outLen (r : EncRegs) : (s.finishEncode r).outLen = s.outLen := rfl
@[simp] theorem State.finishEncode_errInfo (r : EncRegs) : (s.finishEncode r).errInfo = s.errInfo := rfl
@[simp] theorem State.finishEncode_root (r : EncRegs) : (s.finishEncode r).root = s.root := rfl
@[simp] theorem State.finishEncode_nodeCnt (r : EncRegs) : (s.finishEncode r).nodeCnt = s.nodeCnt := rfl
@[simp] theorem State.finishEncode_freq (r : EncRegs) : (s.finishEncode r).freq = s.freq := rfl
@[simp] theorem State.finishEncode_node (r : EncRegs) : (s.finishEncode r).node = s.node := rfl
@[simp] theorem State.finishEncode_active (r : EncRegs) : (s.finishEncode r).active = s.active := rfl
@[simp] theorem State.finishEncode_code (r : EncRegs) : (s.finishEncode r).code = s.code := rfl
@[simp] theorem State.finishEncode_sym (r : EncRegs) : (s.finishEncode r).sym = s.sym := rfl
@[simp] theorem State.finishEncode_out (r : EncRegs) : (s.finishEncode r).out = s.out := rfl
@[simp] theorem State.finishEncode_bits (r : EncRegs) :
    (s.finishEncode r).bits = putElems s.fmt (s.free .bits) r.bits r.pos (List.replicate (padCount s.fmt r.pos) false) := rfl
@[simp] theorem State.finishEncode_symPos (r : EncRegs) :
    (s.finishEncode r).symPos = BitVec.ofNat 32 r.symPos := rfl
@[simp] theorem State.finishEncode_bitPos (r : EncRegs) : (s.finishEncode r).bitPos = s.bitPos := rfl
@[simp] theorem State.finishEncode_pos (r : EncRegs) : (s.finishEncode r).pos = BitVec.ofNat 32 r.pos := rfl
@[simp] theorem State.finishEncode_cur (r : EncRegs) : (s.finishEncode r).cur = s.cur := rfl
@[simp] theorem State.finishEncode_nalloc (r : EncRegs) : (s.finishEncode r).nalloc = s.nalloc := rfl
@[simp] theorem State.finishEncode_regA (r : EncRegs) : (s.finishEncode r).regA = s.regA := rfl
@[simp] theorem State.finishEncode_regB (r : EncRegs) : (s.finishEncode r).regB = s.regB := rfl
@[simp] theorem State.finishEncode_path (r : EncRegs) : (s.finishEncode r).path = s.path := rfl
@[simp] theorem State.finishEncode_stack (r : EncRegs) : (s.finishEncode r).stack = s.stack := rfl
@[simp] theorem State.finishEncode_epoch (r : EncRegs) : (s.finishEncode r).epoch = s.epoch := rfl
@[simp] theorem State.finishEncode_pending (r : EncRegs) : (s.finishEncode r).pending = s.pending := rfl
@[simp] theorem State.finishEncode_response (r : EncRegs) : (s.finishEncode r).response = s.response := rfl

/-! ### `State.startDecode`: the initialisation of DECODE (44_decoder.md R181) -/

@[simp] theorem State.startDecode_cfg : s.startDecode.cfg = s.cfg := rfl
@[simp] theorem State.startDecode_err : s.startDecode.err = s.err := rfl
@[simp] theorem State.startDecode_errCode : s.startDecode.errCode = s.errCode := rfl
@[simp] theorem State.startDecode_tree : s.startDecode.tree = s.tree := rfl
@[simp] theorem State.startDecode_codeV : s.startDecode.codeV = s.codeV := rfl
@[simp] theorem State.startDecode_dstate : s.startDecode.dstate = .atRoot := rfl
@[simp] theorem State.startDecode_fmt : s.startDecode.fmt = s.fmt := rfl
@[simp] theorem State.startDecode_len : s.startDecode.len = s.len := rfl
@[simp] theorem State.startDecode_bitLen : s.startDecode.bitLen = s.bitLen := rfl
@[simp] theorem State.startDecode_outLen : s.startDecode.outLen = 0#32 := rfl
@[simp] theorem State.startDecode_errInfo : s.startDecode.errInfo = s.errInfo := rfl
@[simp] theorem State.startDecode_root : s.startDecode.root = s.root := rfl
@[simp] theorem State.startDecode_nodeCnt : s.startDecode.nodeCnt = s.nodeCnt := rfl
@[simp] theorem State.startDecode_freq : s.startDecode.freq = s.freq := rfl
@[simp] theorem State.startDecode_node : s.startDecode.node = s.node := rfl
@[simp] theorem State.startDecode_active : s.startDecode.active = s.active := rfl
@[simp] theorem State.startDecode_code : s.startDecode.code = s.code := rfl
@[simp] theorem State.startDecode_sym : s.startDecode.sym = s.sym := rfl
@[simp] theorem State.startDecode_out : s.startDecode.out = s.out := rfl
@[simp] theorem State.startDecode_bits : s.startDecode.bits = s.bits := rfl
@[simp] theorem State.startDecode_symPos : s.startDecode.symPos = s.symPos := rfl
@[simp] theorem State.startDecode_bitPos : s.startDecode.bitPos = 0#32 := rfl
@[simp] theorem State.startDecode_pos : s.startDecode.pos = s.pos := rfl
@[simp] theorem State.startDecode_cur : s.startDecode.cur = s.root := rfl
@[simp] theorem State.startDecode_nalloc : s.startDecode.nalloc = s.nalloc := rfl
@[simp] theorem State.startDecode_regA : s.startDecode.regA = s.regA := rfl
@[simp] theorem State.startDecode_regB : s.startDecode.regB = s.regB := rfl
@[simp] theorem State.startDecode_path : s.startDecode.path = s.path := rfl
@[simp] theorem State.startDecode_stack : s.startDecode.stack = s.stack := rfl
@[simp] theorem State.startDecode_epoch : s.startDecode.epoch = s.epoch := rfl
@[simp] theorem State.startDecode_pending : s.startDecode.pending = s.pending := rfl
@[simp] theorem State.startDecode_response : s.startDecode.response = s.response := rfl

/-! ### `State.withDecRegs`: what the decoder's walk leaves (44_decoder.md R180) -/

@[simp] theorem State.withDecRegs_cfg (r : DecRegs) : (s.withDecRegs r).cfg = s.cfg := rfl
@[simp] theorem State.withDecRegs_err (r : DecRegs) : (s.withDecRegs r).err = s.err := rfl
@[simp] theorem State.withDecRegs_errCode (r : DecRegs) : (s.withDecRegs r).errCode = s.errCode := rfl
@[simp] theorem State.withDecRegs_tree (r : DecRegs) : (s.withDecRegs r).tree = s.tree := rfl
@[simp] theorem State.withDecRegs_codeV (r : DecRegs) : (s.withDecRegs r).codeV = s.codeV := rfl
@[simp] theorem State.withDecRegs_dstate (r : DecRegs) : (s.withDecRegs r).dstate = r.dstate := rfl
@[simp] theorem State.withDecRegs_fmt (r : DecRegs) : (s.withDecRegs r).fmt = s.fmt := rfl
@[simp] theorem State.withDecRegs_len (r : DecRegs) : (s.withDecRegs r).len = s.len := rfl
@[simp] theorem State.withDecRegs_bitLen (r : DecRegs) : (s.withDecRegs r).bitLen = s.bitLen := rfl
@[simp] theorem State.withDecRegs_outLen (r : DecRegs) : (s.withDecRegs r).outLen = BitVec.ofNat 32 r.outLen := rfl
@[simp] theorem State.withDecRegs_errInfo (r : DecRegs) : (s.withDecRegs r).errInfo = s.errInfo := rfl
@[simp] theorem State.withDecRegs_root (r : DecRegs) : (s.withDecRegs r).root = s.root := rfl
@[simp] theorem State.withDecRegs_nodeCnt (r : DecRegs) : (s.withDecRegs r).nodeCnt = s.nodeCnt := rfl
@[simp] theorem State.withDecRegs_freq (r : DecRegs) : (s.withDecRegs r).freq = s.freq := rfl
@[simp] theorem State.withDecRegs_node (r : DecRegs) : (s.withDecRegs r).node = s.node := rfl
@[simp] theorem State.withDecRegs_active (r : DecRegs) : (s.withDecRegs r).active = s.active := rfl
@[simp] theorem State.withDecRegs_code (r : DecRegs) : (s.withDecRegs r).code = s.code := rfl
@[simp] theorem State.withDecRegs_sym (r : DecRegs) : (s.withDecRegs r).sym = s.sym := rfl
@[simp] theorem State.withDecRegs_out (r : DecRegs) : (s.withDecRegs r).out = r.out := rfl
@[simp] theorem State.withDecRegs_bits (r : DecRegs) : (s.withDecRegs r).bits = s.bits := rfl
@[simp] theorem State.withDecRegs_symPos (r : DecRegs) : (s.withDecRegs r).symPos = s.symPos := rfl
@[simp] theorem State.withDecRegs_bitPos (r : DecRegs) : (s.withDecRegs r).bitPos = BitVec.ofNat 32 r.bitPos := rfl
@[simp] theorem State.withDecRegs_pos (r : DecRegs) : (s.withDecRegs r).pos = s.pos := rfl
@[simp] theorem State.withDecRegs_cur (r : DecRegs) : (s.withDecRegs r).cur = r.cur := rfl
@[simp] theorem State.withDecRegs_nalloc (r : DecRegs) : (s.withDecRegs r).nalloc = s.nalloc := rfl
@[simp] theorem State.withDecRegs_regA (r : DecRegs) : (s.withDecRegs r).regA = s.regA := rfl
@[simp] theorem State.withDecRegs_regB (r : DecRegs) : (s.withDecRegs r).regB = s.regB := rfl
@[simp] theorem State.withDecRegs_path (r : DecRegs) : (s.withDecRegs r).path = s.path := rfl
@[simp] theorem State.withDecRegs_stack (r : DecRegs) : (s.withDecRegs r).stack = s.stack := rfl
@[simp] theorem State.withDecRegs_epoch (r : DecRegs) : (s.withDecRegs r).epoch = s.epoch := rfl
@[simp] theorem State.withDecRegs_pending (r : DecRegs) : (s.withDecRegs r).pending = s.pending := rfl
@[simp] theorem State.withDecRegs_response (r : DecRegs) : (s.withDecRegs r).response = s.response := rfl

/-! ### `State.respond`: the response of a transaction (20_memory.md R60) -/

@[simp] theorem State.respond_cfg (r : BusResponse) : (s.respond r).cfg = s.cfg := rfl
@[simp] theorem State.respond_err (r : BusResponse) : (s.respond r).err = s.err := rfl
@[simp] theorem State.respond_errCode (r : BusResponse) : (s.respond r).errCode = s.errCode := rfl
@[simp] theorem State.respond_tree (r : BusResponse) : (s.respond r).tree = s.tree := rfl
@[simp] theorem State.respond_codeV (r : BusResponse) : (s.respond r).codeV = s.codeV := rfl
@[simp] theorem State.respond_dstate (r : BusResponse) : (s.respond r).dstate = s.dstate := rfl
@[simp] theorem State.respond_fmt (r : BusResponse) : (s.respond r).fmt = s.fmt := rfl
@[simp] theorem State.respond_len (r : BusResponse) : (s.respond r).len = s.len := rfl
@[simp] theorem State.respond_bitLen (r : BusResponse) : (s.respond r).bitLen = s.bitLen := rfl
@[simp] theorem State.respond_outLen (r : BusResponse) : (s.respond r).outLen = s.outLen := rfl
@[simp] theorem State.respond_errInfo (r : BusResponse) : (s.respond r).errInfo = s.errInfo := rfl
@[simp] theorem State.respond_root (r : BusResponse) : (s.respond r).root = s.root := rfl
@[simp] theorem State.respond_nodeCnt (r : BusResponse) : (s.respond r).nodeCnt = s.nodeCnt := rfl
@[simp] theorem State.respond_freq (r : BusResponse) : (s.respond r).freq = s.freq := rfl
@[simp] theorem State.respond_node (r : BusResponse) : (s.respond r).node = s.node := rfl
@[simp] theorem State.respond_active (r : BusResponse) : (s.respond r).active = s.active := rfl
@[simp] theorem State.respond_code (r : BusResponse) : (s.respond r).code = s.code := rfl
@[simp] theorem State.respond_sym (r : BusResponse) : (s.respond r).sym = s.sym := rfl
@[simp] theorem State.respond_out (r : BusResponse) : (s.respond r).out = s.out := rfl
@[simp] theorem State.respond_bits (r : BusResponse) : (s.respond r).bits = s.bits := rfl
@[simp] theorem State.respond_symPos (r : BusResponse) : (s.respond r).symPos = s.symPos := rfl
@[simp] theorem State.respond_bitPos (r : BusResponse) : (s.respond r).bitPos = s.bitPos := rfl
@[simp] theorem State.respond_pos (r : BusResponse) : (s.respond r).pos = s.pos := rfl
@[simp] theorem State.respond_cur (r : BusResponse) : (s.respond r).cur = s.cur := rfl
@[simp] theorem State.respond_nalloc (r : BusResponse) : (s.respond r).nalloc = s.nalloc := rfl
@[simp] theorem State.respond_regA (r : BusResponse) : (s.respond r).regA = s.regA := rfl
@[simp] theorem State.respond_regB (r : BusResponse) : (s.respond r).regB = s.regB := rfl
@[simp] theorem State.respond_path (r : BusResponse) : (s.respond r).path = s.path := rfl
@[simp] theorem State.respond_stack (r : BusResponse) : (s.respond r).stack = s.stack := rfl
@[simp] theorem State.respond_epoch (r : BusResponse) : (s.respond r).epoch = s.epoch := rfl
@[simp] theorem State.respond_pending (r : BusResponse) : (s.respond r).pending = s.pending := rfl
@[simp] theorem State.respond_response (r : BusResponse) : (s.respond r).response = some r := rfl

/-! ### `State.withFetchWord`: a command write placed next -/

@[simp] theorem State.withFetchWord_cfg (nbits w : Nat) : (s.withFetchWord nbits w).cfg = s.cfg := rfl
@[simp] theorem State.withFetchWord_err (nbits w : Nat) : (s.withFetchWord nbits w).err = s.err := rfl
@[simp] theorem State.withFetchWord_errCode (nbits w : Nat) : (s.withFetchWord nbits w).errCode = s.errCode := rfl
@[simp] theorem State.withFetchWord_tree (nbits w : Nat) : (s.withFetchWord nbits w).tree = s.tree := rfl
@[simp] theorem State.withFetchWord_codeV (nbits w : Nat) : (s.withFetchWord nbits w).codeV = s.codeV := rfl
@[simp] theorem State.withFetchWord_dstate (nbits w : Nat) : (s.withFetchWord nbits w).dstate = s.dstate := rfl
@[simp] theorem State.withFetchWord_fmt (nbits w : Nat) : (s.withFetchWord nbits w).fmt = s.fmt := rfl
@[simp] theorem State.withFetchWord_len (nbits w : Nat) : (s.withFetchWord nbits w).len = s.len := rfl
@[simp] theorem State.withFetchWord_bitLen (nbits w : Nat) : (s.withFetchWord nbits w).bitLen = s.bitLen := rfl
@[simp] theorem State.withFetchWord_outLen (nbits w : Nat) : (s.withFetchWord nbits w).outLen = s.outLen := rfl
@[simp] theorem State.withFetchWord_errInfo (nbits w : Nat) : (s.withFetchWord nbits w).errInfo = s.errInfo := rfl
@[simp] theorem State.withFetchWord_root (nbits w : Nat) : (s.withFetchWord nbits w).root = s.root := rfl
@[simp] theorem State.withFetchWord_nodeCnt (nbits w : Nat) : (s.withFetchWord nbits w).nodeCnt = s.nodeCnt := rfl
@[simp] theorem State.withFetchWord_freq (nbits w : Nat) : (s.withFetchWord nbits w).freq = s.freq := rfl
@[simp] theorem State.withFetchWord_node (nbits w : Nat) : (s.withFetchWord nbits w).node = s.node := rfl
@[simp] theorem State.withFetchWord_active (nbits w : Nat) : (s.withFetchWord nbits w).active = s.active := rfl
@[simp] theorem State.withFetchWord_code (nbits w : Nat) : (s.withFetchWord nbits w).code = s.code := rfl
@[simp] theorem State.withFetchWord_sym (nbits w : Nat) : (s.withFetchWord nbits w).sym = s.sym := rfl
@[simp] theorem State.withFetchWord_out (nbits w : Nat) : (s.withFetchWord nbits w).out = s.out := rfl
@[simp] theorem State.withFetchWord_bits (nbits w : Nat) : (s.withFetchWord nbits w).bits = s.bits := rfl
@[simp] theorem State.withFetchWord_symPos (nbits w : Nat) : (s.withFetchWord nbits w).symPos = s.symPos := rfl
@[simp] theorem State.withFetchWord_bitPos (nbits w : Nat) : (s.withFetchWord nbits w).bitPos = s.bitPos := rfl
@[simp] theorem State.withFetchWord_pos (nbits w : Nat) : (s.withFetchWord nbits w).pos = s.pos := rfl
@[simp] theorem State.withFetchWord_cur (nbits w : Nat) : (s.withFetchWord nbits w).cur = s.cur := rfl
@[simp] theorem State.withFetchWord_nalloc (nbits w : Nat) : (s.withFetchWord nbits w).nalloc = s.nalloc := rfl
@[simp] theorem State.withFetchWord_regA (nbits w : Nat) : (s.withFetchWord nbits w).regA = s.regA := rfl
@[simp] theorem State.withFetchWord_regB (nbits w : Nat) : (s.withFetchWord nbits w).regB = s.regB := rfl
@[simp] theorem State.withFetchWord_path (nbits w : Nat) : (s.withFetchWord nbits w).path = s.path := rfl
@[simp] theorem State.withFetchWord_stack (nbits w : Nat) : (s.withFetchWord nbits w).stack = s.stack := rfl
@[simp] theorem State.withFetchWord_epoch (nbits w : Nat) : (s.withFetchWord nbits w).epoch = s.epoch := rfl
@[simp] theorem State.withFetchWord_pending (nbits w : Nat) :
    (s.withFetchWord nbits w).pending = commandWrite nbits w :: s.pending := rfl
@[simp] theorem State.withFetchWord_response (nbits w : Nat) :
    (s.withFetchWord nbits w).response = s.response := rfl

/-! ### `buildUnit`: BUILD behind the gate (41_tree_builder.md R130, R146) -/

@[simp] theorem buildUnit_codeV : (buildUnit s).codeV = false := rfl
theorem buildUnit_node :
    (buildUnit s).node = putCells s.node 0 (buildForest s.freq s.regA.val s.regB.val).nodes := rfl
theorem buildUnit_tree : (buildUnit s).tree =
    if (buildForest s.freq s.regA.val s.regB.val).nodes.length = 0 then .empty else .valid := rfl
theorem buildUnit_root : (buildUnit s).root =
    Fin.ofNat 511 ((buildForest s.freq s.regA.val s.regB.val).nodes.length - 1) := rfl
theorem buildUnit_nodeCnt : (buildUnit s).nodeCnt =
    Fin.ofNat 512 (buildForest s.freq s.regA.val s.regB.val).nodes.length := rfl
@[simp] theorem buildUnit_cfg : (buildUnit s).cfg = s.cfg := rfl
@[simp] theorem buildUnit_err : (buildUnit s).err = s.err := rfl
@[simp] theorem buildUnit_errCode : (buildUnit s).errCode = s.errCode := rfl
@[simp] theorem buildUnit_dstate : (buildUnit s).dstate = s.dstate := rfl
@[simp] theorem buildUnit_fmt : (buildUnit s).fmt = s.fmt := rfl
@[simp] theorem buildUnit_len : (buildUnit s).len = s.len := rfl
@[simp] theorem buildUnit_bitLen : (buildUnit s).bitLen = s.bitLen := rfl
@[simp] theorem buildUnit_outLen : (buildUnit s).outLen = s.outLen := rfl
@[simp] theorem buildUnit_errInfo : (buildUnit s).errInfo = s.errInfo := rfl
@[simp] theorem buildUnit_freq : (buildUnit s).freq = s.freq := rfl
@[simp] theorem buildUnit_code : (buildUnit s).code = s.code := rfl
@[simp] theorem buildUnit_sym : (buildUnit s).sym = s.sym := rfl
@[simp] theorem buildUnit_out : (buildUnit s).out = s.out := rfl
@[simp] theorem buildUnit_bits : (buildUnit s).bits = s.bits := rfl
@[simp] theorem buildUnit_symPos : (buildUnit s).symPos = s.symPos := rfl
@[simp] theorem buildUnit_bitPos : (buildUnit s).bitPos = s.bitPos := rfl
@[simp] theorem buildUnit_pos : (buildUnit s).pos = s.pos := rfl
@[simp] theorem buildUnit_cur : (buildUnit s).cur = s.cur := rfl
@[simp] theorem buildUnit_path : (buildUnit s).path = s.path := rfl
@[simp] theorem buildUnit_stack : (buildUnit s).stack = s.stack := rfl
@[simp] theorem buildUnit_epoch : (buildUnit s).epoch = s.epoch := rfl
@[simp] theorem buildUnit_pending : (buildUnit s).pending = s.pending := rfl
@[simp] theorem buildUnit_response : (buildUnit s).response = s.response := rfl

end Sys2Proof.Machine
end

