-- ==== Sys2Proof/Laws/Dispatch.lean ====
section
/-! SUPPORT. What `exec` is for each command, behind the gate (60_exceptions.md R234) and under it. -/

namespace Sys2Proof.Machine

variable {s : State}

theorem exec_nop : exec .nop s = .next s := rfl

theorem exec_errack : exec .errack s = .next s.ackFault := rfl

theorem exec_clear : exec .clear s = .next s.cleared := rfl

theorem gated_of_err {body : State → Host.Outcome State Fault Refusal} (h : s.err = true) :
    gated s body = .next s := by
  unfold gated
  rw [h]
  rfl

theorem gated_of_no_err {body : State → Host.Outcome State Fault Refusal} (h : s.err = false) :
    gated s body = body s := by
  unfold gated
  rw [h]
  rfl

/-- Under a latched fault no command but CLEAR and ERRACK has an effect (60_exceptions.md R234). -/
theorem exec_of_err {i : Instr} (h : s.err = true) (h₁ : i ≠ .clear) (h₂ : i ≠ .errack) : exec i s = .next s := by
  cases i
  case nop => rfl
  case clear => exact absurd rfl h₁
  case errack => exact absurd rfl h₂
  case gentab => exact gated_of_err h
  case compress => exact gated_of_err h
  case count => exact gated_of_err (body := fun s => .next (countUnit s)) h
  case build => exact gated_of_err (body := fun s => .next (buildUnit s)) h
  case encode => exact gated_of_err (body := fun s => .next (encodeUnit s)) h
  case decode => exact gated_of_err (body := fun s => .next (decodeUnit .decode s)) h
  case decompress => exact gated_of_err (body := fun s => .next (decodeUnit .decompress s)) h

theorem exec_count (h : s.err = false) : exec .count s = .next (countUnit s) :=
  gated_of_no_err (body := fun s => .next (countUnit s)) h

theorem exec_build (h : s.err = false) : exec .build s = .next (buildUnit s) :=
  gated_of_no_err (body := fun s => .next (buildUnit s)) h

theorem exec_gentab (h : s.err = false) : exec .gentab s = gentabUnit s := gated_of_no_err h

theorem exec_encode (h : s.err = false) : exec .encode s = .next (encodeUnit s) :=
  gated_of_no_err (body := fun s => .next (encodeUnit s)) h

theorem exec_decode (h : s.err = false) : exec .decode s = .next (decodeUnit .decode s) :=
  gated_of_no_err (body := fun s => .next (decodeUnit .decode s)) h

theorem exec_compress (h : s.err = false) : exec .compress s = compressUnit s := gated_of_no_err h

theorem exec_decompress (h : s.err = false) : exec .decompress s = .next (decodeUnit .decompress s) :=
  gated_of_no_err (body := fun s => .next (decodeUnit .decompress s)) h

/-- DECODE and DECOMPRESS are one unit (44_decoder.md R195). -/
theorem exec_decoder (h : s.err = false) {i : Instr} (hi : i ∈ [Instr.decode, .decompress]) :
    exec i s = .next (decodeUnit i s) := by
  rcases List.mem_pair.1 hi with rfl | rfl
  · exact exec_decode h
  · exact exec_decompress h

end Sys2Proof.Machine
end

