-- ==== Sys2Proof/Laws/Memory.lean ====
section
/-! SUPPORT. The laws of a memory: a read after a write, the canonical form, the bound on the indices. -/

namespace Sys2Proof.Machine

variable {α : Type}

/-- A read after a write: the value written at that index, the old cell at every other. -/
theorem cellAt_putCell (m : Store α) (k j : Nat) (v : α) :
    cellAt (putCell m k v) j = if k = j then some v else cellAt m j := by
  induction m with
  | nil => simp [putCell, cellAt]
  | cons c m ih =>
    obtain ⟨i, w⟩ := c
    unfold putCell
    split
    · simp [cellAt]
    · split
      · subst_vars
        simp only [cellAt]
        split <;> simp
      · simp only [cellAt, ih]
        split <;> split <;> first | rfl | omega

@[simp] theorem cellAt_putCell_same (m : Store α) (k : Nat) (v : α) : cellAt (putCell m k v) k = some v := by
  simp [cellAt_putCell]

theorem cellAt_putCell_other (m : Store α) {k j : Nat} (v : α) (h : k ≠ j) :
    cellAt (putCell m k v) j = cellAt m j := by
  simp [cellAt_putCell, h]

/-- The indices of a memory after a write are the old ones and the one written. -/
theorem mem_putCell {m : Store α} {k : Nat} {v : α} {c : Nat × α} (h : c ∈ putCell m k v) :
    c = (k, v) ∨ c ∈ m := by
  induction m with
  | nil => simpa [putCell] using h
  | cons d m ih =>
    obtain ⟨i, w⟩ := d
    unfold putCell at h
    split at h
    · simpa using h
    · split at h
      · rcases List.mem_cons.1 h with h | h <;> simp [h]
      · rcases List.mem_cons.1 h with h | h
        · simp [h]
        · rcases ih h with h | h <;> simp [h]

/-- A write keeps the canonical form. -/
theorem storeWf_putCell {m : Store α} (k : Nat) (v : α) (h : storeWf m = true) : storeWf (putCell m k v) = true := by
  induction m with
  | nil => rfl
  | cons c m ih =>
    obtain ⟨i, w⟩ := c
    simp only [storeWf, Bool.and_eq_true, List.all_eq_true, decide_eq_true_eq] at h
    unfold putCell
    split
    · rename_i hk
      simp only [storeWf, Bool.and_eq_true, List.all_eq_true, decide_eq_true_eq]
      refine ⟨fun c hc => ?_, h⟩
      rcases List.mem_cons.1 hc with rfl | hc
      · exact hk
      · exact lt_trans hk (h.1 c hc)
    · split
      · rename_i hk
        subst hk
        simpa only [storeWf, Bool.and_eq_true, List.all_eq_true, decide_eq_true_eq] using h
      · rename_i h1 h2
        simp only [storeWf, Bool.and_eq_true, List.all_eq_true, decide_eq_true_eq]
        refine ⟨fun c hc => ?_, ih h.2⟩
        rcases mem_putCell hc with rfl | hc
        · simp only; omega
        · exact h.1 c hc

/-- A write below the bound keeps the bound on the indices. -/
theorem keysBelow_putCell {m : Store α} {n k : Nat} (v : α) (h : keysBelow m n = true) (hk : k < n) :
    keysBelow (putCell m k v) n = true := by
  simp only [keysBelow, List.all_eq_true, decide_eq_true_eq] at h ⊢
  intro c hc
  rcases mem_putCell hc with rfl | hc
  · exact hk
  · exact h c hc

theorem cellAt_eq_none_of_keysBelow {m : Store α} {n k : Nat} (h : keysBelow m n = true) (hk : n ≤ k) :
    cellAt m k = none := by
  induction m with
  | nil => rfl
  | cons c m ih =>
    obtain ⟨i, w⟩ := c
    simp only [keysBelow, List.all_cons, Bool.and_eq_true, decide_eq_true_eq] at h
    simp only [cellAt]
    rw [if_neg (by omega)]
    exact ih h.2

/-- Two memories in canonical form that list the same cells are the same memory. -/
theorem eq_of_cellAt {m₁ m₂ : Store α} (h₁ : storeWf m₁ = true) (h₂ : storeWf m₂ = true)
    (h : ∀ k, cellAt m₁ k = cellAt m₂ k) : m₁ = m₂ := by
  have low : ∀ {m : Store α} {i : Nat}, (∀ c ∈ m, i < c.1) → cellAt m i = none := by
    intro m i hm
    induction m with
    | nil => rfl
    | cons c m ih =>
      obtain ⟨j, w⟩ := c
      have := hm (j, w) (by simp)
      simp only [cellAt]
      rw [if_neg (by simp only at this; omega)]
      exact ih fun c hc => hm c (by simp [hc])
  induction m₁ generalizing m₂ with
  | nil =>
    cases m₂ with
    | nil => rfl
    | cons c m₂ => obtain ⟨j, w⟩ := c; simpa [cellAt] using h j
  | cons c m₁ ih =>
    obtain ⟨i, v⟩ := c
    simp only [storeWf, Bool.and_eq_true, List.all_eq_true, decide_eq_true_eq] at h₁
    cases m₂ with
    | nil => simpa [cellAt] using h i
    | cons d m₂ =>
      obtain ⟨j, w⟩ := d
      simp only [storeWf, Bool.and_eq_true, List.all_eq_true, decide_eq_true_eq] at h₂
      have hij : i = j := by
        rcases lt_trichotomy i j with hlt | heq | hgt
        · have hi := h i
          simp only [cellAt, if_true] at hi
          rw [if_neg (by omega), low fun c hc => lt_trans hlt (h₂.1 c hc)] at hi
          simp at hi
        · exact heq
        · have hj := h j
          simp only [cellAt, if_true] at hj
          rw [if_neg (by omega), low fun c hc => lt_trans hgt (h₁.1 c hc)] at hj
          simp at hj
      subst hij
      have hv : v = w := by simpa [cellAt] using h i
      subst hv
      have : m₁ = m₂ := by
        refine ih h₁.2 h₂.2 fun k => ?_
        by_cases hk : i = k
        · subst hk
          rw [low h₁.1, low h₂.1]
        · simpa [cellAt, hk] using h k
      rw [this]

/-- A byte read after a write. -/
theorem byteAt_putCell (free : Nat → Byte) (m : Memory) (k j : Nat) (v : Byte) :
    byteAt free (putCell m k v) j = if k = j then v else byteAt free m j := by
  unfold byteAt
  rw [cellAt_putCell]
  split <;> rfl

/-- The canonical form of a byte-wide memory is kept by a write. -/
theorem Memory.wf_putCell {m : Memory} (k : Nat) (v : Byte) (h : Memory.wf m = true) :
    Memory.wf (putCell m k v) = true := storeWf_putCell k v h

/-! ### A run of writes -/

theorem cellAt_putCells (m : Store α) (k : Nat) (vs : List α) (j : Nat) :
    cellAt (putCells m k vs) j = if k ≤ j ∧ j < k + vs.length then vs[j - k]? else cellAt m j := by
  induction vs generalizing m k with
  | nil => rw [putCells, if_neg (by simp)]
  | cons v vs ih =>
    rw [putCells, ih, cellAt_putCell, List.length_cons]
    by_cases h : k = j
    · subst h
      rw [if_neg (by omega), if_pos rfl, if_pos (by omega), Nat.sub_self]
      rfl
    · by_cases h2 : k + 1 ≤ j ∧ j < k + 1 + vs.length
      · rw [if_pos h2, if_pos (by omega)]
        obtain ⟨l, rfl⟩ : ∃ l, j = k + 1 + l := ⟨j - (k + 1), by omega⟩
        rw [show k + 1 + l - (k + 1) = l by omega, show k + 1 + l - k = l + 1 by omega]
        rfl
      · rw [if_neg h2, if_neg h, if_neg (by omega)]

theorem storeWf_putCells {m : Store α} (k : Nat) (vs : List α) (h : storeWf m = true) :
    storeWf (putCells m k vs) = true := by
  induction vs generalizing m k with
  | nil => exact h
  | cons v vs ih => exact ih _ (storeWf_putCell _ _ h)

theorem keysBelow_putCells {m : Store α} {b k : Nat} (vs : List α) (h : keysBelow m b = true)
    (hk : k + vs.length ≤ b) : keysBelow (putCells m k vs) b = true := by
  induction vs generalizing m k with
  | nil => exact h
  | cons v vs ih =>
    rw [List.length_cons] at hk
    exact ih (keysBelow_putCell _ h (by omega)) (by omega)

/-! ### The frequency table -/

theorem freqAt_putFreq (f : Freq) (i j : Nat) (v : Word) (hi : i < 256) :
    freqAt (putFreq f i v) j = if i = j then v else freqAt f j := by
  unfold freqAt putFreq
  rw [Vector.getElem?_setIfInBounds]
  split
  · simp
  · rfl

@[simp] theorem freqAt_zeroFreq (i : Nat) : freqAt zeroFreq i = 0#32 := by
  unfold freqAt zeroFreq
  rw [Vector.getElem?_replicate]
  split <;> rfl

end Sys2Proof.Machine
end

