-- ==== Sys2Proof/Laws/Operands.lean ====
section
/-! SUPPORT. The laws of the operands: stream elements after a write in both formats, the code an entry
holds, the node record and its words, the byte lanes of a bus word. -/

namespace Sys2Proof.Machine

/-! ### The input sequence -/

@[simp] theorem length_inputSeq (s : State) : s.inputSeq.length = s.len.toNat := by
  simp [State.inputSeq]

@[simp] theorem length_elems (s : State) : s.elems.length = s.bitLen.toNat := by
  simp [State.elems]

/-! ### Stream elements -/

theorem getLsbD_setBit (x : Byte) {i : Nat} (b : Bool) (j : Nat) (hi : i < 8) :
    (setBit x i b).getLsbD j = if i = j then b else x.getLsbD j := by
  by_cases hj : j < 8
  · have hs : (1#8 <<< i).getLsbD j = decide (i = j) := by
      simp only [BitVec.getLsbD_shiftLeft, BitVec.getLsbD_one]
      by_cases h : i = j
      · subst h; simp [hj]
      · simp [h, hj]; omega
    cases b
    · simp only [setBit, Bool.false_eq_true, if_false, BitVec.getLsbD_and, BitVec.getLsbD_not, hs, hj]
      by_cases h : i = j <;> simp [h]
    · simp only [setBit, if_true, BitVec.getLsbD_or, hs]
      by_cases h : i = j <;> simp [h]
  · rw [if_neg (by omega), BitVec.getLsbD_of_ge _ j (by omega), BitVec.getLsbD_of_ge _ j (by omega)]

theorem charElem_digit (b : Bool) : charElem (0x30#8 + (BitVec.ofBool b).zeroExtend 8) = bitElem b := by
  cases b <;> decide

/-- `elem` after `putelem`: the bit written at that index, the old class at every other (30_encoding.md R102, R103). -/
theorem elemAt_putElem (fmt : Format) (free : Nat → Byte) (m : Memory) (i j : Nat) (b : Bool) :
    elemAt fmt (byteAt free (putElem fmt free m i b)) j =
      if i = j then bitElem b else elemAt fmt (byteAt free m) j := by
  cases fmt
  · simp only [elemAt, putElem, byteAt_putCell]
    by_cases h : i = j
    · simp only [h, if_true, charElem_digit]
    · simp only [h, if_false]
  · simp only [elemAt, putElem, byteAt_putCell]
    by_cases h : i / 8 = j / 8
    · simp only [h, if_true, getLsbD_setBit _ _ _ (Nat.mod_lt i (by decide : 0 < 8))]
      by_cases h' : i = j
      · simp [h']
      · rw [if_neg (by omega), if_neg h']
    · have h' : i ≠ j := fun e => h (by rw [e])
      simp only [h, h', if_false]

/-- `elem` after a run of `putelem` from index `i` on. -/
theorem elemAt_putElems (fmt : Format) (free : Nat → Byte) (bs : List Bool) (m : Memory) (i j : Nat) :
    elemAt fmt (byteAt free (putElems fmt free m i bs)) j =
      if i ≤ j ∧ j < i + bs.length then bitElem (bs.getD (j - i) false) else elemAt fmt (byteAt free m) j := by
  induction bs generalizing m i with
  | nil => rw [putElems, if_neg (by simp)]
  | cons b bs ih =>
    rw [putElems, ih, elemAt_putElem, List.length_cons]
    by_cases h : i = j
    · subst h
      rw [if_neg (by omega), if_pos rfl, if_pos (by omega)]
      simp
    · by_cases h2 : i + 1 ≤ j ∧ j < i + 1 + bs.length
      · rw [if_pos h2, if_pos (by omega)]
        obtain ⟨k, hk⟩ : ∃ k, j - i = k + 1 := ⟨j - i - 1, by omega⟩
        rw [hk, show j - (i + 1) = k by omega]
        rfl
      · rw [if_neg h2, if_neg h, if_neg (by omega)]

/-- Writing a run of elements in two parts. -/
theorem putElems_append (fmt : Format) (free : Nat → Byte) (bs cs : List Bool) (m : Memory) (i : Nat) :
    putElems fmt free m i (bs ++ cs) = putElems fmt free (putElems fmt free m i bs) (i + bs.length) cs := by
  induction bs generalizing m i with
  | nil => simp [putElems]
  | cons b bs ih =>
    simp only [List.cons_append, putElems, List.length_cons]
    rw [ih]
    congr 1
    omega

theorem wf_putElem (fmt : Format) (free : Nat → Byte) {m : Memory} (i : Nat) (b : Bool) (h : Memory.wf m = true) :
    Memory.wf (putElem fmt free m i b) = true := by
  cases fmt <;> exact Memory.wf_putCell _ _ h

theorem wf_putElems (fmt : Format) (free : Nat → Byte) (bs : List Bool) {m : Memory} (i : Nat)
    (h : Memory.wf m = true) : Memory.wf (putElems fmt free m i bs) = true := by
  induction bs generalizing m i with
  | nil => exact h
  | cons b bs ih => exact ih _ (wf_putElem fmt free i b h)

theorem cellAt_putElem_other (fmt : Format) (free : Nat → Byte) (m : Memory) (i k : Nat) (b : Bool)
    (h : elemByte fmt i ≠ k) : cellAt (putElem fmt free m i b) k = cellAt m k := by
  cases fmt <;> exact cellAt_putCell_other m _ h

/-- A run of `putelem` leaves every byte alone that holds none of its elements. -/
theorem cellAt_putElems_other (fmt : Format) (free : Nat → Byte) (bs : List Bool) (m : Memory) (i k : Nat)
    (h : ∀ j, i ≤ j → j < i + bs.length → elemByte fmt j ≠ k) :
    cellAt (putElems fmt free m i bs) k = cellAt m k := by
  induction bs generalizing m i with
  | nil => rfl
  | cons b bs ih =>
    rw [List.length_cons] at h
    rw [putElems, ih _ _ fun j hj hj' => h j (by omega) (by omega),
      cellAt_putElem_other fmt free m i k b (h i (by omega) (by omega))]

/-- A field inside the low part of a concatenation. -/
theorem extract_append_low {w v : Nat} (x : BitVec w) (y : BitVec v) {i n : Nat} (h : i + n ≤ v) :
    (x ++ y).extractLsb' i n = y.extractLsb' i n := by
  apply BitVec.eq_of_getLsbD_eq
  intro j hj
  simp only [BitVec.getLsbD_extractLsb', BitVec.getLsbD_append, hj, decide_true, Bool.true_and]
  rw [if_pos (by omega)]

/-- A field inside the high part of a concatenation. -/
theorem extract_append_high {w v : Nat} (x : BitVec w) (y : BitVec v) {i n : Nat} (h : v ≤ i) :
    (x ++ y).extractLsb' i n = x.extractLsb' (i - v) n := by
  apply BitVec.eq_of_getLsbD_eq
  intro j hj
  simp only [BitVec.getLsbD_extractLsb', BitVec.getLsbD_append, hj, decide_true, Bool.true_and]
  rw [if_neg (by omega), show i + j - v = i - v + j by omega]

/-- CHAR: the bytes written are the digits of the elements (30_encoding.md R102). -/
theorem byteAt_putElems_char (free : Nat → Byte) (bs : List Bool) (m : Memory) (i k : Nat) :
    byteAt free (putElems .char free m i bs) k =
      if i ≤ k ∧ k < i + bs.length then (if bs.getD (k - i) false then 0x31#8 else 0x30#8) else byteAt free m k := by
  induction bs generalizing m i with
  | nil =>
    rw [putElems, if_neg]
    simp only [List.length_nil]
    omega
  | cons b bs ih =>
    rw [putElems, ih, putElem, byteAt_putCell, List.length_cons]
    by_cases hik : i = k
    · subst hik
      rw [if_neg (by omega), if_pos rfl, if_pos (by omega), Nat.sub_self, List.getD_cons_zero]
      cases b <;> rfl
    · rw [if_neg hik]
      by_cases h : i + 1 ≤ k ∧ k < i + 1 + bs.length
      · rw [if_pos h, if_pos (show i ≤ k ∧ k < i + (bs.length + 1) by omega), show k - i = k - (i + 1) + 1 by omega,
          List.getD_cons_succ]
      · rw [if_neg h, if_neg (by omega)]

theorem bitElem_inj {b c : Bool} (h : bitElem b = bitElem c) : b = c := by
  cases b <;> cases c <;> first | rfl | cases h

/-- PACKED: bit `j` of byte `k` is element `8*k + j` (30_encoding.md R103). -/
theorem bit_putElems_packed (free : Nat → Byte) (bs : List Bool) (m : Memory) (i k : Nat) {j : Nat} (hj : j < 8) :
    (byteAt free (putElems .packed free m i bs) k).getLsbD j =
      if i ≤ 8 * k + j ∧ 8 * k + j < i + bs.length then bs.getD (8 * k + j - i) false
      else (byteAt free m k).getLsbD j := by
  have h := elemAt_putElems .packed free bs m i (8 * k + j)
  simp only [elemAt, show (8 * k + j) / 8 = k by omega, show (8 * k + j) % 8 = j by omega] at h
  rw [← apply_ite bitElem] at h
  exact bitElem_inj h

theorem keysBelow_putElems (fmt : Format) (free : Nat → Byte) (bs : List Bool) {m : Memory} {n i : Nat}
    (h : keysBelow m n = true) (hb : ∀ j, i ≤ j → j < i + bs.length → elemByte fmt j < n) :
    keysBelow (putElems fmt free m i bs) n = true := by
  induction bs generalizing m i with
  | nil => exact h
  | cons b bs ih =>
    rw [List.length_cons] at hb
    refine ih ?_ fun j hj hj' => hb j (by omega) (by omega)
    have := hb i (by omega) (by omega)
    cases fmt <;> exact keysBelow_putCell _ h this

/-! ### The code-table entry -/

@[simp] theorem CodeEntry.valid_ofPath (p : List Bool) : (CodeEntry.ofPath p).valid = true := rfl

theorem CodeEntry.len_ofPath {p : List Bool} (h : p.length ≤ 255) : (CodeEntry.ofPath p).len.toNat = p.length := by
  simp only [CodeEntry.ofPath, BitVec.toNat_ofNat]
  omega

/-- An entry holds the code that was put in it (42_code_table_generator.md R150, 30_encoding.md R98). -/
theorem CodeEntry.code_ofPath {p : List Bool} (h : p.length ≤ 255) : (CodeEntry.ofPath p).code = p := by
  refine List.ext_getElem ?_ fun j h₁ h₂ => ?_
  · simp [CodeEntry.code, CodeEntry.len_ofPath h]
  · simp only [CodeEntry.code, List.getElem_map, List.getElem_range, CodeEntry.ofPath, BitVec.getLsbD_setWidth,
      BitVec.getLsbD_ofBoolListLE]
    rw [List.getD_eq_getElem _ _ h₂]
    simp
    omega

theorem CodeEntry.length_code (e : CodeEntry) : e.code.length = e.len.toNat := by
  simp [CodeEntry.code]

/-- "every other bit of words 1..8 is zero" (30_encoding.md R98). -/
theorem CodeEntry.bits_ofPath (p : List Bool) (j : Nat) (h : p.length ≤ j) :
    (CodeEntry.ofPath p).bits.getLsbD j = false := by
  simp [CodeEntry.ofPath, BitVec.getLsbD_setWidth, BitVec.getLsbD_ofBoolListLE, List.getD_eq_getElem?_getD,
    List.getElem?_eq_none h]

/-! ### Byte lanes -/

theorem wordOfBytes_lane (rd : Nat → Byte) (limit w : Nat) {l : Nat} (hl : l < 4) :
    laneOf (wordOfBytes rd limit w) l = if 4 * w + l < limit then rd (4 * w + l) else 0#8 := by
  have : l = 0 ∨ l = 1 ∨ l = 2 ∨ l = 3 := by omega
  rcases this with rfl | rfl | rfl | rfl <;>
    (unfold laneOf wordOfBytes
     generalize hg : (fun l => if 4 * w + l < limit then rd (4 * w + l) else 0#8) = lane
     have e : ∀ l, lane l = if 4 * w + l < limit then rd (4 * w + l) else 0#8 := fun l => by rw [← hg]
     rw [← e]
     apply BitVec.eq_of_getLsbD_eq
     intro i hi
     simp only [BitVec.getLsbD_extractLsb', BitVec.getLsbD_append, hi]
     simp
     try (repeat' split) <;> first | rfl | omega | (congr 1; omega))

/-- A bus word is its four lanes. -/
theorem word_eq_of_lanes {v w : Word} (h : ∀ l, l < 4 → laneOf v l = laneOf w l) : v = w := by
  apply BitVec.eq_of_getLsbD_eq
  intro i hi
  have := congrArg (fun x : Byte => x.getLsbD (i % 8)) (h (i / 8) (by omega))
  simp only [laneOf, BitVec.getLsbD_extractLsb'] at this
  rw [show 8 * (i / 8) + i % 8 = i by omega, decide_eq_true (Nat.mod_lt i (by decide : 0 < 8))] at this
  simpa using this

/-- One lane stored: the byte it is for, where that byte exists. -/
theorem cellAt_putLane (limit w : Nat) (v : Word) (m : Memory) (l k : Nat) :
    cellAt (putLane limit w v m l) k =
      if k = 4 * w + l ∧ k < limit then some (laneOf v l) else cellAt m k := by
  unfold putLane
  by_cases h : 4 * w + l < limit
  · rw [if_pos h, cellAt_putCell]
    by_cases hk : 4 * w + l = k
    · rw [if_pos hk, if_pos (by omega)]
    · rw [if_neg hk, if_neg (by omega)]
  · rw [if_neg h, if_neg (by omega)]

/-- A stored bus word: its four bytes where they exist, every other byte as before (20_memory.md R64, R67). -/
theorem cellAt_putWord (limit w : Nat) (v : Word) (m : Memory) (k : Nat) :
    cellAt (putWord limit w v m) k =
      if k / 4 = w ∧ k < limit then some (laneOf v (k % 4)) else cellAt m k := by
  unfold putWord
  simp only [cellAt_putLane]
  by_cases hw : k / 4 = w ∧ k < limit
  · rw [if_pos hw]
    have hm : k % 4 = 0 ∨ k % 4 = 1 ∨ k % 4 = 2 ∨ k % 4 = 3 := by omega
    rcases hm with hm | hm | hm | hm <;> rw [hm]
    · rw [if_neg (by omega), if_neg (by omega), if_neg (by omega), if_pos (by omega)]
    · rw [if_neg (by omega), if_neg (by omega), if_pos (by omega)]
    · rw [if_neg (by omega), if_pos (by omega)]
    · rw [if_pos (by omega)]
  · rw [if_neg hw, if_neg (by omega), if_neg (by omega), if_neg (by omega), if_neg (by omega)]

theorem wf_putLane (limit w : Nat) (v : Word) {m : Memory} (l : Nat) (h : Memory.wf m = true) :
    Memory.wf (putLane limit w v m l) = true := by
  unfold putLane
  split
  · exact Memory.wf_putCell _ _ h
  · exact h

theorem wf_putWord (limit w : Nat) (v : Word) {m : Memory} (h : Memory.wf m = true) :
    Memory.wf (putWord limit w v m) = true :=
  wf_putLane _ _ _ _ (wf_putLane _ _ _ _ (wf_putLane _ _ _ _ (wf_putLane _ _ _ _ h)))

theorem keysBelow_putLane {limit w : Nat} {v : Word} {m : Memory} (l : Nat) (h : keysBelow m limit = true) :
    keysBelow (putLane limit w v m l) limit = true := by
  unfold putLane
  split
  · exact keysBelow_putCell _ h ‹_›
  · exact h

theorem keysBelow_putWord {limit w : Nat} {v : Word} {m : Memory} (h : keysBelow m limit = true) :
    keysBelow (putWord limit w v m) limit = true :=
  keysBelow_putLane _ (keysBelow_putLane _ (keysBelow_putLane _ (keysBelow_putLane _ h)))

end Sys2Proof.Machine
end

