-- ==== Sys2Proof/Laws/Bus.lean ====
section
/-! SUPPORT. The laws of the bus: where an address leads (20_memory.md R66, R67), what a write does, and the decoder
of command words (30_encoding.md R91). -/

namespace Sys2Proof.Machine

/-! ### Command words -/

/-- A word whose field ZERO is 0 is its field OPC zero-extended (30_encoding.md R90). -/
theorem zeroExtend_opcField {w : Word} (h : zeroField w = 0#24) : (opcField w).zeroExtend 32 = w := by
  have hz := congrArg BitVec.toNat h
  unfold zeroField at hz
  have hw := w.isLt
  apply BitVec.eq_of_toNat_eq
  simp only [opcField, BitVec.toNat_setWidth, BitVec.extractLsb'_toNat, BitVec.toNat_ofNat,
    Nat.shiftRight_eq_div_pow] at hz ⊢
  omega

/-- The opcode map gives each command one opcode (30_encoding.md R92). -/
theorem opcode_of_decodeOpc {b : Byte} {i : Instr} (h : decodeOpc b = .command i) : b = opcode i := by
  have hb : b = BitVec.ofNat 8 b.toNat := by simp
  unfold decodeOpc at h
  split at h <;> first
    | cases h; done
    | (rename_i hn
       rw [hb, hn]
       cases h
       rfl)

/-! ### Where an address leads -/

/-- The windows do not overlap: an address of one is in no other (00_scope.md R7). -/
theorem allDisjoint_mem {ws : List (Nat × Nat)} (h : allDisjoint ws = true) :
    ws.Pairwise (fun a b => a.1 + a.2 ≤ b.1 ∨ b.1 + b.2 ≤ a.1) := by
  induction ws with
  | nil => exact .nil
  | cons w ws ih =>
    unfold allDisjoint at h
    rw [Bool.and_eq_true, List.all_eq_true] at h
    refine .cons (fun b hb => ?_) (ih h.2)
    simpa [windowsDisjoint] using h.1 b hb

theorem inWindow_iff {base size a : Nat} : inWindow base size a = true ↔ base ≤ a ∧ a < base + size := by
  unfold inWindow
  simp only [Bool.and_eq_true, decide_eq_true_eq]

/-- The facts of a legal parameter set (00_scope.md R7). -/
structure WindowsOk (p : Params) : Prop where
  maxLen : 1 ≤ p.maxLen ∧ p.maxLen < 2 ^ 32
  maxBits : p.maxBits % 32 = 0 ∧ p.maxBits < 2 ^ 32
  aligned : p.symBase % 4 = 0 ∧ p.outBase % 4 = 0 ∧ p.bitsBase % 4 = 0
  disjoint : p.windows.Pairwise (fun a b => a.1 + a.2 ≤ b.1 ∨ b.1 + b.2 ≤ a.1)

theorem windowsOk {p : Params} (h : p.wf = true) : WindowsOk p := by
  unfold Params.wf at h
  simp only [Bool.and_eq_true, decide_eq_true_eq] at h
  obtain ⟨⟨⟨⟨⟨⟨⟨h1, h2⟩, h3⟩, h4⟩, h5⟩, h6⟩, h7⟩, h8⟩ := h
  exact ⟨⟨h1, h2⟩, ⟨h3, h4⟩, ⟨h5, h6, h7⟩, allDisjoint_mem h8⟩

section Locate

variable {p : Params} {a : Nat}

theorem locate_misaligned (h : a % 4 ≠ 0) : locate p a = .unmapped := if_neg h

theorem regAt_isSome (h : a % 4 = 0) (hlt : a < 0x2C) : (regAt a).isSome := by
  have : a = 0 ∨ a = 4 ∨ a = 8 ∨ a = 12 ∨ a = 16 ∨ a = 20 ∨ a = 24 ∨ a = 28 ∨ a = 32 ∨ a = 36 ∨ a = 40 := by omega
  rcases this with rfl | rfl | rfl | rfl | rfl | rfl | rfl | rfl | rfl | rfl | rfl <;> rfl

theorem locate_freq {i : Nat} (h : i < 256) : locate p (0x400 + 4 * i) = .freq i := by
  unfold locate locateAligned
  rw [if_pos (by omega), if_neg (by omega), if_pos (inWindow_iff.2 (by omega))]
  congr 1
  omega

theorem locate_node {i j : Nat} (h : i < 511) (hj : j < 4) : locate p (0x2000 + 16 * i + 4 * j) = .node i j := by
  unfold locate locateAligned
  rw [if_pos (by omega), if_neg (by omega), if_neg (by rw [inWindow_iff]; omega),
    if_pos (inWindow_iff.2 (by omega))]
  congr 1 <;> omega

theorem locate_code {k j : Nat} (h : k < 257) (hj : j < 16) : locate p (0x4000 + 64 * k + 4 * j) = .code k j := by
  unfold locate locateAligned
  rw [if_pos (by omega), if_neg (by omega), if_neg (by rw [inWindow_iff]; omega),
    if_neg (by rw [inWindow_iff]; omega), if_pos (inWindow_iff.2 (by omega))]
  congr 1 <;> omega

/-- The four fixed windows and the window of SYM, OUT or BITS share no address. -/
theorem locate_sym (hw : WindowsOk p) {w : Nat} (h : 4 * w < roundUp4 p.maxLen) :
    locate p (p.symBase + 4 * w) = .sym w := by
  have hd := hw.disjoint
  have ha := hw.aligned
  simp only [Params.windows, List.pairwise_cons, List.mem_cons, List.not_mem_nil, or_false, forall_eq_or_imp,
    forall_eq] at hd
  unfold locate locateAligned
  rw [if_pos (by omega), if_neg (by omega), if_neg (by rw [inWindow_iff]; omega),
    if_neg (by rw [inWindow_iff]; omega), if_neg (by rw [inWindow_iff]; omega), if_pos (inWindow_iff.2 (by omega))]
  congr 1
  omega

theorem locate_out (hw : WindowsOk p) {w : Nat} (h : 4 * w < roundUp4 p.maxLen) :
    locate p (p.outBase + 4 * w) = .out w := by
  have hd := hw.disjoint
  have ha := hw.aligned
  simp only [Params.windows, List.pairwise_cons, List.mem_cons, List.not_mem_nil, or_false, forall_eq_or_imp,
    forall_eq] at hd
  unfold locate locateAligned
  rw [if_pos (by omega), if_neg (by omega), if_neg (by rw [inWindow_iff]; omega),
    if_neg (by rw [inWindow_iff]; omega), if_neg (by rw [inWindow_iff]; omega),
    if_neg (by rw [inWindow_iff]; omega), if_pos (inWindow_iff.2 (by omega))]
  congr 1
  omega

theorem locate_bits (hw : WindowsOk p) {w : Nat} (h : 4 * w < p.maxBits) :
    locate p (p.bitsBase + 4 * w) = .bits w := by
  have hd := hw.disjoint
  have ha := hw.aligned
  simp only [Params.windows, List.pairwise_cons, List.mem_cons, List.not_mem_nil, or_false, forall_eq_or_imp,
    forall_eq] at hd
  unfold locate locateAligned
  rw [if_pos (by omega), if_neg (by omega), if_neg (by rw [inWindow_iff]; omega),
    if_neg (by rw [inWindow_iff]; omega), if_neg (by rw [inWindow_iff]; omega),
    if_neg (by rw [inWindow_iff]; omega), if_neg (by rw [inWindow_iff]; omega),
    if_pos (inWindow_iff.2 (by omega))]
  congr 1
  omega

/-- What an aligned address leads to is in the window it stands in, and nothing where it stands in none
(20_memory.md R66). -/
theorem locate_unmapped_iff (h : a % 4 = 0) :
    locate p a = .unmapped ↔ ∀ w ∈ p.windows, ¬ (w.1 ≤ a ∧ a < w.1 + w.2) := by
  simp only [Params.windows, List.mem_cons, List.not_mem_nil, or_false, forall_eq_or_imp, forall_eq]
  unfold locate locateAligned
  rw [if_pos h]
  by_cases h1 : a < 0x2C
  · obtain ⟨r, hr⟩ := Option.isSome_iff_exists.1 (regAt_isSome h h1)
    rw [if_pos h1, hr]
    simp only [reduceCtorEq, false_iff]
    omega
  · rw [if_neg h1]
    simp only [← inWindow_iff (a := a)]
    have h0 : inWindow 0 0x2C a = false := by
      rw [← Bool.not_eq_true, inWindow_iff]; omega
    rw [h0]
    split <;> rename_i h2
    · simp [h2]
    · split <;> rename_i h3
      · simp [h3]
      · split <;> rename_i h4
        · simp [h4]
        · split <;> rename_i h5
          · simp [h5]
          · split <;> rename_i h6
            · simp [h6]
            · split <;> rename_i h7
              · simp [h7]
              · simp only [Bool.not_eq_true] at h2 h3 h4 h5 h6 h7
                simp [h2, h3, h4, h5, h6, h7]

end Locate

/-! ### Reads and writes -/

/-- A read answers ERROR exactly at an unmapped location (20_memory.md R62). -/
theorem busRead_cases (s : State) (a : Nat) :
    (locate s.cfg a = .unmapped ∧ s.busRead a = .readError 0#32) ∨
    (locate s.cfg a ≠ .unmapped ∧ ∃ d, s.busRead a = .readOk d) := by
  unfold State.busRead
  cases hl : locate s.cfg a <;> simp

/-- A write of everything but CMD (20_memory.md R63). -/
theorem performWrite_data {s : State} {a : Nat} {v : Word} (h : locate s.cfg a ≠ .reg .cmd) :
    performWrite a v s = .next ((s.respond (writeResponse (locate s.cfg a))).putLocation (locate s.cfg a) v) :=
  if_neg h

theorem writeResponse_ok {l : Location} (h : l ≠ .unmapped) : writeResponse l = .writeOk := by
  cases l <;> first | rfl | exact absurd rfl h

/-- Only address 0 is CMD (10_state.md R24). -/
theorem locate_cmd_iff {p : Params} {a : Nat} : locate p a = .reg .cmd ↔ a = 0 := by
  constructor
  · intro h
    unfold locate locateAligned at h
    split at h
    · split at h
      · rename_i ha hlt
        have : a = 0 ∨ a = 4 ∨ a = 8 ∨ a = 12 ∨ a = 16 ∨ a = 20 ∨ a = 24 ∨ a = 28 ∨ a = 32 ∨ a = 36 ∨ a = 40 := by
          omega
        rcases this with rfl | rfl | rfl | rfl | rfl | rfl | rfl | rfl | rfl | rfl | rfl <;>
          first | rfl | cases h
      · split at h
        · cases h
        · split at h
          · cases h
          · split at h
            · cases h
            · split at h
              · cases h
              · split at h
                · cases h
                · split at h <;> cases h
    · cases h
  · rintro rfl
    rfl

/-- The state of the block is what `putLocation` keeps of it (10_state.md R50, the host's column). -/
theorem putLocation_frame (s : State) (l : Location) (v : Word) :
    s.putLocation l v = { s with
      fmt := (s.putLocation l v).fmt, len := (s.putLocation l v).len, bitLen := (s.putLocation l v).bitLen,
      freq := (s.putLocation l v).freq, sym := (s.putLocation l v).sym, bits := (s.putLocation l v).bits } := by
  cases l with
  | reg r => cases r <;> rfl
  | freq i => rfl
  | node i j => rfl
  | code k j => rfl
  | sym w => rfl
  | out w => rfl
  | bits w => rfl
  | unmapped => rfl

end Sys2Proof.Machine
end

