-- ==== Sys2Proof/Laws/CodeTable.lean ====
section
/-! SUPPORT. The laws of GENTAB: paths in a tree, the depth bound (42_code_table_generator.md R156), and what
the walk records (R151). -/

namespace Sys2Proof.Machine

variable {node : NodeIdx → Node}

/-! ### Paths -/

/-- The child a bit selects. -/
def bitChild (n : Node) (b : Bool) : NodeIdx := if b then n.right else n.left

@[simp] theorem descend_nil (node : NodeIdx → Node) (n : NodeIdx) : descend node n [] = some n := rfl

theorem descend_cons_internal {n : NodeIdx} (h : (node n).kind = .internal) (b : Bool) (p : List Bool) :
    descend node n (b :: p) = descend node (bitChild (node n) b) p := by
  rw [descend, h]
  rfl

theorem descend_cons_leaf {n : NodeIdx} (h : (node n).kind = .leaf) (b : Bool) (p : List Bool) :
    descend node n (b :: p) = none := by
  rw [descend, h]

theorem NodeKind.cases (k : NodeKind) : k = .leaf ∨ k = .internal := by cases k <;> simp

theorem descend_cons_some {n l : NodeIdx} {b : Bool} {p : List Bool} (h : descend node n (b :: p) = some l) :
    (node n).kind = .internal ∧ descend node (bitChild (node n) b) p = some l := by
  rcases NodeKind.cases (node n).kind with hk | hk
  · rw [descend_cons_leaf hk] at h
    cases h
  · exact ⟨hk, by rwa [descend_cons_internal hk] at h⟩

theorem descend_append (n : NodeIdx) (p q : List Bool) :
    descend node n (p ++ q) = (descend node n p).bind (fun m => descend node m q) := by
  induction p generalizing n with
  | nil => rfl
  | cons b p ih =>
    rcases NodeKind.cases (node n).kind with hk | hk
    · rw [List.cons_append, descend_cons_leaf hk, descend_cons_leaf hk]
      rfl
    · rw [List.cons_append, descend_cons_internal hk, descend_cons_internal hk, ih]

theorem descend_append_some {n l : NodeIdx} {p q : List Bool} (h : descend node n (p ++ q) = some l) :
    ∃ m, descend node n p = some m ∧ descend node m q = some l := by
  rw [descend_append] at h
  exact Option.bind_eq_some_iff.1 h

section Tree

variable {cnt : Nat} {root : NodeIdx}

theorem TreeOk.child (t : TreeOk node cnt root) {n : NodeIdx} (hn : n.val < cnt) (hk : (node n).kind = .internal)
    (b : Bool) : (bitChild (node n) b).val < n.val ∧ IsChildOf node (bitChild (node n) b) n := by
  have h := t.nodes n hn
  unfold NodeOk at h
  rw [hk] at h
  cases b
  · exact ⟨h.2.1, hk, .inl rfl⟩
  · exact ⟨h.2.2.1, hk, .inr rfl⟩

theorem TreeOk.bitChild_inj (t : TreeOk node cnt root) {n : NodeIdx} (hn : n.val < cnt)
    (hk : (node n).kind = .internal) {b c : Bool} (h : bitChild (node n) b = bitChild (node n) c) : b = c := by
  have hne := t.nodes n hn
  unfold NodeOk at hne
  rw [hk] at hne
  cases b <;> cases c <;> simp only [bitChild, if_true, if_false, Bool.false_eq_true] at h <;> first
    | rfl
    | exact absurd h hne.2.2.2.1
    | exact absurd h.symm hne.2.2.2.1

/-- A path never leads to a larger index (41_tree_builder.md R145). -/
theorem TreeOk.descend_le (t : TreeOk node cnt root) {n l : NodeIdx} {p : List Bool} (hn : n.val < cnt)
    (h : descend node n p = some l) : l.val + p.length ≤ n.val := by
  induction p generalizing n with
  | nil => cases h; simp
  | cons b p ih =>
    obtain ⟨hk, h'⟩ := descend_cons_some h
    have hc := (t.child hn hk b).1
    have := ih (by omega) h'
    rw [List.length_cons]
    omega

/-- Every node of a tree is reached from ROOT (10_state.md R49 (e)). -/
theorem TreeOk.reached (t : TreeOk node cnt root) (c : NodeIdx) (hc : c.val < cnt) :
    ∃ p, descend node root p = some c := by
  have hroot := t.rootLast
  by_cases h : c.val < root.val
  · obtain ⟨i, hi, hci⟩ := t.hasParent c h
    have hlt : c.val < i.val := by
      rcases hci.2 with e | e
      · have := (t.child hi hci.1 false).1
        simp only [bitChild, Bool.false_eq_true, if_false] at this
        rw [e] at this; exact this
      · have := (t.child hi hci.1 true).1
        simp only [bitChild, if_true] at this
        rw [e] at this; exact this
    obtain ⟨p, hp⟩ := TreeOk.reached t i hi
    rcases hci.2 with e | e
    · refine ⟨p ++ [false], ?_⟩
      rw [descend_append, hp]
      show descend node i [false] = some c
      rw [descend_cons_internal hci.1]
      simp [bitChild, e]
    · refine ⟨p ++ [true], ?_⟩
      rw [descend_append, hp]
      show descend node i [true] = some c
      rw [descend_cons_internal hci.1]
      simp [bitChild, e]
  · exact ⟨[], by rw [descend_nil, Fin.ext (show root.val = c.val by omega)]⟩
termination_by cnt - c.val

theorem descend_snoc {n l : NodeIdx} {p : List Bool} {b : Bool} (h : descend node n (p ++ [b]) = some l) :
    ∃ m, descend node n p = some m ∧ (node m).kind = .internal ∧ bitChild (node m) b = l := by
  obtain ⟨m, hm, h'⟩ := descend_append_some h
  obtain ⟨hk, h''⟩ := descend_cons_some h'
  exact ⟨m, hm, hk, Option.some.inj h''⟩

/-- "every node other than ROOT has exactly one parent", so a node has one path (42_code_table_generator.md R151). -/
theorem TreeOk.path_unique (t : TreeOk node cnt root) (p q : List Bool) {c : NodeIdx}
    (hp : descend node root p = some c) (hq : descend node root q = some c) : p = q := by
  have hroot : root.val < cnt := by have := t.rootLast; omega
  induction p using List.reverseRecOn generalizing q c with
  | nil =>
    cases hp
    have := t.descend_le hroot hq
    exact (List.length_eq_zero_iff.1 (by omega)).symm
  | append_singleton p b ih =>
    obtain ⟨m, hm, hk, e⟩ := descend_snoc hp
    have hml := t.descend_le hroot hm
    have hm' : m.val < cnt := by omega
    rcases List.eq_nil_or_concat q with rfl | ⟨q', b', rfl⟩
    · cases hq
      have := (t.child hm' hk b).1
      rw [e] at this
      omega
    · rw [List.concat_eq_append] at hq ⊢
      obtain ⟨m', hm2, hk', e'⟩ := descend_snoc hq
      have hml' := t.descend_le hroot hm2
      have hmm : m = m' := t.oneParent c m m' hm' (by omega) (e ▸ (t.child hm' hk b).2)
        (e' ▸ (t.child (by omega) hk' b').2)
      subst hmm
      rw [ih q' hm hm2, t.bitChild_inj hm' hk (e.trans e'.symm)]

/-- The Internal nodes a path goes through. -/
def trail (node : NodeIdx → Node) : NodeIdx → List Bool → List NodeIdx
  | _, [] => []
  | n, b :: p => n :: trail node (bitChild (node n) b) p

theorem trail_length (node : NodeIdx → Node) (n : NodeIdx) (p : List Bool) : (trail node n p).length = p.length := by
  induction p generalizing n with
  | nil => rfl
  | cons b p ih => simp [trail, ih]

theorem TreeOk.mem_trail (t : TreeOk node cnt root) {n l : NodeIdx} {p : List Bool} (hn : n.val < cnt)
    (h : descend node n p = some l) {m : NodeIdx} (hm : m ∈ trail node n p) :
    m.val ≤ n.val ∧ (node m).kind = .internal := by
  induction p generalizing n with
  | nil => cases hm
  | cons b p ih =>
    obtain ⟨hk, h'⟩ := descend_cons_some h
    have hc := (t.child hn hk b).1
    rcases List.mem_cons.1 hm with rfl | hm
    · exact ⟨le_refl _, hk⟩
    · have := ih (by omega) h' hm
      exact ⟨by omega, this.2⟩

theorem TreeOk.trail_nodup (t : TreeOk node cnt root) {n l : NodeIdx} {p : List Bool} (hn : n.val < cnt)
    (h : descend node n p = some l) : (trail node n p).Nodup := by
  induction p generalizing n with
  | nil => exact List.nodup_nil
  | cons b p ih =>
    obtain ⟨hk, h'⟩ := descend_cons_some h
    have hc := (t.child hn hk b).1
    refine List.nodup_cons.2 ⟨fun hm => ?_, ih (by omega) h'⟩
    have := (t.mem_trail (by omega) h' hm).1
    omega

/-- "a path with k edges needs at least k + 1 leaves", counted here in nodes: 2k + 1 of them
(42_code_table_generator.md R156). -/
theorem TreeOk.path_length_lt (t : TreeOk node cnt root) {l : NodeIdx} {p : List Bool}
    (h : descend node root p = some l) : 2 * p.length + 1 ≤ cnt := by
  have hroot : root.val < cnt := by have := t.rootLast; omega
  have hcnt := t.size
  let kids := (trail node root p).flatMap (fun m => [(node m).left, (node m).right])
  have hmem : ∀ c ∈ kids, c.val < root.val := by
    intro c hc
    obtain ⟨m, hm, hc⟩ := List.mem_flatMap.1 hc
    obtain ⟨hmr, hk⟩ := t.mem_trail hroot h hm
    have hl := (t.child (by omega) hk false).1
    have hr := (t.child (by omega) hk true).1
    simp only [bitChild, Bool.false_eq_true, if_false, if_true] at hl hr
    simp only [List.mem_cons, List.not_mem_nil, or_false] at hc
    rcases hc with rfl | rfl <;> omega
  have hnd : kids.Nodup := by
    refine List.nodup_flatMap.2 ⟨fun m hm => ?_, ?_⟩
    · obtain ⟨hmr, hk⟩ := t.mem_trail hroot h hm
      have hn := t.nodes m (by omega)
      unfold NodeOk at hn
      rw [hk] at hn
      simpa using hn.2.2.2.1
    · refine (t.trail_nodup hroot h).pairwise_of_forall_ne fun m hm m' hm' hne => ?_
      obtain ⟨hmr, hk⟩ := t.mem_trail hroot h hm
      obtain ⟨hmr', hk'⟩ := t.mem_trail hroot h hm'
      intro c hc hc'
      refine hne (t.oneParent c m m' (by omega) (by omega) ⟨hk, ?_⟩ ⟨hk', ?_⟩)
      · simpa [eq_comm] using hc
      · simpa [eq_comm] using hc'
  have hlen : kids.length = 2 * p.length := by
    have : ∀ l : List NodeIdx, (l.flatMap (fun m => [(node m).left, (node m).right])).length = 2 * l.length := by
      intro l
      induction l with
      | nil => rfl
      | cons m l ih => rw [List.flatMap_cons, List.length_append, ih]; simp; omega
    rw [this, trail_length]
  have hsub : (kids.map Fin.val).length ≤ (List.range root.val).length := by
    refine (List.Nodup.subperm (hnd.map Fin.val_injective) fun x hx => ?_).length_le
    obtain ⟨c, hc, rfl⟩ := List.mem_map.1 hx
    exact List.mem_range.2 (hmem c hc)
  rw [List.length_map, List.length_range, hlen] at hsub
  omega

theorem TreeOk.path_length_le (t : TreeOk node cnt root) {l : NodeIdx} {p : List Bool}
    (h : descend node root p = some l) : p.length ≤ 255 := by
  have := t.path_length_lt h
  have := t.size
  omega

end Tree

/-! ### The walk -/

theorem walk_leaf {n : NodeIdx} (hk : (node n).kind = .leaf) (fuel : Nat) (p : List Bool) (code : Store CodeEntry) :
    walk node (fuel + 1) n p code =
      if p.length ≤ 255 then some (putCell code (node n).sym.val (CodeEntry.ofPath p), p) else none := by
  rw [walk, hk]

theorem walk_internal {n : NodeIdx} (hk : (node n).kind = .internal) (fuel : Nat) (p : List Bool)
    (code : Store CodeEntry) :
    walk node (fuel + 1) n p code =
      (walk node fuel (node n).left (p ++ [false]) code).bind
        (fun r => walk node fuel (node n).right (p ++ [true]) r.1) := by
  rw [walk, hk]
  dsimp only
  cases walk node fuel (node n).left (p ++ [false]) code <;> rfl

/-- There is a leaf with symbol value `k` below `n`, at the path `r`. -/
def LeafAt (node : NodeIdx → Node) (n : NodeIdx) (r : List Bool) (k : Nat) : Prop :=
  ∃ l, descend node n r = some l ∧ (node l).kind = .leaf ∧ (node l).sym.val = k

theorem LeafAt.cons {n : NodeIdx} (hk : (node n).kind = .internal) (b : Bool) {r : List Bool} {k : Nat} :
    LeafAt node n (b :: r) k ↔ LeafAt node (bitChild (node n) b) r k := by
  unfold LeafAt
  rw [descend_cons_internal hk]

/-- What the walk records: an entry for every symbol that has a leaf below, the code being the path to such a
leaf; every other entry stays (42_code_table_generator.md R150, R151). -/
theorem walk_entry {fuel : Nat} {n : NodeIdx} {p : List Bool} {code code' : Store CodeEntry} {q : List Bool}
    (h : walk node fuel n p code = some (code', q)) (k : Nat) :
    ((∀ r, ¬ LeafAt node n r k) ∧ cellAt code' k = cellAt code k) ∨
    (∃ r, LeafAt node n r k ∧ (p ++ r).length ≤ 255 ∧ cellAt code' k = some (CodeEntry.ofPath (p ++ r))) := by
  induction fuel generalizing n p code code' q with
  | zero => cases h
  | succ fuel ih =>
    rcases NodeKind.cases (node n).kind with hk | hk
    · rw [walk_leaf hk] at h
      split at h
      · rename_i hp
        simp only [Option.some.injEq, Prod.mk.injEq] at h
        obtain ⟨rfl, -⟩ := h
        by_cases hs : (node n).sym.val = k
        · refine .inr ⟨[], ⟨n, rfl, hk, hs⟩, by simpa using hp, ?_⟩
          rw [hs, cellAt_putCell_same, List.append_nil]
        · refine .inl ⟨fun r hr => ?_, cellAt_putCell_other _ _ hs⟩
          obtain ⟨l, hl, -, hls⟩ := hr
          cases r with
          | nil => cases hl; exact hs hls
          | cons b r => rw [descend_cons_leaf hk] at hl; cases hl
      · cases h
    · rw [walk_internal hk] at h
      obtain ⟨⟨c1, q1⟩, h1, h2⟩ := Option.bind_eq_some_iff.1 h
      rcases ih h2 with ⟨hno, he⟩ | ⟨r, hr, hlen, he⟩
      · rcases ih h1 with ⟨hno', he'⟩ | ⟨r, hr, hlen, he'⟩
        · refine .inl ⟨fun r hr => ?_, he.trans he'⟩
          cases r with
          | nil =>
            obtain ⟨l, hl, hlk, -⟩ := hr
            cases hl
            rw [hk] at hlk
            cases hlk
          | cons b r =>
            rw [LeafAt.cons hk] at hr
            cases b
            · exact hno' r hr
            · exact hno r hr
        · exact .inr ⟨false :: r, (LeafAt.cons hk false).2 hr, by simpa using hlen, by rw [he, he']; simp⟩
      · exact .inr ⟨true :: r, (LeafAt.cons hk true).2 hr, by simpa using hlen, by rw [he]; simp⟩

theorem walk_keeps {fuel : Nat} {n : NodeIdx} {p : List Bool} {code code' : Store CodeEntry} {q : List Bool}
    (h : walk node fuel n p code = some (code', q)) :
    (storeWf code = true → storeWf code' = true) ∧ (keysBelow code 257 = true → keysBelow code' 257 = true) ∧
      (∀ k, (cellAt code k).isSome → (cellAt code' k).isSome) := by
  induction fuel generalizing n p code code' q with
  | zero => cases h
  | succ fuel ih =>
    rcases NodeKind.cases (node n).kind with hk | hk
    · rw [walk_leaf hk] at h
      split at h
      · simp only [Option.some.injEq, Prod.mk.injEq] at h
        obtain ⟨rfl, -⟩ := h
        refine ⟨fun hw => storeWf_putCell _ _ hw, fun hb => keysBelow_putCell _ hb (node n).sym.isLt, fun k hs => ?_⟩
        rw [cellAt_putCell]
        split
        · rfl
        · exact hs
      · cases h
    · rw [walk_internal hk] at h
      obtain ⟨⟨c1, q1⟩, h1, h2⟩ := Option.bind_eq_some_iff.1 h
      obtain ⟨a1, b1, d1⟩ := ih h1
      obtain ⟨a2, b2, d2⟩ := ih h2
      exact ⟨fun h => a2 (a1 h), fun h => b2 (b1 h), fun k h => d2 k (d1 k h)⟩

/-- The walk comes to an end in a tree (41_tree_builder.md R145, 70_reset_and_hazards.md R262). -/
theorem TreeOk.walk_isSome {cnt : Nat} {root : NodeIdx} (t : TreeOk node cnt root) {fuel : Nat} {n : NodeIdx}
    {p : List Bool} (code : Store CodeEntry) (hn : n.val < cnt) (hf : n.val < fuel)
    (hp : descend node root p = some n) : (walk node fuel n p code).isSome := by
  induction fuel generalizing n p code with
  | zero => omega
  | succ fuel ih =>
    rcases NodeKind.cases (node n).kind with hk | hk
    · rw [walk_leaf hk, if_pos (t.path_length_le hp)]
      rfl
    · have hstep : ∀ b, descend node root (p ++ [b]) = some (bitChild (node n) b) := by
        intro b
        rw [descend_append, hp]
        exact descend_cons_internal hk b []
      have hl := (t.child hn hk false).1
      have hr := (t.child hn hk true).1
      have h1 := ih (n := (node n).left) code (by exact lt_trans hl hn) (by exact lt_of_lt_of_le hl (by omega))
        (hstep false)
      rw [walk_internal hk]
      obtain ⟨r, hr1⟩ := Option.isSome_iff_exists.1 h1
      rw [hr1]
      exact ih (n := (node n).right) r.1 (by exact lt_trans hr hn) (by exact lt_of_lt_of_le hr (by omega)) (hstep true)

/-! ### The table -/

/-- The walk reads only the nodes of the tree (42_code_table_generator.md R150, R158). -/
theorem TreeOk.walk_congr {node' : NodeIdx → Node} {cnt : Nat} {root : NodeIdx} (t : TreeOk node cnt root)
    (h : ∀ i : NodeIdx, i.val < cnt → node i = node' i) (fuel : Nat) {n : NodeIdx} (hn : n.val < cnt) (p : List Bool)
    (code : Store CodeEntry) : walk node fuel n p code = walk node' fuel n p code := by
  induction fuel generalizing n p code with
  | zero => rfl
  | succ fuel ih =>
    rcases (node n).kind.cases with hk | hk
    · rw [walk_leaf hk, walk_leaf (by rw [← h n hn]; exact hk), h n hn]
    · have hl := (t.child hn hk false).1
      have hr := (t.child hn hk true).1
      simp only [bitChild, Bool.false_eq_true, if_false, if_true] at hl hr
      rw [walk_internal hk, walk_internal (by rw [← h n hn]; exact hk), ← h n hn, ih (by omega)]
      congr 1
      funext r
      exact ih (by omega) _ _

theorem cellAt_map_range' {α : Type} (v : α) (i n k : Nat) :
    cellAt ((List.range' i n).map (fun j => (j, v))) k = if i ≤ k ∧ k < i + n then some v else none := by
  induction n generalizing i with
  | zero => rw [if_neg (by omega)]; rfl
  | succ n ih =>
    rw [List.range'_succ, List.map_cons, cellAt, ih]
    by_cases h : i = k
    · rw [if_pos h, if_pos (by omega)]
    · rw [if_neg h]
      by_cases h2 : i + 1 ≤ k ∧ k < i + 1 + n
      · rw [if_pos h2, if_pos (by omega)]
      · rw [if_neg h2, if_neg (by omega)]

theorem cellAt_clearedCode (k : Nat) : cellAt clearedCode k = if k < 257 then some CodeEntry.absent else none := by
  unfold clearedCode
  rw [List.range_eq_range', cellAt_map_range']
  simp

theorem storeWf_clearedCode : storeWf clearedCode = true := by decide +kernel

theorem keysBelow_clearedCode : keysBelow clearedCode 257 = true := by decide +kernel

/-- The table of a VALID tree (42_code_table_generator.md R150, R151): it exists; a leaf's symbol has the path to
the leaf as its code; a symbol without a leaf has the absent entry. -/
theorem tableOfTree_valid {s : State} {cnt : Nat} (hv : s.tree = .valid) (t : TreeOk s.nodeAt cnt s.root) :
    ∃ code q, s.tableOfTree = some (code, q) ∧
      (∀ p l, descend s.nodeAt s.root p = some l → (s.nodeAt l).kind = .leaf →
        cellAt code (s.nodeAt l).sym.val = some (CodeEntry.ofPath p)) ∧
      (∀ k, k < 257 → (∀ l : NodeIdx, l.val < cnt → (s.nodeAt l).kind = .leaf → (s.nodeAt l).sym.val ≠ k) →
        cellAt code k = some CodeEntry.absent) := by
  have hroot : s.root.val < cnt := by have := t.rootLast; omega
  obtain ⟨⟨code, q⟩, hw⟩ := Option.isSome_iff_exists.1
    (t.walk_isSome clearedCode hroot (fuel := 511) (p := []) (by omega) rfl)
  refine ⟨code, q, by rw [State.tableOfTree, hv]; exact hw, fun p l hp hl => ?_, fun k hk hno => ?_⟩
  · rcases walk_entry hw (s.nodeAt l).sym.val with ⟨hno, -⟩ | ⟨r, ⟨l', hl', hk', hs'⟩, -, he⟩
    · exact absurd ⟨l, hp, hl, rfl⟩ (hno p)
    · have b1 := t.descend_le hroot hp
      have b2 := t.descend_le hroot hl'
      have : l' = l := t.leafUnique l' l (by omega) (by omega) hk' hl (Fin.ext hs')
      subst this
      rw [he, List.nil_append, t.path_unique r p hl' hp]
  · rcases walk_entry hw k with ⟨-, he⟩ | ⟨r, ⟨l', hl', hk', hs'⟩, -, -⟩
    · rw [he, cellAt_clearedCode, if_pos hk]
    · have b2 := t.descend_le hroot hl'
      exact absurd hs' (hno l' (by omega) hk')

/-- A table in canonical form with all 257 entries. -/
theorem tableOfTree_keeps {s : State} {code : Store CodeEntry} {q : List Bool} (h : s.tableOfTree = some (code, q)) :
    storeWf code = true ∧ keysBelow code 257 = true ∧ ∀ k, k < 257 → (cellAt code k).isSome := by
  have hc : ∀ k, k < 257 → (cellAt clearedCode k).isSome := fun k hk => by rw [cellAt_clearedCode, if_pos hk]; rfl
  unfold State.tableOfTree at h
  split at h
  · obtain ⟨a, b, d⟩ := walk_keeps h
    exact ⟨a storeWf_clearedCode, b keysBelow_clearedCode, fun k hk => d k (hc k hk)⟩
  all_goals
    simp only [Option.some.injEq, Prod.mk.injEq] at h
    obtain ⟨rfl, -⟩ := h
    exact ⟨storeWf_clearedCode, keysBelow_clearedCode, hc⟩

/-- What GENTAB behind the gate can do (42_code_table_generator.md R150). -/
theorem gentabUnit_cases (s : State) :
    (s.tree = .none ∧ gentabUnit s = .next (s.raiseFault (some .gentab) .sequence 3#32)) ∨
    (s.tree = .valid ∧ (s.nodeAt s.root).kind = .leaf ∧
      gentabUnit s = .next (s.startTable.raiseFault (some .gentab) .invariant (BitVec.ofNat 32 s.root.val))) ∨
    (s.tree ≠ .none ∧ (∃ code p, s.tableOfTree = some (code, p) ∧
      gentabUnit s = .next { s.startTable with code := code, path := p, codeV := true })) ∨
    (s.tree = .valid ∧ s.tableOfTree = none ∧ gentabUnit s = .fault .arenaNotATree) := by
  unfold gentabUnit
  by_cases hn : s.tree = .none
  · exact .inl ⟨hn, by rw [if_pos hn]; rfl⟩
  · rw [if_neg hn]
    by_cases hl : s.tree = .valid ∧ (s.nodeAt s.root).kind = .leaf
    · exact .inr (.inl ⟨hl.1, hl.2, by rw [if_pos hl]⟩)
    · rw [if_neg hl]
      cases ht : s.tableOfTree with
      | none =>
        refine .inr (.inr (.inr ⟨?_, rfl, rfl⟩))
        unfold State.tableOfTree at ht
        split at ht
        · assumption
        · cases ht
        · cases ht
      | some r => exact .inr (.inr (.inl ⟨hn, r.1, r.2, rfl, rfl⟩))

end Sys2Proof.Machine
end

