-- ==== Sys2Proof/Laws/Decoder.lean ====
section
/-! SUPPORT. The laws of DECODE: one path of the walk, the codes of a sequence, and what DECODE behind the gate can
do (44_decoder.md R180 to R196). -/

namespace Sys2Proof.Machine

theorem bitElem_ne_invalid (b : Bool) : bitElem b ≠ .invalid := by cases b <;> decide

theorem Node.child_bitElem (n : Node) (b : Bool) : n.child (bitElem b) = bitChild n b := by
  cases b <;> rfl

theorem elemsOfBits_append (bs cs : List Bool) : elemsOfBits (bs ++ cs) = elemsOfBits bs ++ elemsOfBits cs := by
  simp [elemsOfBits]

@[simp] theorem length_elemsOfBits (bs : List Bool) : (elemsOfBits bs).length = bs.length := by
  simp [elemsOfBits]

/-- Phase 1 passes on a bit-string of ZERO and ONE (44_decoder.md R182). -/
theorem firstInvalid_elemsOfBits (bs : List Bool) : firstInvalid (elemsOfBits bs) = none := by
  unfold firstInvalid
  rw [List.findIdx?_eq_none_iff]
  intro e he
  obtain ⟨b, -, rfl⟩ := List.mem_map.1 he
  cases b <;> rfl

/-- Phase 1 finds the first INVALID element (44_decoder.md R182, R183). -/
theorem firstInvalid_eq_some {es : List Elem} {i : Nat} (hi : i < es.length) (h : es[i] = .invalid)
    (hlt : ∀ j, (hj : j < i) → es[j] ≠ .invalid) : firstInvalid es = some i := by
  unfold firstInvalid
  rw [List.findIdx?_eq_some_iff_getElem]
  exact ⟨hi, by simp [h], fun j hj => by simpa using hlt j hj⟩

variable (node : NodeIdx → Node) (root : NodeIdx) (cap : Nat)

/-- One element that leads to an Internal node (44_decoder.md R186). -/
theorem decodeElem_internal {r : DecRegs} {b : Bool} (hk : (node (bitChild (node r.cur) b)).kind = .internal) :
    decodeElem node root cap (bitElem b) r =
      { r with bitPos := r.bitPos + 1, cur := bitChild (node r.cur) b, dstate := .descending } := by
  unfold decodeElem
  simp only [Node.child_bitElem, hk]

/-- One element that leads to the leaf of a real symbol: it is emitted and the walk is back at ROOT (44_decoder.md
R186, R187). -/
theorem decodeElem_leaf {r : DecRegs} {b : Bool} (hk : (node (bitChild (node r.cur) b)).kind = .leaf)
    (hs : (node (bitChild (node r.cur) b)).sym ≠ sentinel) (hcap : r.outLen ≠ cap) :
    decodeElem node root cap (bitElem b) r =
      { r with
        bitPos := r.bitPos + 1
        out := putCell r.out r.outLen (BitVec.ofNat 8 (node (bitChild (node r.cur) b)).sym.val)
        outLen := r.outLen + 1
        cur := root
        dstate := .atRoot } := by
  unfold decodeElem
  simp only [Node.child_bitElem, hk, if_neg hs, if_neg hcap]

/-- One element that leads to the synthetic leaf (44_decoder.md R189). -/
theorem decodeElem_synthetic {r : DecRegs} {b : Bool} (hk : (node (bitChild (node r.cur) b)).kind = .leaf)
    (hs : (node (bitChild (node r.cur) b)).sym = sentinel) :
    decodeElem node root cap (bitElem b) r = { r with bitPos := r.bitPos + 1, stop := .mismatch } := by
  unfold decodeElem
  simp only [Node.child_bitElem, hk, if_pos hs]

/-- One element that completes a code when OUT is full (44_decoder.md R190). -/
theorem decodeElem_full {r : DecRegs} {b : Bool} (hk : (node (bitChild (node r.cur) b)).kind = .leaf)
    (hs : (node (bitChild (node r.cur) b)).sym ≠ sentinel) (hcap : r.outLen = cap) :
    decodeElem node root cap (bitElem b) r = { r with bitPos := r.bitPos + 1, stop := .overflow } := by
  unfold decodeElem
  simp only [Node.child_bitElem, hk, if_neg hs, if_pos hcap]

theorem decodeElems_cons (e : Elem) (es : List Elem) (r : DecRegs) :
    decodeElems node root cap (e :: es) r =
      if (decodeElem node root cap e r).stop = .none then decodeElems node root cap es (decodeElem node root cap e r)
      else decodeElem node root cap e r := rfl

/-- A path that stays on Internal nodes: the walk is Descending at its end. -/
theorem decodeElems_partial {r : DecRegs} {p : List Bool} {m : NodeIdx} (hstop : r.stop = .none)
    (h : descend node r.cur p = some m) (hm : (node m).kind = .internal) (es : List Elem) :
    decodeElems node root cap (elemsOfBits p ++ es) r = decodeElems node root cap es
      { r with
        bitPos := r.bitPos + p.length
        cur := m
        dstate := if p = [] then r.dstate else .descending } := by
  induction p generalizing r with
  | nil => cases h; simp [elemsOfBits]
  | cons b p ih =>
    obtain ⟨hk, h'⟩ := descend_cons_some h
    have hi : (node (bitChild (node r.cur) b)).kind = .internal := by
      cases p with
      | nil => cases h'; exact hm
      | cons b' p => exact (descend_cons_some h').1
    show decodeElems node root cap (bitElem b :: (elemsOfBits p ++ es)) r = _
    rw [decodeElems_cons, decodeElem_internal node root cap hi, if_pos hstop,
      ih (r := { r with bitPos := r.bitPos + 1, cur := bitChild (node r.cur) b, dstate := .descending }) hstop h']
    congr 1
    simp only [DecRegs.mk.injEq, true_and, List.length_cons, ite_self, reduceCtorEq, if_false]
    refine ⟨?_, ?_⟩ <;> first | trivial | omega

/-- A path to the leaf of a real symbol: the walk emits the symbol and is back at ROOT (44_decoder.md R187). -/
theorem decodeElems_path {r : DecRegs} {p : List Bool} {l : NodeIdx} (hp : p ≠ []) (hstop : r.stop = .none)
    (h : descend node r.cur p = some l) (hl : (node l).kind = .leaf) (hs : (node l).sym ≠ sentinel)
    (hcap : r.outLen ≠ cap) (es : List Elem) :
    decodeElems node root cap (elemsOfBits p ++ es) r = decodeElems node root cap es
      { r with
        bitPos := r.bitPos + p.length
        out := putCell r.out r.outLen (BitVec.ofNat 8 (node l).sym.val)
        outLen := r.outLen + 1
        cur := root
        dstate := .atRoot } := by
  rcases List.eq_nil_or_concat p with rfl | ⟨q, b, rfl⟩
  · exact absurd rfl hp
  · rw [List.concat_eq_append] at h ⊢
    obtain ⟨m, hm, hk, e⟩ := descend_snoc h
    rw [elemsOfBits_append, List.append_assoc, decodeElems_partial node root cap hstop hm hk]
    show decodeElems node root cap (bitElem b :: es) _ = _
    rw [decodeElems_cons, decodeElem_leaf node root cap
      (r := { r with bitPos := r.bitPos + q.length, cur := m, dstate := if q = [] then r.dstate else .descending })
      (by dsimp only; rw [e]; exact hl) (by dsimp only; rw [e]; exact hs) hcap, if_pos hstop]
    simp only [e, List.length_append, List.length_singleton]
    congr 1

/-- A path to the synthetic leaf, or to a real leaf when OUT is full: the walk ends at the path's last element, with
OUT as it was (44_decoder.md R189, R190). -/
theorem decodeElems_fault {r : DecRegs} {p : List Bool} {l : NodeIdx} {f : ErrCode} (hp : p ≠ [])
    (hstop : r.stop = .none) (h : descend node r.cur p = some l) (hl : (node l).kind = .leaf)
    (hf : ((node l).sym = sentinel ∧ f = .mismatch) ∨ ((node l).sym ≠ sentinel ∧ r.outLen = cap ∧ f = .overflow))
    (es : List Elem) :
    ∃ m, decodeElems node root cap (elemsOfBits p ++ es) r =
      { r with
        bitPos := r.bitPos + p.length
        cur := m
        dstate := if p.length = 1 then r.dstate else .descending
        stop := f } := by
  rcases List.eq_nil_or_concat p with rfl | ⟨q, b, rfl⟩
  · exact absurd rfl hp
  · rw [List.concat_eq_append] at h ⊢
    obtain ⟨m, hm, hk, e⟩ := descend_snoc h
    refine ⟨m, ?_⟩
    have hq : (if (q ++ [b]).length = 1 then r.dstate else DecState.descending) =
        if q = [] then r.dstate else .descending := by
      cases q <;> simp
    rw [hq, elemsOfBits_append, List.append_assoc, decodeElems_partial node root cap hstop hm hk]
    show decodeElems node root cap (bitElem b :: es) _ = _
    rw [decodeElems_cons]
    rcases hf with ⟨hs, rfl⟩ | ⟨hs, hcap, rfl⟩
    · rw [decodeElem_synthetic node root cap
        (r := { r with bitPos := r.bitPos + q.length, cur := m, dstate := if q = [] then r.dstate else .descending })
        (by dsimp only; rw [e]; exact hl) (by dsimp only; rw [e]; exact hs), if_neg (by simp)]
      simp only [List.length_append, List.length_singleton]
      congr 1
    · rw [decodeElem_full node root cap
        (r := { r with bitPos := r.bitPos + q.length, cur := m, dstate := if q = [] then r.dstate else .descending })
        (by dsimp only; rw [e]; exact hl) (by dsimp only; rw [e]; exact hs) hcap, if_neg (by simp)]
      simp only [List.length_append, List.length_singleton]
      congr 1

/-- The path of a code is not empty where the root is Internal (42_code_table_generator.md R156). -/
theorem State.IsCode.ne_nil {s : State} {p : List Bool} {k : Nat} (h : s.IsCode p k)
    (hroot : (s.nodeAt s.root).kind = .internal) : p ≠ [] := by
  rintro rfl
  obtain ⟨l, hl, hk, -⟩ := h
  cases hl
  rw [hroot] at hk
  cases hk

/-- The bits of complete codes: the walk emits their symbols and is back at ROOT (44_decoder.md R187). -/
theorem decodeElems_spells {s : State} (hroot : (s.nodeAt s.root).kind = .internal) {bs : List Bool} {cs : List Byte}
    (h : s.SpellsOut bs cs) {r : DecRegs} (hstop : r.stop = .none) (hcur : r.cur = s.root) (hd : r.dstate = .atRoot)
    (hcap : r.outLen + cs.length ≤ cap) (es : List Elem) :
    decodeElems s.nodeAt s.root cap (elemsOfBits bs ++ es) r = decodeElems s.nodeAt s.root cap es
      { r with
        bitPos := r.bitPos + bs.length
        out := putCells r.out r.outLen cs
        outLen := r.outLen + cs.length
        cur := s.root
        dstate := .atRoot } := by
  induction h generalizing r with
  | nil =>
    obtain ⟨o, ol, ds, cu, bp, st⟩ := r
    dsimp only at hcur hd
    subst hcur hd
    simp [elemsOfBits, putCells]
  | @cons p bs c cs code rest ih =>
    obtain ⟨l, hl, hk, hs⟩ := id code
    have hsen : (s.nodeAt l).sym ≠ sentinel := by
      intro e
      rw [e] at hs
      have h256 : sentinel.val = 256 := by decide
      have := c.isLt
      omega
    have hby : BitVec.ofNat 8 (s.nodeAt l).sym.val = c := by rw [hs]; simp
    rw [List.length_cons] at hcap
    rw [elemsOfBits_append, List.append_assoc,
      decodeElems_path s.nodeAt s.root cap (code.ne_nil hroot) hstop (by rw [hcur]; exact hl) hk hsen (by omega), hby,
      ih (r := { r with bitPos := r.bitPos + p.length, out := putCell r.out r.outLen c,
                        outLen := r.outLen + 1, cur := s.root, dstate := .atRoot })
        hstop rfl rfl (by dsimp only; omega)]
    simp only [List.length_append, List.length_cons, putCells]
    congr 1
    simp only [DecRegs.mk.injEq, true_and]
    refine ⟨?_, ?_, ?_⟩ <;> first | trivial | omega

/-- The walk keeps the bounds and the canonical form of OUT. -/
theorem decodeElem_keeps {e : Elem} {r : DecRegs} (h : r.outLen ≤ cap) :
    (decodeElem node root cap e r).outLen ≤ cap ∧
      (Memory.wf r.out = true → Memory.wf (decodeElem node root cap e r).out = true) ∧
      (keysBelow r.out cap = true → keysBelow (decodeElem node root cap e r).out cap = true) := by
  unfold decodeElem
  dsimp only
  split
  · split
    · exact ⟨h, id, id⟩
    · split
      · exact ⟨h, id, id⟩
      · exact ⟨by dsimp only; omega, fun hw => Memory.wf_putCell _ _ hw, fun hb => keysBelow_putCell _ hb (by omega)⟩
  · exact ⟨h, id, id⟩

theorem decodeElems_keeps {es : List Elem} {r : DecRegs} (h : r.outLen ≤ cap) :
    (decodeElems node root cap es r).outLen ≤ cap ∧
      (Memory.wf r.out = true → Memory.wf (decodeElems node root cap es r).out = true) ∧
      (keysBelow r.out cap = true → keysBelow (decodeElems node root cap es r).out cap = true) := by
  induction es generalizing r with
  | nil => exact ⟨h, id, id⟩
  | cons e es ih =>
    have h1 := decodeElem_keeps node root cap (e := e) h
    rw [decodeElems_cons]
    split
    · have h2 := ih h1.1
      exact ⟨h2.1, fun hw => h2.2.1 (h1.2.1 hw), fun hb => h2.2.2 (h1.2.2 hb)⟩
    · exact h1

/-- The walk stops with no fault, MISMATCH or OVERFLOW, the faults that void OUTLEN (60_exceptions.md R232). -/
theorem decodeElem_stop {e : Elem} {r : DecRegs} (hr : r.stop = .none) :
    (decodeElem node root cap e r).stop = .none ∨ (decodeElem node root cap e r).stop = .mismatch ∨
      (decodeElem node root cap e r).stop = .overflow := by
  unfold decodeElem
  dsimp only
  split
  · split
    · simp
    · split <;> simp [hr]
  · simp [hr]

theorem decodeElems_stop {es : List Elem} {r : DecRegs} (hr : r.stop = .none) :
    (decodeElems node root cap es r).stop = .none ∨ (decodeElems node root cap es r).stop = .mismatch ∨
      (decodeElems node root cap es r).stop = .overflow := by
  induction es generalizing r with
  | nil => exact .inl hr
  | cons e es ih =>
    rw [decodeElems_cons]
    split
    · exact ih ‹_›
    · exact decodeElem_stop node root cap hr

/-- What DECODE behind the gate can do (44_decoder.md R180, R196, R183, R184, R188). -/
theorem decodeUnit_cases (cmd : Instr) (s : State) :
    (s.tree = .none ∧ decodeUnit cmd s = s.raiseFault (some cmd) .sequence ((opcode cmd).zeroExtend 32)) ∨
    (s.tree ≠ .none ∧ s.cfg.maxBits < s.bitLen.toNat ∧
      decodeUnit cmd s = s.raiseFault (some cmd) .range s.bitLen) ∨
    (s.tree ≠ .none ∧ s.bitLen.toNat ≤ s.cfg.maxBits ∧ ∃ i, firstInvalid s.elems = some i ∧
      decodeUnit cmd s = s.startDecode.raiseFault (some cmd) .invalidBit (BitVec.ofNat 32 i)) ∨
    (s.tree = .empty ∧ s.bitLen.toNat ≤ s.cfg.maxBits ∧ firstInvalid s.elems = none ∧
      decodeUnit cmd s = if s.bitLen = 0#32 then s.startDecode else s.startDecode.raiseFault (some cmd) .mismatch 0#32) ∨
    (s.tree = .valid ∧ s.bitLen.toNat ≤ s.cfg.maxBits ∧ firstInvalid s.elems = none ∧
      decodeUnit cmd s = s.finishDecode cmd s.decodeRun) := by
  unfold decodeUnit
  by_cases hn : s.tree = .none
  · exact .inl ⟨hn, by rw [if_pos hn]⟩
  · rw [if_neg hn]
    by_cases hl : s.cfg.maxBits < s.bitLen.toNat
    · exact .inr (.inl ⟨hn, hl, by rw [if_pos hl]⟩)
    · rw [if_neg hl]
      cases hf : firstInvalid s.elems with
      | some i => exact .inr (.inr (.inl ⟨hn, by omega, i, rfl, rfl⟩))
      | none =>
        dsimp only
        cases ht : s.tree with
        | none => exact absurd ht hn
        | empty => exact .inr (.inr (.inr (.inl ⟨rfl, by omega, rfl, by rw [if_pos rfl]⟩)))
        | valid => exact .inr (.inr (.inr (.inr ⟨rfl, by omega, rfl, by rw [if_neg (by simp)]⟩)))

/-! ### What the walk does to OUT -/

/-- The walk writes only the bytes of OUT for the symbols it emits (44_decoder.md R187). -/
theorem decodeElem_out (e : Elem) (r : DecRegs) :
    r.outLen ≤ (decodeElem node root cap e r).outLen ∧
      ∀ k, (decodeElem node root cap e r).outLen ≤ k → cellAt (decodeElem node root cap e r).out k = cellAt r.out k := by
  unfold decodeElem
  dsimp only
  split
  · split
    · exact ⟨le_rfl, fun k _ => rfl⟩
    · split
      · exact ⟨le_rfl, fun k _ => rfl⟩
      · exact ⟨Nat.le_succ _, fun k hk => cellAt_putCell_other _ _ (by dsimp only at hk; omega)⟩
  · exact ⟨le_rfl, fun k _ => rfl⟩

theorem decodeElems_out (es : List Elem) (r : DecRegs) :
    r.outLen ≤ (decodeElems node root cap es r).outLen ∧
      ∀ k, (decodeElems node root cap es r).outLen ≤ k → cellAt (decodeElems node root cap es r).out k = cellAt r.out k := by
  induction es generalizing r with
  | nil => exact ⟨le_rfl, fun k _ => rfl⟩
  | cons e es ih =>
    obtain ⟨h1, h2⟩ := decodeElem_out node root cap e r
    rw [decodeElems_cons]
    split
    · obtain ⟨h3, h4⟩ := ih (decodeElem node root cap e r)
      exact ⟨h1.trans h3, fun k hk => (h4 k hk).trans (h2 k (h3.trans hk))⟩
    · exact ⟨h1, h2⟩

/-- Two walks that differ in the old bytes of OUT only (44_decoder.md R194). -/
structure SameWalk (r₁ r₂ : DecRegs) : Prop where
  outLen : r₁.outLen = r₂.outLen
  dstate : r₁.dstate = r₂.dstate
  cur : r₁.cur = r₂.cur
  bitPos : r₁.bitPos = r₂.bitPos
  stop : r₁.stop = r₂.stop
  out : ∀ k, k < r₁.outLen → cellAt r₁.out k = cellAt r₂.out k ∧ (cellAt r₁.out k).isSome

theorem SameWalk.elem {r₁ r₂ : DecRegs} (h : SameWalk r₁ r₂) (e : Elem) :
    SameWalk (decodeElem node root cap e r₁) (decodeElem node root cap e r₂) := by
  obtain ⟨o₁, l₁, d₁, c₁, b₁, t₁⟩ := r₁
  obtain ⟨o₂, l₂, d₂, c₂, b₂, t₂⟩ := r₂
  obtain ⟨h1, h2, h3, h4, h5, h6⟩ := h
  dsimp only at h1 h2 h3 h4 h5 h6
  subst h1 h2 h3 h4 h5
  unfold decodeElem
  dsimp only
  split
  · split
    · exact ⟨rfl, rfl, rfl, rfl, rfl, h6⟩
    · split
      · exact ⟨rfl, rfl, rfl, rfl, rfl, h6⟩
      · refine ⟨rfl, rfl, rfl, rfl, rfl, fun k hk => ?_⟩
        dsimp only at hk ⊢
        rw [cellAt_putCell, cellAt_putCell]
        by_cases hkl : l₁ = k
        · rw [if_pos hkl, if_pos hkl]; exact ⟨rfl, rfl⟩
        · rw [if_neg hkl, if_neg hkl]; exact h6 k (by omega)
  · exact ⟨rfl, rfl, rfl, rfl, rfl, h6⟩

theorem SameWalk.elems (es : List Elem) {r₁ r₂ : DecRegs} (h : SameWalk r₁ r₂) :
    SameWalk (decodeElems node root cap es r₁) (decodeElems node root cap es r₂) := by
  induction es generalizing r₁ r₂ with
  | nil => exact h
  | cons e es ih =>
    have he := h.elem node root cap e
    rw [decodeElems_cons, decodeElems_cons, he.stop]
    split
    · exact ih he
    · exact he

/-! ### DECODE on a bit-string that is known -/

/-- The codes of a sequence spell it out (43_encoder.md R166). -/
theorem spellsOut_concatCodes {s : State} {look : Byte → CodeEntry} {cs : List Byte}
    (h : ∀ c ∈ cs, s.IsCode (look c).code c.toNat) : s.SpellsOut (concatCodes look cs) cs := by
  induction cs with
  | nil => exact .nil
  | cons c cs ih =>
    have hc := h c (by simp)
    have := State.SpellsOut.cons hc (ih fun d hd => h d (by simp [hd]))
    unfold concatCodes at this ⊢
    rwa [List.flatMap_cons]

/-- DECODE behind the gate where neither SEQUENCE nor RANGE nor INVALID_BIT nor the absent tree ends it. -/
theorem decodeUnit_walk {s : State} {cmd : Instr} {bs : List Bool} (htree : s.tree = .valid)
    (hel : s.elems = elemsOfBits bs) (hbl : s.bitLen.toNat ≤ s.cfg.maxBits) :
    decodeUnit cmd s = s.finishDecode cmd s.decodeRun ∧ bs.length = s.bitLen.toNat := by
  have hfi : firstInvalid s.elems = none := by rw [hel]; exact firstInvalid_elemsOfBits _
  refine ⟨?_, by rw [← length_elems, hel, length_elemsOfBits]⟩
  rcases decodeUnit_cases cmd s with ⟨h, -⟩ | ⟨-, h, -⟩ | ⟨-, -, i, h, -⟩ | ⟨h, -⟩ | ⟨-, -, -, e⟩
  · rw [htree] at h; cases h
  · omega
  · rw [hfi] at h; cases h
  · rw [htree] at h; cases h
  · exact e

/-- The walk on the machine's operands over the codes `bs` of `cs`, with the elements `es` still to come. -/
theorem decodeRun_spells {s : State} {bs : List Bool} {cs : List Byte} {es : List Elem}
    (hroot : (s.nodeAt s.root).kind = .internal) (hel : s.elems = elemsOfBits bs ++ es) (hsp : s.SpellsOut bs cs)
    (hcs : cs.length ≤ s.cfg.maxLen) :
    s.decodeRun = decodeElems s.nodeAt s.root s.cfg.maxLen es
      { out := putCells s.out 0 cs, outLen := cs.length, dstate := .atRoot, cur := s.root, bitPos := bs.length,
        stop := .none } := by
  unfold State.decodeRun
  rw [hel, decodeElems_spells s.cfg.maxLen hroot hsp rfl rfl rfl (by dsimp only; omega) es]
  simp only [Nat.zero_add]

/-- Complete codes decode to their symbols, with no fault (44_decoder.md R187, R188, R193). -/
theorem decodeUnit_spells {s : State} {cmd : Instr} {bs : List Bool} {cs : List Byte} (htree : s.tree = .valid)
    (hroot : (s.nodeAt s.root).kind = .internal) (hel : s.elems = elemsOfBits bs)
    (hbl : s.bitLen.toNat ≤ s.cfg.maxBits) (hsp : s.SpellsOut bs cs) (hcs : cs.length ≤ s.cfg.maxLen) :
    decodeUnit cmd s = s.withDecRegs
      { out := putCells s.out 0 cs, outLen := cs.length, dstate := .atRoot, cur := s.root,
        bitPos := s.bitLen.toNat, stop := .none } := by
  obtain ⟨e, hlen⟩ := decodeUnit_walk (cmd := cmd) htree hel hbl
  rw [e, decodeRun_spells (es := []) hroot (by rw [List.append_nil]; exact hel) hsp hcs, decodeElems, hlen]
  rfl

/-- Elements that end inside a code: MISMATCH(BITLEN), Descending (44_decoder.md R188, R191). -/
theorem decodeUnit_partial {s : State} {cmd : Instr} {bs p : List Bool} {cs : List Byte} {n : NodeIdx}
    (htree : s.tree = .valid) (hroot : (s.nodeAt s.root).kind = .internal) (hel : s.elems = elemsOfBits (bs ++ p))
    (hbl : s.bitLen.toNat ≤ s.cfg.maxBits) (hsp : s.SpellsOut bs cs) (hcs : cs.length ≤ s.cfg.maxLen) (hp : p ≠ [])
    (hn : descend s.nodeAt s.root p = some n) (hk : (s.nodeAt n).kind = .internal) :
    decodeUnit cmd s = (s.withDecRegs
      { out := putCells s.out 0 cs, outLen := cs.length, dstate := .descending, cur := n,
        bitPos := s.bitLen.toNat, stop := .none }).raiseFault (some cmd) .mismatch s.bitLen := by
  obtain ⟨e, hlen⟩ := decodeUnit_walk (cmd := cmd) htree hel hbl
  rw [elemsOfBits_append] at hel
  rw [List.length_append] at hlen
  rw [e, decodeRun_spells hroot hel hsp hcs, ← List.append_nil (elemsOfBits p),
    decodeElems_partial s.nodeAt s.root s.cfg.maxLen rfl hn hk, decodeElems]
  dsimp only
  rw [hlen, if_neg hp]
  rfl

/-- A walk that ends inside the bit-string: MISMATCH at the synthetic leaf, OVERFLOW at a symbol that OUT has no room
for (44_decoder.md R189, R190, R191). -/
theorem decodeUnit_fault {s : State} {cmd : Instr} {bs p rest : List Bool} {cs : List Byte} {k : Nat} {f : ErrCode}
    (htree : s.tree = .valid) (hroot : (s.nodeAt s.root).kind = .internal)
    (hel : s.elems = elemsOfBits (bs ++ p ++ rest)) (hbl : s.bitLen.toNat ≤ s.cfg.maxBits) (hsp : s.SpellsOut bs cs)
    (hcs : cs.length ≤ s.cfg.maxLen) (hc : s.IsCode p k)
    (hf : (k = 256 ∧ f = .mismatch) ∨ (k < 256 ∧ cs.length = s.cfg.maxLen ∧ f = .overflow)) :
    ∃ m, decodeUnit cmd s = (s.withDecRegs
      { out := putCells s.out 0 cs, outLen := cs.length, dstate := if p.length = 1 then .atRoot else .descending,
        cur := m, bitPos := bs.length + p.length, stop := f }).raiseFault (some cmd) f (BitVec.ofNat 32 (bs.length + p.length - 1)) := by
  obtain ⟨e, -⟩ := decodeUnit_walk (cmd := cmd) htree hel hbl
  rw [List.append_assoc, elemsOfBits_append, elemsOfBits_append] at hel
  obtain ⟨l, hl, hk, hs⟩ := id hc
  have hsen : (s.nodeAt l).sym = sentinel ↔ k = 256 := by
    rw [← hs, Fin.ext_iff]
    exact Iff.rfl
  obtain ⟨m, hrun⟩ := decodeElems_fault s.nodeAt s.root s.cfg.maxLen
    (r := { out := putCells s.out 0 cs, outLen := cs.length, dstate := .atRoot, cur := s.root, bitPos := bs.length,
            stop := .none }) (f := f) (hc.ne_nil hroot) rfl hl hk
    (by
      rcases hf with ⟨h, h'⟩ | ⟨h, h', h''⟩
      · exact .inl ⟨hsen.2 h, h'⟩
      · exact .inr ⟨fun he => by have := hsen.1 he; omega, h', h''⟩) (elemsOfBits rest)
  refine ⟨m, ?_⟩
  have hne : f ≠ .none := by rcases hf with ⟨-, rfl⟩ | ⟨-, -, rfl⟩ <;> simp
  rw [e, decodeRun_spells hroot hel hsp hcs, hrun]
  unfold State.finishDecode
  dsimp only
  rw [if_neg hne]

/-- The bytes of OUT after a walk that emitted `cs`. -/
theorem outByte_putCells (free : Nat → Byte) (m : Memory) (cs : List Byte) (k : Nat) :
    byteAt free (putCells m 0 cs) k = cs.getD k (byteAt free m k) := by
  unfold byteAt
  rw [cellAt_putCells, Nat.sub_zero]
  by_cases h : k < cs.length
  · rw [if_pos ⟨Nat.zero_le _, by omega⟩, List.getElem?_eq_getElem h, List.getD_eq_getElem _ _ h]
    rfl
  · rw [if_neg (by omega), List.getD_eq_default _ _ (by omega)]

end Sys2Proof.Machine
end

