-- ==== Sys2Proof/Laws/Encoder.lean ====
section
/-! SUPPORT. The laws of ENCODE: what the loop over the input leaves (43_encoder.md R165, R166, R172). -/

namespace Sys2Proof.Machine

section Loop

variable (fmt : Format) (free : Nat → Byte) (look : Byte → CodeEntry) (cap : Nat)

theorem length_concatCodes (cs : List Byte) :
    (concatCodes look cs).length = (cs.map (fun c => (look c).len.toNat)).sum := by
  induction cs with
  | nil => rfl
  | cons c cs ih =>
    unfold concatCodes at ih ⊢
    rw [List.flatMap_cons, List.length_append, ih, CodeEntry.length_code, List.map_cons, List.sum_cons]

theorem concatCodes_cons (c : Byte) (cs : List Byte) :
    concatCodes look (c :: cs) = (look c).code ++ concatCodes look cs := by
  unfold concatCodes
  rw [List.flatMap_cons]

/-- What ENCODE's loop leaves: the codes of a first part `done` of the input written one after the other; and the
rest is empty, or begins with a symbol without a code (LOOKUP), or with one whose code does not fit (OVERFLOW). -/
theorem encodeSyms_cases (cs : List Byte) (r : EncRegs) (hstop : r.stop = .none) :
    ∃ done rest, cs = done ++ rest ∧ (∀ c ∈ done, (look c).valid = true) ∧
      (encodeSyms fmt free look cap cs r).bits = putElems fmt free r.bits r.pos (concatCodes look done) ∧
      (encodeSyms fmt free look cap cs r).pos = r.pos + (concatCodes look done).length ∧
      (encodeSyms fmt free look cap cs r).symPos = r.symPos + done.length ∧
      (r.pos ≤ cap → (encodeSyms fmt free look cap cs r).pos ≤ cap) ∧
      ((rest = [] ∧ (encodeSyms fmt free look cap cs r).stop = .none) ∨
       (∃ c rest', rest = c :: rest' ∧ (look c).valid = false ∧
          (encodeSyms fmt free look cap cs r).stop = .lookup) ∨
       (∃ c rest', rest = c :: rest' ∧ (look c).valid = true ∧
          cap < r.pos + (concatCodes look done).length + (look c).len.toNat ∧
          (encodeSyms fmt free look cap cs r).stop = .overflow)) := by
  induction cs generalizing r with
  | nil => exact ⟨[], [], rfl, by simp, rfl, rfl, rfl, id, .inl ⟨rfl, hstop⟩⟩
  | cons c cs ih =>
    by_cases hv : (look c).valid = true
    · by_cases hfit : cap < r.pos + (look c).len.toNat
      · have e : encodeSyms fmt free look cap (c :: cs) r = { r with stop := .overflow } := by
          simp [encodeSyms, encodeSym, hv, hfit]
        rw [e]
        exact ⟨[], c :: cs, rfl, by simp, rfl, rfl, rfl, id, .inr (.inr ⟨c, cs, rfl, hv, hfit, rfl⟩)⟩
      · have e : encodeSyms fmt free look cap (c :: cs) r =
            encodeSyms fmt free look cap cs
              { r with
                bits := putElems fmt free r.bits r.pos (look c).code
                pos := r.pos + (look c).len.toNat
                symPos := r.symPos + 1 } := by
          simp [encodeSyms, encodeSym, hv, hfit, hstop]
        obtain ⟨done, rest, hcs, hval, hb, hp, hs, hcap, hend⟩ := ih
          { r with
            bits := putElems fmt free r.bits r.pos (look c).code
            pos := r.pos + (look c).len.toNat
            symPos := r.symPos + 1 } hstop
        rw [e]
        have hlen : (concatCodes look (c :: done)).length = (look c).len.toNat + (concatCodes look done).length := by
          rw [concatCodes_cons, List.length_append, CodeEntry.length_code]
        refine ⟨c :: done, rest, by rw [hcs]; rfl, ?_, ?_, ?_, ?_, fun _ => hcap (by dsimp only; omega), ?_⟩
        · intro d hd
          rcases List.mem_cons.1 hd with rfl | hd
          · exact hv
          · exact hval d hd
        · rw [hb, concatCodes_cons, putElems_append, CodeEntry.length_code]
        · rw [hp, hlen]
          dsimp only
          omega
        · rw [hs, List.length_cons]
          dsimp only
          omega
        · rcases hend with h | h | ⟨d, rest', h1, h2, h3, h4⟩
          · exact .inl h
          · exact .inr (.inl h)
          · refine .inr (.inr ⟨d, rest', h1, h2, ?_, h4⟩)
            rw [hlen]
            dsimp only at h3
            omega
    · have hv' : (look c).valid = false := by simpa using hv
      have e : encodeSyms fmt free look cap (c :: cs) r = { r with stop := .lookup } := by
        simp [encodeSyms, encodeSym, hv']
      rw [e]
      exact ⟨[], c :: cs, rfl, by simp, rfl, rfl, rfl, id, .inr (.inl ⟨c, cs, rfl, hv', rfl⟩)⟩

/-- The loop on an input whose symbols all have codes that fit: it writes the concatenation of the codes
(43_encoder.md R166). -/
theorem encodeSyms_all (cs : List Byte) (r : EncRegs) (hstop : r.stop = .none)
    (hv : ∀ c ∈ cs, (look c).valid = true) (hfit : r.pos + (concatCodes look cs).length ≤ cap) :
    encodeSyms fmt free look cap cs r =
      { bits := putElems fmt free r.bits r.pos (concatCodes look cs)
        symPos := r.symPos + cs.length
        pos := r.pos + (concatCodes look cs).length
        stop := .none } := by
  obtain ⟨done, rest, hcs, hval, hb, hp, hs, hcap, hend⟩ := encodeSyms_cases fmt free look cap cs r hstop
  have hrest : rest = [] ∧ (encodeSyms fmt free look cap cs r).stop = .none := by
    rcases hend with h | ⟨c, rest', h, hc, -⟩ | ⟨c, rest', h, -, hlt, -⟩
    · exact h
    · have := hv c (by rw [hcs, h]; simp)
      rw [hc] at this
      cases this
    · exfalso
      rw [hcs, h] at hfit
      unfold concatCodes at hfit hlt
      rw [List.flatMap_append, List.length_append, List.flatMap_cons, List.length_append, CodeEntry.length_code] at hfit
      omega
  obtain ⟨rfl, hst⟩ := hrest
  rw [List.append_nil] at hcs
  subst hcs
  generalize encodeSyms fmt free look cap cs r = r' at *
  obtain ⟨b', s', p', st'⟩ := r'
  dsimp only at hb hp hs hst
  subst hb hp hs hst
  rfl

end Loop

/-! ### ENCODE behind the gate -/

theorem State.encodeRun_eq (s : State) :
    s.encodeRun = encodeSyms s.fmt (s.free .bits) s.look s.cfg.maxBits s.inputSeq
      { bits := s.bits, symPos := 0, pos := 0, stop := .none } := rfl

/-- ENCODE of an input whose symbols all have codes that fit (43_encoder.md R165, R166). -/
theorem encodeUnit_ok {s : State} (hc : s.codeV = true) (hl : s.len.toNat ≤ s.cfg.maxLen)
    (hv : ∀ c ∈ s.inputSeq, (s.look c).valid = true) (hfit : (concatCodes s.look s.inputSeq).length ≤ s.cfg.maxBits) :
    encodeUnit s = s.finishEncode
      { bits := putElems s.fmt (s.free .bits) s.bits 0 (concatCodes s.look s.inputSeq)
        symPos := s.len.toNat
        pos := (concatCodes s.look s.inputSeq).length
        stop := .none } := by
  have e : s.encodeRun =
      { bits := putElems s.fmt (s.free .bits) s.bits 0 (concatCodes s.look s.inputSeq)
        symPos := s.len.toNat
        pos := (concatCodes s.look s.inputSeq).length
        stop := .none } := by
    rw [State.encodeRun_eq, encodeSyms_all _ _ _ _ _ _ rfl hv (by dsimp only; omega)]
    simp [State.inputSeq]
  unfold encodeUnit
  rw [if_neg (by simp [hc]), if_neg (by omega), e, if_pos rfl]

theorem finishEncode_free (s : State) (r : EncRegs) (id : ByteMem) : (s.finishEncode r).free id = s.free id := rfl

/-- The bit-string after a fault-free ENCODE is what the loop wrote: the padding is no part of it (43_encoder.md
R166, R170). -/
theorem elems_finishEncode {s : State} {bs : List Bool} {n : Nat} (h : bs.length < 2 ^ 32) :
    (s.finishEncode
      { bits := putElems s.fmt (s.free .bits) s.bits 0 bs, symPos := n, pos := bs.length, stop := .none }).elems =
      elemsOfBits bs := by
  unfold State.elems elemsOfBits
  have hb : (s.finishEncode
      { bits := putElems s.fmt (s.free .bits) s.bits 0 bs, symPos := n, pos := bs.length, stop := .none }).bitLen.toNat =
      bs.length := by
    rw [State.finishEncode_bitLen, BitVec.toNat_ofNat]
    exact Nat.mod_eq_of_lt h
  rw [hb]
  refine List.ext_getElem (by simp) fun i h₁ h₂ => ?_
  simp only [List.length_map, List.length_range] at h₁
  simp only [List.getElem_map, List.getElem_range]
  show elemAt s.fmt (byteAt (s.free .bits) (putElems s.fmt (s.free .bits) (putElems s.fmt (s.free .bits) s.bits 0 bs)
    bs.length (List.replicate (padCount s.fmt bs.length) false))) i = bitElem bs[i]
  rw [elemAt_putElems, if_neg (by omega), elemAt_putElems, if_pos (by omega), Nat.sub_zero,
    List.getD_eq_getElem _ _ h₁]

/-- The registers of ENCODE's loop after it has written the codes `bs` of the first `n` symbols. -/
def encRegsAt (s : State) (bs : List Bool) (n : Nat) (f : ErrCode) : EncRegs :=
  { bits := putElems s.fmt (s.free .bits) s.bits 0 bs, symPos := n, pos := bs.length, stop := f }

/-- A fault-free ENCODE writes no byte of BITS that holds none of its elements: the padding stays in the byte of the
last one (43_encoder.md R167, R170). -/
theorem cellAt_finishEncode_other (s : State) (bs : List Bool) (n : Nat) (f : ErrCode) {k : Nat}
    (h : ∀ j, j < bs.length → elemByte s.fmt j ≠ k) :
    cellAt (s.finishEncode (encRegsAt s bs n f)).bits k = cellAt s.bits k := by
  show cellAt (putElems s.fmt (s.free .bits) (putElems s.fmt (s.free .bits) s.bits 0 bs) bs.length
    (List.replicate (padCount s.fmt bs.length) false)) k = _
  rw [← Nat.zero_add bs.length, ← putElems_append]
  refine cellAt_putElems_other _ _ _ _ _ _ fun j _ hj => ?_
  rw [List.length_append, List.length_replicate] at hj
  by_cases hlt : j < bs.length
  · exact h j hlt
  · cases hf : s.fmt with
    | char =>
      rw [hf] at hj
      simp only [padCount] at hj
      omega
    | packed =>
      rw [hf] at hj h
      simp only [padCount] at hj
      have := h (bs.length - 1) (by omega)
      simp only [elemByte] at this ⊢
      omega

/-- What ENCODE behind the gate can do (43_encoder.md R165, R172): SEQUENCE, RANGE, all codes written, or a fault
inside the loop at the first symbol without a code or whose code does not fit, with the codes before it written. -/
theorem encodeUnit_cases (s : State) :
    (s.codeV = false ∧ encodeUnit s = s.raiseFault (some .encode) .sequence 4#32) ∨
    (s.codeV = true ∧ s.cfg.maxLen < s.len.toNat ∧ encodeUnit s = s.raiseFault (some .encode) .range s.len) ∨
    (s.codeV = true ∧ s.len.toNat ≤ s.cfg.maxLen ∧ (∀ c ∈ s.inputSeq, (s.look c).valid = true) ∧
      (concatCodes s.look s.inputSeq).length ≤ s.cfg.maxBits ∧
      encodeUnit s = s.finishEncode (encRegsAt s (concatCodes s.look s.inputSeq) s.len.toNat .none)) ∨
    (s.codeV = true ∧ s.len.toNat ≤ s.cfg.maxLen ∧ ∃ done c rest f, s.inputSeq = done ++ c :: rest ∧
      (∀ d ∈ done, (s.look d).valid = true) ∧ (concatCodes s.look done).length ≤ s.cfg.maxBits ∧
      (((s.look c).valid = false ∧ f = .lookup) ∨
       ((s.look c).valid = true ∧ s.cfg.maxBits < (concatCodes s.look done).length + (s.look c).len.toNat ∧
        f = .overflow)) ∧
      encodeUnit s = (s.withEncRegs (encRegsAt s (concatCodes s.look done) done.length f)).raiseFault (some .encode) f
        (BitVec.ofNat 32 done.length)) := by
  by_cases hc : s.codeV = false
  · exact .inl ⟨hc, by unfold encodeUnit; rw [if_pos hc]; rfl⟩
  · have hc' : s.codeV = true := by simpa using hc
    by_cases hl : s.cfg.maxLen < s.len.toNat
    · exact .inr (.inl ⟨hc', hl, by unfold encodeUnit; rw [if_neg hc, if_pos hl]⟩)
    · obtain ⟨done, rest, hcs, hval, hb, hp, hs, hcap, hend⟩ := encodeSyms_cases s.fmt (s.free .bits) s.look
        s.cfg.maxBits s.inputSeq { bits := s.bits, symPos := 0, pos := 0, stop := .none } rfl
      rw [← State.encodeRun_eq] at hb hp hs hcap hend
      simp only [Nat.zero_add] at hp hs hend
      have hfit := hcap (Nat.zero_le _)
      rw [hp] at hfit
      have hrun : ∀ f, s.encodeRun.stop = f →
          s.encodeRun = encRegsAt s (concatCodes s.look done) done.length f := by
        intro f hf
        unfold encRegsAt
        rw [← hf, ← hp, ← hs, ← hb]
      refine .inr (.inr ?_)
      have hfault : ∀ f, f ≠ .none → s.encodeRun.stop = f →
          encodeUnit s = (s.withEncRegs (encRegsAt s (concatCodes s.look done) done.length f)).raiseFault (some .encode) f
            (BitVec.ofNat 32 done.length) := by
        intro f hne hf
        unfold encodeUnit
        rw [if_neg hc, if_neg hl, hf, if_neg hne, hrun f hf]
        rfl
      rcases hend with ⟨rfl, hst⟩ | ⟨c, rest', rfl, hcv, hst⟩ | ⟨c, rest', rfl, hcv, hlt, hst⟩
      · rw [List.append_nil] at hcs
        refine .inl ⟨hc', by omega, hcs ▸ hval, hcs ▸ hfit, ?_⟩
        unfold encodeUnit
        rw [if_neg hc, if_neg hl, hst, if_pos rfl, hrun _ hst, hcs]
        congr 2
        rw [← hcs, length_inputSeq]
      · exact .inr ⟨hc', by omega, done, c, rest', .lookup, hcs, hval, hfit, .inl ⟨hcv, rfl⟩, hfault _ (by simp) hst⟩
      · exact .inr ⟨hc', by omega, done, c, rest', .overflow, hcs, hval, hfit, .inr ⟨hcv, hlt, rfl⟩,
          hfault _ (by simp) hst⟩

end Sys2Proof.Machine
end

