-- ==== Sys2Proof/Laws/FrequencyCounter.lean ====
section
/-! SUPPORT. The laws of COUNT (40_frequency_counter.md R121, R122). -/

namespace Sys2Proof.Machine

theorem freqAt_bumpFreq (f : Freq) (c : Byte) (j : Nat) :
    freqAt (bumpFreq f c) j = if c.toNat = j then freqAt f j + 1#32 else freqAt f j := by
  unfold bumpFreq
  rw [freqAt_putFreq _ _ _ _ c.isLt]
  split
  · rename_i h; rw [h]
  · rfl

theorem freqAt_foldl_bumpFreq (input : List Byte) (f : Freq) (c : Byte) :
    freqAt (input.foldl bumpFreq f) c.toNat = freqAt f c.toNat + BitVec.ofNat 32 (input.count c) := by
  induction input generalizing f with
  | nil => simp
  | cons d ds ih =>
    rw [List.foldl_cons, ih, freqAt_bumpFreq, List.count_cons]
    by_cases h : d = c
    · subst h
      simp only [if_true, beq_self_eq_true, BitVec.ofNat_add]
      rw [BitVec.add_assoc, BitVec.add_comm (1#32)]
    · have h' : d.toNat ≠ c.toNat := fun e => h (BitVec.eq_of_toNat_eq e)
      simp [h, h']

/-- The table of a sequence: FREQ[c] is the number of its occurrences of `c` (40_frequency_counter.md R121). -/
theorem freqAt_countFreq (input : List Byte) (c : Byte) :
    freqAt (countFreq input) c.toNat = BitVec.ofNat 32 (input.count c) := by
  unfold countFreq
  rw [freqAt_foldl_bumpFreq, freqAt_zeroFreq]
  simp

/-- No increment wraps for a sequence shorter than 2^32 (40_frequency_counter.md R122). -/
theorem toNat_freqAt_countFreq {input : List Byte} (h : input.length < 2 ^ 32) (c : Byte) :
    (freqAt (countFreq input) c.toNat).toNat = input.count c := by
  rw [freqAt_countFreq, BitVec.toNat_ofNat, Nat.mod_eq_of_lt]
  exact lt_of_le_of_lt List.count_le_length h

/-- What COUNT behind the gate can do (40_frequency_counter.md R120). -/
theorem countUnit_cases (s : State) :
    (s.cfg.maxLen < s.len.toNat ∧ countUnit s = s.raiseFault (some .count) .range s.len) ∨
    (s.len.toNat ≤ s.cfg.maxLen ∧ countUnit s = { s with freq := countFreq s.inputSeq, symPos := s.len }) := by
  unfold countUnit
  by_cases h : s.cfg.maxLen < s.len.toNat
  · exact .inl ⟨h, if_pos h⟩
  · exact .inr ⟨by omega, if_neg h⟩

theorem sum_range_ite (c n : Nat) :
    ((List.range n).map (fun i => if i = c then 1 else 0)).sum = if c < n then 1 else 0 := by
  induction n with
  | zero => rfl
  | succ n ih =>
    rw [List.range_succ, List.map_append, List.sum_append, ih, List.map_singleton, List.sum_singleton]
    by_cases h : n = c
    · rw [if_pos h, if_neg (by omega), if_pos (by omega)]
    · by_cases h' : c < n
      · rw [if_pos h', if_neg h, if_pos (by omega)]
      · rw [if_neg h', if_neg h, if_neg (by omega)]

theorem sum_map_add_nat (l : List Nat) (f g : Nat → Nat) :
    (l.map (fun i => f i + g i)).sum = (l.map f).sum + (l.map g).sum := by
  induction l with
  | nil => rfl
  | cons a l ih =>
    simp only [List.map_cons, List.sum_cons, ih]
    omega

/-- Every symbol of a sequence is counted once (40_frequency_counter.md R121). -/
theorem sum_count {n : Nat} (hn : n = 2 ^ 8) (input : List Byte) :
    ((List.range n).map (fun i => input.count (BitVec.ofNat 8 i))).sum = input.length := by
  induction input with
  | nil =>
    refine List.sum_eq_zero fun x hx => ?_
    obtain ⟨i, -, rfl⟩ := List.mem_map.1 hx
    rfl
  | cons c input ih =>
    have hmap : ∀ i ∈ List.range n, (c :: input).count (BitVec.ofNat 8 i) =
        input.count (BitVec.ofNat 8 i) + if i = c.toNat then 1 else 0 := by
      intro i hi
      have hi := List.mem_range.1 hi
      have hc : (c == BitVec.ofNat 8 i) = decide (i = c.toNat) := by
        rw [Bool.eq_iff_iff, beq_iff_eq, decide_eq_true_eq, ← BitVec.toNat_inj, BitVec.toNat_ofNat,
          Nat.mod_eq_of_lt (by omega)]
        exact eq_comm
      rw [List.count_cons, hc]
      simp only [decide_eq_true_eq]
    have hc := c.isLt
    rw [List.map_congr_left hmap, sum_map_add_nat, ih, sum_range_ite, if_pos (by omega), List.length_cons]

/-- The entries of a counted input sum to its length (40_frequency_counter.md R121). -/
theorem freqSum_countFreq {input : List Byte} (h : input.length < 2 ^ 32) :
    freqSum (countFreq input) = input.length := by
  unfold freqSum
  rw [← sum_count (n := 256) rfl]
  refine congrArg List.sum (List.map_congr_left fun i hi => ?_)
  have hi := List.mem_range.1 hi
  have := toNat_freqAt_countFreq h (BitVec.ofNat 8 i)
  rwa [BitVec.toNat_ofNat, Nat.mod_eq_of_lt (by omega)] at this

/-- The count of a symbol as a number of positions of SYM. -/
theorem count_inputSeq (s : State) (c : Byte) :
    s.inputSeq.count c = ((List.range s.len.toNat).filter (fun i => s.symByte i == c)).length := by
  unfold State.inputSeq
  rw [List.count, List.countP_map, List.countP_eq_length_filter]
  rfl

theorem mem_inputSeq {s : State} {c : Byte} : c ∈ s.inputSeq ↔ ∃ i, i < s.len.toNat ∧ s.symByte i = c := by
  unfold State.inputSeq
  simp only [List.mem_map, List.mem_range]

end Sys2Proof.Machine
end

