-- ==== Sys2Proof/Laws/TreeBuilder.lean ====
section
/-! SUPPORT. The laws of BUILD: the scan, the least member, one merge, and the forest it keeps
(41_tree_builder.md R132 to R141). -/

namespace Sys2Proof.Machine

/-! ### The scan (41_tree_builder.md R132) -/

theorem scanSyms_eq (i : Nat) (ws : List Word) :
    scanSyms i ws = (List.range' i ws.length).filter (fun j => ws.getD (j - i) 0#32 != 0#32) := by
  induction ws generalizing i with
  | nil => rfl
  | cons w ws ih =>
    rw [scanSyms, List.length_cons, List.range'_succ, List.filter_cons, ih]
    have hrest : (List.range' (i + 1) ws.length).filter (fun j => ws.getD (j - (i + 1)) 0#32 != 0#32) =
        (List.range' (i + 1) ws.length).filter (fun j => (w :: ws).getD (j - i) 0#32 != 0#32) := by
      refine List.filter_congr fun j hj => ?_
      obtain ⟨k, rfl⟩ : ∃ k, j = i + 1 + k := ⟨j - (i + 1), by have := List.mem_range'_1.1 hj; omega⟩
      rw [show i + 1 + k - (i + 1) = k by omega, show i + 1 + k - i = k + 1 by omega]
      rfl
    rw [hrest]
    by_cases h : w = 0#32 <;> simp [h]

/-- The present symbols are those of 0..255 whose count is not zero, ascending (41_tree_builder.md R132). -/
theorem presentSyms_eq (f : Freq) : presentSyms f = (List.range 256).filter (fun i => freqAt f i != 0#32) := by
  unfold presentSyms
  rw [scanSyms_eq, Vector.length_toList, ← List.range_eq_range']
  refine List.filter_congr fun i _ => ?_
  rw [Nat.sub_zero, List.getD_eq_getElem?_getD, Vector.getElem?_toList]
  rfl

theorem mem_presentSyms {f : Freq} {i : Nat} : i ∈ presentSyms f ↔ i < 256 ∧ freqAt f i ≠ 0#32 := by
  rw [presentSyms_eq]
  simp

theorem presentSyms_pairwise (f : Freq) : (presentSyms f).Pairwise (· < ·) := by
  rw [presentSyms_eq]
  exact List.pairwise_lt_range.filter _

theorem presentSyms_nodup (f : Freq) : (presentSyms f).Nodup :=
  (presentSyms_pairwise f).imp fun h => Nat.ne_of_lt h

theorem presentSyms_length_le (f : Freq) : (presentSyms f).length ≤ 256 := by
  rw [presentSyms_eq]
  simpa using List.length_filter_le (fun i => freqAt f i != 0#32) (List.range 256)

/-- An all-zero table has no present symbol (41_tree_builder.md R131). -/
theorem presentSyms_eq_nil {f : Freq} : presentSyms f = [] ↔ ∀ i, i < 256 → freqAt f i = 0#32 := by
  rw [presentSyms_eq, List.filter_eq_nil_iff]
  simp

theorem sum_map_filter_of_zero {α : Type} (l : List α) (p : α → Bool) (g : α → Nat)
    (h : ∀ x ∈ l, p x = false → g x = 0) : ((l.filter p).map g).sum = (l.map g).sum := by
  induction l with
  | nil => rfl
  | cons x l ih =>
    have ih := ih fun y hy => h y (by simp [hy])
    rw [List.filter_cons]
    by_cases hp : p x = true
    · simp [hp, ih]
    · have := h x (by simp) (by simpa using hp)
      simp [hp, ih, this]

/-- The sum of the counts is the sum over the present symbols. -/
theorem freqSum_eq (f : Freq) : freqSum f = ((presentSyms f).map (fun i => (freqAt f i).toNat)).sum := by
  rw [presentSyms_eq, sum_map_filter_of_zero]
  · rfl
  · intro i _ h
    have : freqAt f i = 0#32 := by simpa using h
    simp [this]

theorem sum_le_of_le {l : List Nat} {b : Nat} (h : ∀ x ∈ l, x ≤ b) : l.sum ≤ l.length * b := by
  induction l with
  | nil => simp
  | cons x l ih =>
    have := h x (by simp)
    have := ih fun y hy => h y (by simp [hy])
    rw [List.sum_cons, List.length_cons, Nat.succ_mul]
    omega

/-- "at most 256 x (2^32 - 1) < 2^40" (41_tree_builder.md R140). -/
theorem freqSum_lt (f : Freq) : freqSum f < 2 ^ 40 := by
  have h : freqSum f ≤ 256 * (2 ^ 32 - 1) := by
    have := sum_le_of_le (l := (List.range 256).map (fun i => (freqAt f i).toNat)) (b := 2 ^ 32 - 1) (by
      intro x hx
      obtain ⟨i, -, rfl⟩ := List.mem_map.1 hx
      have := (freqAt f i).isLt
      omega)
    simpa [freqSum] using this
  omega

/-! ### The least member (41_tree_builder.md R134) -/

theorem leastOf_mem (nodes : List Node) (x : Nat) (ys : List Nat) : leastOf nodes x ys ∈ x :: ys := by
  induction ys generalizing x with
  | nil => simp [leastOf]
  | cons y ys ih =>
    rw [leastOf]
    by_cases h : (nodeOf nodes y).less (nodeOf nodes x) = true
    · rw [if_pos h]
      have := ih y
      simp only [List.mem_cons] at this ⊢
      tauto
    · rw [if_neg h]
      have := ih x
      simp only [List.mem_cons] at this ⊢
      tauto

/-- The order in numbers: by weight, then by minsym. -/
theorem Node.less_iff {x y : Node} : x.less y = true ↔
    x.weight.toNat < y.weight.toNat ∨ (x.weight.toNat = y.weight.toNat ∧ x.minsym.val < y.minsym.val) := by
  simp only [Node.less, Bool.or_eq_true, Bool.and_eq_true, decide_eq_true_eq, beq_iff_eq, BitVec.lt_def, Fin.lt_def,
    BitVec.toNat_inj]

/-- No member is less than the least one. -/
theorem leastOf_least (nodes : List Node) (x : Nat) (ys : List Nat) :
    ∀ z ∈ x :: ys, ¬ (nodeOf nodes z).less (nodeOf nodes (leastOf nodes x ys)) = true := by
  induction ys generalizing x with
  | nil =>
    intro z hz
    rw [List.mem_singleton.1 hz, leastOf, Node.less_iff]
    omega
  | cons y ys ih =>
    intro z hz
    rw [leastOf]
    by_cases h : (nodeOf nodes y).less (nodeOf nodes x) = true
    · rw [if_pos h]
      rcases List.mem_cons.1 hz with rfl | hz
      · have hy := ih y y (by simp)
        rw [Node.less_iff] at *
        omega
      · exact ih y z hz
    · rw [if_neg h]
      have hx := ih x x (by simp)
      rcases List.mem_cons.1 hz with rfl | hz
      · exact hx
      · rcases List.mem_cons.1 hz with rfl | hz
        · rw [Node.less_iff] at *
          omega
        · exact ih x z (by simp [hz])

/-! ### One merge (41_tree_builder.md R135) -/

/-- What a merge does when two members remain: A is least in ACTIVE, B is least in what remains, and their
parent takes the next free index. -/
theorem mergeStep_cases {f : Forest} (h : 2 ≤ f.active.length) :
    ∃ a b, a ∈ f.active ∧ b ∈ f.active.erase a ∧
      (∀ z ∈ f.active, ¬ (nodeOf f.nodes z).less (nodeOf f.nodes a) = true) ∧
      (∀ z ∈ f.active.erase a, ¬ (nodeOf f.nodes z).less (nodeOf f.nodes b) = true) ∧
      mergeStep f =
        { nodes := f.nodes ++ [internalNode f.nodes a b]
          active := (f.active.erase a).erase b ++ [f.nodes.length]
          a := a
          b := b } := by
  match hact : f.active with
  | [] => rw [hact] at h; simp at h
  | x :: xs =>
    have ha := leastOf_mem f.nodes x xs
    match hrest : (x :: xs).erase (leastOf f.nodes x xs) with
    | [] =>
      have := List.length_erase_of_mem ha
      rw [hact] at h
      rw [hrest] at this
      simp only [List.length_nil, List.length_cons] at this h
      omega
    | y :: ys =>
      refine ⟨leastOf f.nodes x xs, leastOf f.nodes y ys, ha, ?_, leastOf_least f.nodes x xs, ?_, ?_⟩
      · rw [hrest]; exact leastOf_mem f.nodes y ys
      · rw [hrest]; exact leastOf_least f.nodes y ys
      · simp only [mergeStep, hact, hrest]

theorem nodeOf_append_lt {ns ms : List Node} {i : Nat} (h : i < ns.length) : nodeOf (ns ++ ms) i = nodeOf ns i := by
  simp only [nodeOf, List.getD_eq_getElem?_getD, List.getElem?_append_left h]

theorem nodeOf_append_length (ns : List Node) (n : Node) : nodeOf (ns ++ [n]) ns.length = n := by
  simp [nodeOf]

/-- `c` is a child of the Internal node `i` of a list of nodes. -/
def ForestChild (nodes : List Node) (c i : Nat) : Prop :=
  (nodeOf nodes i).kind = .internal ∧ ((nodeOf nodes i).left.val = c ∨ (nodeOf nodes i).right.val = c)

/-- The fields of an Internal node of a list of nodes (10_state.md R42, R49). -/
def ForestInner (nodes : List Node) (i : Nat) : Prop :=
  (nodeOf nodes i).kind = .internal ∧ (nodeOf nodes i).sym = 0 ∧
    (nodeOf nodes i).left.val < i ∧ (nodeOf nodes i).right.val < i ∧
    (nodeOf nodes i).left ≠ (nodeOf nodes i).right ∧
    (nodeOf nodes i).weight.toNat =
      (nodeOf nodes (nodeOf nodes i).left.val).weight.toNat + (nodeOf nodes (nodeOf nodes i).right.val).weight.toNat ∧
    (nodeOf nodes i).minsym =
      min (nodeOf nodes (nodeOf nodes i).left.val).minsym (nodeOf nodes (nodeOf nodes i).right.val).minsym

/-- The forest BUILD keeps while it merges: the leaves `start` at the front, Internal nodes after them, every
node outside ACTIVE the child of exactly one of them, every member of ACTIVE the child of none, and the
weights of ACTIVE summing to `tot`. -/
structure ForestOk (start : List Node) (tot : Nat) (f : Forest) : Prop where
  nodup : f.active.Nodup
  below : ∀ i ∈ f.active, i < f.nodes.length
  size : f.nodes.length + f.active.length = 2 * start.length
  grown : start.length ≤ f.nodes.length
  starts : ∀ i, i < start.length → nodeOf f.nodes i = nodeOf start i
  inner : ∀ i, start.length ≤ i → i < f.nodes.length → ForestInner f.nodes i
  hasParent : ∀ c, c < f.nodes.length → c ∉ f.active → ∃ i, i < f.nodes.length ∧ ForestChild f.nodes c i
  oneParent : ∀ c i j, i < f.nodes.length → j < f.nodes.length → ForestChild f.nodes c i → ForestChild f.nodes c j →
    i = j
  noParent : ∀ c ∈ f.active, ∀ i, i < f.nodes.length → ¬ ForestChild f.nodes c i
  total : (f.active.map (fun i => (nodeOf f.nodes i).weight.toNat)).sum = tot

theorem sum_map_erase {l : List Nat} {a : Nat} (h : a ∈ l) (g : Nat → Nat) :
    g a + ((l.erase a).map g).sum = (l.map g).sum := by
  have := ((List.perm_cons_erase h).map g).sum_eq
  simpa using this.symm

/-- A merge keeps the forest, with one member of ACTIVE fewer. -/
theorem mergeStep_ok {start : List Node} {tot : Nat} {f : Forest} (ok : ForestOk start tot f)
    (hs : start.length ≤ 256) (ht : tot < 2 ^ 40) (hk : ∀ i, i < start.length → (nodeOf start i).kind = .leaf)
    (h2 : 2 ≤ f.active.length) :
    ForestOk start tot (mergeStep f) ∧ (mergeStep f).active.length + 1 = f.active.length := by
  obtain ⟨a, b, ha, hb, -, -, e⟩ := mergeStep_cases h2
  have hba : b ≠ a := fun e => (List.Nodup.not_mem_erase ok.nodup) (e ▸ hb)
  have hb' : b ∈ f.active := List.mem_of_mem_erase hb
  have hal := ok.below a ha
  have hbl := ok.below b hb'
  have hsz := ok.size
  have hN : f.nodes.length < 511 := by omega
  have va : (Fin.ofNat 511 a).val = a := by simp only [Fin.ofNat]; omega
  have vb : (Fin.ofNat 511 b).val = b := by simp only [Fin.ofNat]; omega
  have hnd1 := ok.nodup.erase a
  have hnd2 := hnd1.erase b
  have hmem : ∀ i, i ∈ (f.active.erase a).erase b ↔ i ∈ f.active ∧ i ≠ a ∧ i ≠ b := by
    intro i
    rw [hnd1.mem_erase_iff, ok.nodup.mem_erase_iff]
    tauto
  have hlen : ((f.active.erase a).erase b).length + 2 = f.active.length := by
    have h1 := List.length_erase_of_mem ha
    have h3 := List.length_erase_of_mem hb
    omega
  have hsum := sum_map_erase ha (fun i => (nodeOf f.nodes i).weight.toNat)
  have hsum' := sum_map_erase hb (fun i => (nodeOf f.nodes i).weight.toNat)
  have htot := ok.total
  have hw : (internalNode f.nodes a b).weight.toNat =
      (nodeOf f.nodes a).weight.toNat + (nodeOf f.nodes b).weight.toNat := by
    simp only [internalNode, BitVec.toNat_add]
    rw [Nat.mod_eq_of_lt]
    omega
  have hold : ∀ i, i < f.nodes.length → nodeOf (mergeStep f).nodes i = nodeOf f.nodes i := by
    intro i hi
    rw [e]
    exact nodeOf_append_lt hi
  have hnew : nodeOf (mergeStep f).nodes f.nodes.length = internalNode f.nodes a b := by
    rw [e]
    exact nodeOf_append_length _ _
  have hlen' : (mergeStep f).nodes.length = f.nodes.length + 1 := by rw [e]; simp
  have hact : ∀ i, i ∈ (mergeStep f).active ↔ (i ∈ f.active ∧ i ≠ a ∧ i ≠ b) ∨ i = f.nodes.length := by
    intro i
    rw [e]
    simp only [List.mem_append, hmem, List.mem_singleton]
  have hinner : ∀ i, i < f.nodes.length → (nodeOf f.nodes i).kind = .internal → ForestInner f.nodes i := by
    intro i hi hki
    by_cases his : i < start.length
    · rw [ok.starts i his, hk i his] at hki
      cases hki
    · exact ok.inner i (by omega) hi
  have hcold : ∀ c i, i < f.nodes.length → (ForestChild (mergeStep f).nodes c i ↔ ForestChild f.nodes c i) := by
    intro c i hi
    unfold ForestChild
    rw [hold i hi]
  have hcnew : ∀ c, ForestChild (mergeStep f).nodes c f.nodes.length ↔ a = c ∨ b = c := by
    intro c
    unfold ForestChild
    rw [hnew]
    simp only [internalNode, va, vb, true_and]
  refine ⟨⟨?_, ?_, ?_, ?_, ?_, ?_, ?_, ?_, ?_, ?_⟩, ?_⟩
  · rw [e]
    refine List.nodup_append.2 ⟨hnd2, List.nodup_singleton _, fun x hx y hy => ?_⟩
    rw [List.mem_singleton.1 hy]
    have := ok.below x ((hmem x).1 hx).1
    omega
  · intro i hi
    rw [hlen']
    rcases (hact i).1 hi with h | h
    · have := ok.below i h.1; omega
    · omega
  · rw [hlen', e]
    simp only [List.length_append, List.length_singleton]
    omega
  · rw [hlen']; have := ok.grown; omega
  · intro i hi
    have := ok.grown
    rw [hold i (by omega), ok.starts i hi]
  · intro i hi hil
    rw [hlen'] at hil
    by_cases hiN : i < f.nodes.length
    · have hin := ok.inner i hi hiN
      unfold ForestInner at hin ⊢
      rw [hold i hiN, hold _ (by omega), hold _ (by omega)]
      exact hin
    · obtain rfl : i = f.nodes.length := by omega
      unfold ForestInner
      rw [hnew]
      have hl : (internalNode f.nodes a b).left.val = a := va
      have hr : (internalNode f.nodes a b).right.val = b := vb
      rw [hl, hr, hold a hal, hold b hbl]
      refine ⟨rfl, rfl, hal, hbl, fun e => hba ?_, hw, rfl⟩
      have := congrArg Fin.val e
      rw [hl, hr] at this
      exact this.symm
  · intro c hc hca
    rw [hlen'] at hc
    have hcN : c ≠ f.nodes.length := fun e => hca ((hact c).2 (.inr e))
    by_cases hcact : c ∈ f.active
    · have hcab : c = a ∨ c = b := by
        by_contra hne
        exact hca ((hact c).2 (.inl ⟨hcact, fun e => hne (.inl e), fun e => hne (.inr e)⟩))
      refine ⟨f.nodes.length, by omega, (hcnew c).2 ?_⟩
      rcases hcab with rfl | rfl <;> simp
    · obtain ⟨i, hi, hci⟩ := ok.hasParent c (by omega) hcact
      exact ⟨i, by omega, (hcold c i hi).2 hci⟩
  · intro c i j hi hj hci hcj
    rw [hlen'] at hi hj
    by_cases hiN : i < f.nodes.length <;> by_cases hjN : j < f.nodes.length
    · exact ok.oneParent c i j hiN hjN ((hcold c i hiN).1 hci) ((hcold c j hjN).1 hcj)
    · obtain rfl : j = f.nodes.length := by omega
      exfalso
      have hc := (hcold c i hiN).1 hci
      rcases (hcnew c).1 hcj with rfl | rfl
      · exact ok.noParent _ ha i hiN hc
      · exact ok.noParent _ hb' i hiN hc
    · obtain rfl : i = f.nodes.length := by omega
      exfalso
      have hc := (hcold c j hjN).1 hcj
      rcases (hcnew c).1 hci with rfl | rfl
      · exact ok.noParent _ ha j hjN hc
      · exact ok.noParent _ hb' j hjN hc
    · omega
  · intro c hc i hi hci
    rw [hlen'] at hi
    by_cases hiN : i < f.nodes.length
    · have hc' := (hcold c i hiN).1 hci
      rcases (hact c).1 hc with h | rfl
      · exact ok.noParent c h.1 i hiN hc'
      · have := hinner i hiN hc'.1
        rcases hc'.2 with h | h
        · have := this.2.2.1; omega
        · have := this.2.2.2.1; omega
    · obtain rfl : i = f.nodes.length := by omega
      rcases (hact c).1 hc with h | rfl
      · rcases (hcnew c).1 hci with h' | h'
        · exact h.2.1 h'.symm
        · exact h.2.2 h'.symm
      · rcases (hcnew _).1 hci with h' | h' <;> omega
  · have hm : ((f.active.erase a).erase b).map (fun i => (nodeOf (mergeStep f).nodes i).weight.toNat) =
        ((f.active.erase a).erase b).map (fun i => (nodeOf f.nodes i).weight.toNat) := by
      refine List.map_congr_left fun i hi => ?_
      rw [hold i (ok.below i ((hmem i).1 hi).1)]
    have hactE : (mergeStep f).active = (f.active.erase a).erase b ++ [f.nodes.length] := by rw [e]
    rw [hactE, List.map_append, List.sum_append, hm, List.map_singleton, List.sum_singleton, hnew, hw]
    omega
  · rw [e]
    simp only [List.length_append, List.length_singleton]
    omega

/-- The merges end with one member of ACTIVE (41_tree_builder.md R137). -/
theorem mergeLoop_ok {start : List Node} {tot : Nat} (hs : start.length ≤ 256) (ht : tot < 2 ^ 40)
    (hk : ∀ i, i < start.length → (nodeOf start i).kind = .leaf) (k : Nat) {f : Forest} (ok : ForestOk start tot f)
    (h1 : 1 ≤ f.active.length) (hfuel : f.active.length ≤ k + 1) :
    ForestOk start tot (mergeLoop k f) ∧ (mergeLoop k f).active.length = 1 := by
  induction k generalizing f with
  | zero => exact ⟨ok, by rw [mergeLoop]; omega⟩
  | succ k ih =>
    rw [mergeLoop]
    by_cases h : f.active.length ≤ 1
    · rw [if_pos h]
      exact ⟨ok, by omega⟩
    · rw [if_neg h]
      obtain ⟨ok', hl⟩ := mergeStep_ok ok hs ht hk (by omega)
      exact ih ok' (by omega) (by omega)

/-! ### The leaves (41_tree_builder.md R132, R133) -/

theorem startNodes_length (f : Freq) :
    (startNodes f).length = if presentCount f = 1 then 2 else presentCount f := by
  unfold startNodes presentCount
  simp only [List.length_map]
  split
  · rename_i h; simp [h]
  · simp

theorem startNodes_length_le (f : Freq) : (startNodes f).length ≤ 256 := by
  have := presentSyms_length_le f
  rw [startNodes_length]
  unfold presentCount
  split <;> omega

theorem startNodes_eq_nil {f : Freq} : startNodes f = [] ↔ presentSyms f = [] := by
  rw [← List.length_eq_zero_iff, startNodes_length, ← List.length_eq_zero_iff]
  unfold presentCount
  split <;> omega

/-- The k-th leaf is that of the k-th present symbol (41_tree_builder.md R132). -/
theorem nodeOf_startNodes {f : Freq} {i : Nat} (h : i < (presentSyms f).length) :
    nodeOf (startNodes f) i = leafNode f (presentSyms f)[i] := by
  unfold startNodes
  have hm : i < ((presentSyms f).map (leafNode f)).length := by simpa using h
  have : nodeOf ((presentSyms f).map (leafNode f)) i = leafNode f (presentSyms f)[i] := by
    simp [nodeOf, List.getElem?_eq_getElem h]
  dsimp only
  split
  · rw [nodeOf_append_lt hm, this]
  · exact this

/-- The synthetic leaf stands at index 1 when exactly one symbol is present (41_tree_builder.md R133). -/
theorem nodeOf_startNodes_synthetic {f : Freq} (h : presentCount f = 1) : nodeOf (startNodes f) 1 = syntheticLeaf := by
  unfold startNodes
  have hl : ((presentSyms f).map (leafNode f)).length = 1 := by simpa [presentCount] using h
  simp only [hl, if_true]
  have := nodeOf_append_length ((presentSyms f).map (leafNode f)) syntheticLeaf
  rwa [hl] at this

/-- Every start node is a present symbol's leaf, or the synthetic leaf. -/
theorem startNodes_cases {f : Freq} {i : Nat} (h : i < (startNodes f).length) :
    (∃ hi : i < (presentSyms f).length, nodeOf (startNodes f) i = leafNode f (presentSyms f)[i]) ∨
    (presentCount f = 1 ∧ i = 1 ∧ nodeOf (startNodes f) i = syntheticLeaf) := by
  rw [startNodes_length] at h
  by_cases hi : i < (presentSyms f).length
  · exact .inl ⟨hi, nodeOf_startNodes hi⟩
  · unfold presentCount at *
    by_cases h1 : (presentSyms f).length = 1
    · rw [if_pos h1] at h
      obtain rfl : i = 1 := by omega
      exact .inr ⟨h1, rfl, nodeOf_startNodes_synthetic h1⟩
    · rw [if_neg h1] at h
      omega

theorem startNodes_leaf {f : Freq} {i : Nat} (h : i < (startNodes f).length) :
    (nodeOf (startNodes f) i).kind = .leaf ∧ (nodeOf (startNodes f) i).minsym = (nodeOf (startNodes f) i).sym ∧
      (nodeOf (startNodes f) i).left = 0 ∧ (nodeOf (startNodes f) i).right = 0 := by
  rcases startNodes_cases h with ⟨hi, e⟩ | ⟨-, -, e⟩ <;> rw [e] <;> exact ⟨rfl, rfl, rfl, rfl⟩

theorem presentSyms_getElem_lt {f : Freq} {i : Nat} (h : i < (presentSyms f).length) : (presentSyms f)[i] < 256 :=
  (mem_presentSyms.1 (List.getElem_mem h)).1

theorem leafNode_sym (f : Freq) {k : Nat} (h : k < 256) : (leafNode f k).sym.val = k := by
  simp only [leafNode, Fin.ofNat]
  omega

/-- "Every Leaf's Symbol is unique" (10_state.md R49 (a)). -/
theorem startNodes_sym_inj {f : Freq} {i j : Nat} (hi : i < (startNodes f).length) (hj : j < (startNodes f).length)
    (h : (nodeOf (startNodes f) i).sym = (nodeOf (startNodes f) j).sym) : i = j := by
  have key : ∀ {i : Nat} (hi : i < (presentSyms f).length), (leafNode f (presentSyms f)[i]).sym ≠ syntheticLeaf.sym := by
    intro i hi e
    have h1 := leafNode_sym f (presentSyms_getElem_lt hi)
    rw [e] at h1
    have := presentSyms_getElem_lt hi
    simp only [syntheticLeaf, sentinel] at h1
    have h256 : ((256 : SymVal)).val = 256 := by decide
    omega
  rcases startNodes_cases hi with ⟨hi', e⟩ | ⟨h1, rfl, e⟩ <;> rcases startNodes_cases hj with ⟨hj', e'⟩ | ⟨h1', rfl, e'⟩
  · rw [e, e'] at h
    have hv := congrArg Fin.val h
    rw [leafNode_sym f (presentSyms_getElem_lt hi'), leafNode_sym f (presentSyms_getElem_lt hj')] at hv
    exact (presentSyms_nodup f).getElem_inj_iff.1 hv
  · rw [e, e'] at h
    exact absurd h (key hi')
  · rw [e, e'] at h
    exact absurd h.symm (key hj')
  · rfl

theorem map_range_startNodes (f : Freq) :
    ((List.range (startNodes f).length).map (fun i => (nodeOf (startNodes f) i).weight.toNat)).sum = freqSum f := by
  have hnodes : ∀ (ns : List Node), ((List.range ns.length).map (fun i => (nodeOf ns i).weight.toNat)) =
      ns.map (fun n => n.weight.toNat) := by
    intro ns
    refine List.ext_getElem (by simp) fun i h₁ h₂ => ?_
    simp only [List.length_map] at h₂
    simp [nodeOf, List.getElem?_eq_getElem h₂]
  have hleaves : ((presentSyms f).map (leafNode f)).map (fun n => n.weight.toNat) =
      (presentSyms f).map (fun i => (freqAt f i).toNat) := by
    rw [List.map_map]
    refine List.map_congr_left fun i _ => ?_
    simp only [Function.comp_apply, leafNode, BitVec.truncate_eq_setWidth, BitVec.toNat_setWidth]
    have := (freqAt f i).isLt
    omega
  rw [hnodes, freqSum_eq, ← hleaves]
  unfold startNodes
  dsimp only
  split
  · simp [syntheticLeaf]
  · rfl

theorem startForest_ok (f : Freq) (a b : Nat) : ForestOk (startNodes f) (freqSum f) (startForest f a b) where
  nodup := List.nodup_range
  below := fun _ hi => List.mem_range.1 hi
  size := by simp only [startForest, List.length_range]; omega
  grown := le_refl _
  starts := fun _ _ => rfl
  inner := fun i h₁ h₂ => by simp only [startForest] at h₂; omega
  hasParent := fun c h₁ h₂ => absurd (List.mem_range.2 h₁) h₂
  oneParent := fun c i _ hi _ hc _ => by
    have := hc.1
    simp only [startForest] at hi this
    rw [(startNodes_leaf hi).1] at this
    cases this
  noParent := fun c _ i hi hc => by
    have := hc.1
    simp only [startForest] at hi this
    rw [(startNodes_leaf hi).1] at this
    cases this
  total := map_range_startNodes f

/-- What BUILD makes of a table with a present symbol: a forest whose ACTIVE is the last node alone
(41_tree_builder.md R137, R139, R141). -/
theorem buildForest_ok {f : Freq} (a b : Nat) (h : presentSyms f ≠ []) :
    ForestOk (startNodes f) (freqSum f) (buildForest f a b) ∧
      (buildForest f a b).nodes.length + 1 = 2 * (startNodes f).length ∧
      (buildForest f a b).active = [(buildForest f a b).nodes.length - 1] ∧ 2 ≤ (startNodes f).length := by
  have hL2 : 2 ≤ (startNodes f).length := by
    have : presentCount f ≠ 0 := fun e => h (List.length_eq_zero_iff.1 e)
    rw [startNodes_length]
    split <;> omega
  obtain ⟨ok, h1⟩ := mergeLoop_ok (startNodes_length_le f) (freqSum_lt f) (fun i hi => (startNodes_leaf hi).1)
    (startNodes f).length (startForest_ok f a b)
    (by simp only [startForest, List.length_range]; omega) (by simp only [startForest, List.length_range]; omega)
  have hsz := ok.size
  refine ⟨ok, by unfold buildForest; omega, ?_, hL2⟩
  obtain ⟨r, hr⟩ := List.length_eq_one_iff.1 h1
  show (mergeLoop _ _).active = [(mergeLoop _ _).nodes.length - 1]
  rw [hr]
  by_contra hne
  obtain ⟨i, hi, hc⟩ := ok.hasParent ((mergeLoop (startNodes f).length (startForest f a b)).nodes.length - 1)
    (by omega) (by
      rw [hr, List.mem_singleton]
      exact fun e => hne (by rw [← e]))
  by_cases hs : i < (startNodes f).length
  · have hk := hc.1
    rw [ok.starts i hs, (startNodes_leaf hs).1] at hk
    cases hk
  · have hin := ok.inner i (by omega) hi
    rcases hc.2 with h' | h'
    · have := hin.2.2.1; omega
    · have := hin.2.2.2.1; omega

theorem startForest_nil {f : Freq} (a b : Nat) (h : presentSyms f = []) :
    buildForest f a b = { nodes := [], active := [], a := a, b := b } := by
  have := startNodes_eq_nil.2 h
  unfold buildForest startForest
  simp only [this, List.length_nil, mergeLoop]
  rfl

/-- The node count of BUILD (41_tree_builder.md R131, R141). -/
theorem buildForest_length (f : Freq) (a b : Nat) :
    (buildForest f a b).nodes.length =
      if presentCount f = 0 then 0 else if presentCount f = 1 then 3 else 2 * presentCount f - 1 := by
  by_cases h : presentSyms f = []
  · rw [startForest_nil a b h, if_pos (by simp [presentCount, h])]
    rfl
  · have h0 : presentCount f ≠ 0 := fun e => h (List.length_eq_zero_iff.1 e)
    have := (buildForest_ok a b h).2.1
    rw [startNodes_length] at this
    rw [if_neg h0]
    split at this
    · rw [if_pos ‹_›]; omega
    · rw [if_neg ‹_›]; omega

theorem buildForest_length_le (f : Freq) (a b : Nat) : (buildForest f a b).nodes.length ≤ 511 := by
  have := presentSyms_length_le f
  rw [buildForest_length]
  unfold presentCount
  split
  · omega
  · split <;> omega

/-! ### The arena after BUILD -/

/-- The arena after BUILD: entries 0..NODECNT-1 are BUILD's, the others keep what they held (10_state.md R41). -/
theorem cellAt_buildUnit (s : State) (j : Nat) :
    cellAt (buildUnit s).node j =
      if j < (buildForest s.freq s.regA.val s.regB.val).nodes.length
      then some (nodeOf (buildForest s.freq s.regA.val s.regB.val).nodes j) else cellAt s.node j := by
  rw [buildUnit_node, cellAt_putCells]
  simp only [Nat.zero_le, Nat.zero_add, true_and, Nat.sub_zero]
  split
  · rename_i h
    simp [nodeOf, List.getElem?_eq_getElem h]
  · rfl

theorem nodeAt_buildUnit (s : State) {i : NodeIdx}
    (h : i.val < (buildForest s.freq s.regA.val s.regB.val).nodes.length) :
    (buildUnit s).nodeAt i = nodeOf (buildForest s.freq s.regA.val s.regB.val).nodes i.val := by
  unfold State.nodeAt
  rw [cellAt_buildUnit, if_pos h]
  rfl

theorem nodeCnt_buildUnit (s : State) :
    (buildUnit s).nodeCnt.val = (buildForest s.freq s.regA.val s.regB.val).nodes.length := by
  have := buildForest_length_le s.freq s.regA.val s.regB.val
  rw [buildUnit_nodeCnt]
  simp only [Fin.ofNat]
  omega

theorem root_buildUnit (s : State) :
    (buildUnit s).root.val = (buildForest s.freq s.regA.val s.regB.val).nodes.length - 1 := by
  have := buildForest_length_le s.freq s.regA.val s.regB.val
  rw [buildUnit_root]
  simp only [Fin.ofNat]
  omega

/-- A table without a present symbol: TREE = EMPTY and no node written (41_tree_builder.md R131). -/
theorem buildUnit_empty {s : State} (h : presentSyms s.freq = []) :
    (buildUnit s).tree = .empty ∧ (buildUnit s).root = 0 ∧ (buildUnit s).nodeCnt = 0 ∧
      (buildUnit s).node = s.node ∧ (buildUnit s).active = [] := by
  have e := startForest_nil s.regA.val s.regB.val h
  refine ⟨?_, ?_, ?_, ?_, ?_⟩
  · rw [buildUnit_tree, e]; rfl
  · rw [buildUnit_root, e]; rfl
  · rw [buildUnit_nodeCnt, e]; rfl
  · rw [buildUnit_node, e]; rfl
  · simp only [buildUnit, e, List.map_nil]

/-- A table with a present symbol: TREE = VALID and the arena is a tree (41_tree_builder.md R139, 10_state.md
R49). -/
theorem buildUnit_treeOk {s : State} (h : presentSyms s.freq ≠ []) :
    (buildUnit s).tree = .valid ∧
      TreeOk (buildUnit s).nodeAt (buildUnit s).nodeCnt.val (buildUnit s).root := by
  obtain ⟨ok, hlen, hact, h2⟩ := buildForest_ok s.regA.val s.regB.val h
  have hle := startNodes_length_le s.freq
  have hcnt := nodeCnt_buildUnit s
  have hroot := root_buildUnit s
  have hnode := fun i => @nodeAt_buildUnit s i
  generalize hF : buildForest s.freq s.regA.val s.regB.val = F at *
  have hleafStart : ∀ i, i < F.nodes.length → (nodeOf F.nodes i).kind = .leaf → i < (startNodes s.freq).length := by
    intro i hi hk
    by_contra hs
    have := (ok.inner i (by omega) hi).1
    rw [hk] at this
    cases this
  have hinnerStart : ∀ i, i < F.nodes.length → (nodeOf F.nodes i).kind = .internal → (startNodes s.freq).length ≤ i := by
    intro i hi hk
    by_contra hs
    rw [ok.starts i (by omega), (startNodes_leaf (by omega)).1] at hk
    cases hk
  have hchild : ∀ c i : NodeIdx, i.val < F.nodes.length →
      (IsChildOf (buildUnit s).nodeAt c i ↔ ForestChild F.nodes c.val i.val) := by
    intro c i hi
    unfold IsChildOf ForestChild
    rw [hnode i hi]
    simp only [Fin.ext_iff]
  refine ⟨?_, ?_, ?_, ?_, ?_, ?_, ?_, ?_⟩
  · rw [buildUnit_tree, hF, if_neg (by omega)]
  · rw [hcnt]; omega
  · rw [hcnt]; omega
  · have hr : (startNodes s.freq).length ≤ F.nodes.length - 1 := by omega
    rw [hnode _ (by omega), hroot]
    exact (ok.inner _ hr (by omega)).1
  · intro i hi
    rw [hcnt] at hi
    unfold NodeOk
    rw [hnode i hi]
    by_cases hk : (nodeOf F.nodes i.val).kind = .leaf
    · have hs := hleafStart i.val hi hk
      rw [hk]
      rw [ok.starts _ hs]
      exact (startNodes_leaf hs).2
    · have hk' : (nodeOf F.nodes i.val).kind = .internal := by
        cases hkk : (nodeOf F.nodes i.val).kind
        · exact absurd hkk hk
        · rfl
      obtain ⟨-, h1, hl, hr, hne, hw, hm⟩ := ok.inner i.val (hinnerStart i.val hi hk') hi
      rw [hk']
      dsimp only
      rw [hnode _ (by omega), hnode _ (by omega)]
      exact ⟨h1, hl, hr, hne, hw, hm⟩
  · intro i j hi hj hki hkj hsym
    rw [hcnt] at hi hj
    rw [hnode i hi] at hki hsym
    rw [hnode j hj] at hkj hsym
    have hi' := hleafStart i.val hi hki
    have hj' := hleafStart j.val hj hkj
    rw [ok.starts _ hi', ok.starts _ hj'] at hsym
    exact Fin.ext (startNodes_sym_inj hi' hj' hsym)
  · intro c hc
    obtain ⟨i, hi, hci⟩ := ok.hasParent c.val (by omega) (by
      rw [hact, List.mem_singleton]; omega)
    refine ⟨⟨i, by omega⟩, by rw [hcnt]; exact hi, (hchild c ⟨i, by omega⟩ hi).2 hci⟩
  · intro c i j hi hj hci hcj
    rw [hcnt] at hi hj
    exact Fin.ext (ok.oneParent c.val i.val j.val hi hj ((hchild c i hi).1 hci) ((hchild c j hj).1 hcj))

end Sys2Proof.Machine
end

