-- ==== Sys2Proof/Laws/Compress.lean ====
section
/-! SUPPORT. The laws of COMPRESS: the units one after the other (45_compound_and_control.md R206, R208), the code of
every symbol of the input (43_encoder.md R168), and the walk back over what was encoded (44_decoder.md R193). -/

namespace Sys2Proof.Machine

/-- GENTAB on a tree: no fault, and the table of the tree (42_code_table_generator.md R150, R154). -/
theorem gentabUnit_ok {s : State} (ht : s.tree ≠ .none) (h : s.tree = .valid → TreeOk s.nodeAt s.nodeCnt.val s.root) :
    ∃ code p, s.tableOfTree = some (code, p) ∧
      gentabUnit s = .next { s.startTable with code := code, path := p, codeV := true } := by
  have hsome : ∃ code p, s.tableOfTree = some (code, p) := by
    cases hv : s.tree with
    | none => exact absurd hv ht
    | empty => exact ⟨clearedCode, [], by rw [State.tableOfTree, hv]⟩
    | valid =>
      obtain ⟨code, p, e, -⟩ := tableOfTree_valid hv (h hv)
      exact ⟨code, p, e⟩
  obtain ⟨code, p, e⟩ := hsome
  rcases gentabUnit_cases s with ⟨h', -⟩ | ⟨hv, hl, -⟩ | ⟨-, code', p', e', hg⟩ | ⟨-, e', -⟩
  · exact absurd h' ht
  · have := (h hv).rootInternal
    rw [hl] at this
    cases this
  · rw [e] at e'
    cases e'
    exact ⟨code, p, e, hg⟩
  · rw [e] at e'
    cases e'

/-- The code of a symbol that has a leaf is the path to the leaf, which is not empty (42_code_table_generator.md R151,
R156). -/
theorem codeAt_of_leaf {s : State} {p' : List Bool} (hv : s.tree = .valid) (t : TreeOk s.nodeAt s.nodeCnt.val s.root)
    (htab : s.tableOfTree = some (s.code, p')) {l : NodeIdx} (hl : l.val < s.nodeCnt.val)
    (hk : (s.nodeAt l).kind = .leaf) :
    ∃ p, descend s.nodeAt s.root p = some l ∧ p ≠ [] ∧ p.length ≤ 255 ∧
      s.codeAt (s.nodeAt l).sym.val = CodeEntry.ofPath p := by
  obtain ⟨code, q, e, hleaf, -⟩ := tableOfTree_valid hv t
  rw [htab] at e
  cases e
  obtain ⟨p, hp⟩ := t.reached l hl
  refine ⟨p, hp, ?_, t.path_length_le hp, ?_⟩
  · rintro rfl
    cases hp
    rw [t.rootInternal] at hk
    cases hk
  · unfold State.codeAt
    rw [hleaf p l hp hk]
    rfl

/-- A symbol that is no leaf's has no code (42_code_table_generator.md R151). -/
theorem codeAt_of_no_leaf {s : State} {p' : List Bool} (hv : s.tree = .valid) (t : TreeOk s.nodeAt s.nodeCnt.val s.root)
    (htab : s.tableOfTree = some (s.code, p')) {k : Nat} (hk : k < 257)
    (h : ∀ l : NodeIdx, l.val < s.nodeCnt.val → (s.nodeAt l).kind = .leaf → (s.nodeAt l).sym.val ≠ k) :
    s.codeAt k = CodeEntry.absent := by
  obtain ⟨code, q, e, -, hno⟩ := tableOfTree_valid hv t
  rw [htab] at e
  cases e
  unfold State.codeAt
  rw [hno k hk h]
  rfl

/-- No symbol has a code in the table of an absent tree (42_code_table_generator.md R153). -/
theorem codeAt_of_empty {s : State} {p' : List Bool} (hv : s.tree = .empty)
    (htab : s.tableOfTree = some (s.code, p')) {k : Nat} (hk : k < 257) : s.codeAt k = CodeEntry.absent := by
  unfold State.tableOfTree at htab
  rw [hv] at htab
  simp only [Option.some.injEq, Prod.mk.injEq] at htab
  unfold State.codeAt
  rw [← htab.1, cellAt_clearedCode, if_pos hk]
  rfl

/-- After BUILD every symbol with a non-zero count has a leaf (41_tree_builder.md R132). -/
theorem buildUnit_leaf {s : State} {k : Nat} (h : k ∈ presentSyms s.freq) :
    ∃ l : NodeIdx, l.val < (buildUnit s).nodeCnt.val ∧ ((buildUnit s).nodeAt l).kind = .leaf ∧
      ((buildUnit s).nodeAt l).sym.val = k := by
  have hne : presentSyms s.freq ≠ [] := List.ne_nil_of_mem h
  obtain ⟨ok, -, -, -⟩ := buildForest_ok s.regA.val s.regB.val hne
  obtain ⟨i, hi, rfl⟩ := List.getElem_of_mem h
  have hstart : i < (startNodes s.freq).length := by
    have := List.length_pos_of_ne_nil hne
    rw [startNodes_length]
    unfold presentCount
    split <;> omega
  have hgrown := ok.grown
  have hle := buildForest_length_le s.freq s.regA.val s.regB.val
  have hlt : i < (buildForest s.freq s.regA.val s.regB.val).nodes.length := by omega
  refine ⟨⟨i, by omega⟩, by rw [nodeCnt_buildUnit]; exact hlt, ?_⟩
  rw [nodeAt_buildUnit s hlt]
  show (nodeOf _ i).kind = _ ∧ (nodeOf _ i).sym.val = _
  rw [ok.starts i hstart, nodeOf_startNodes hi]
  exact ⟨rfl, leafNode_sym _ (presentSyms_getElem_lt hi)⟩

/-- The symbols of a counted input are those with a non-zero count (40_frequency_counter.md R121). -/
theorem mem_presentSyms_countFreq {input : List Byte} (h : input.length < 2 ^ 32) {c : Byte} :
    c.toNat ∈ presentSyms (countFreq input) ↔ c ∈ input := by
  rw [mem_presentSyms, ← List.count_pos_iff, ← toNat_freqAt_countFreq h]
  have : freqAt (countFreq input) c.toNat ≠ 0#32 ↔ 0 < (freqAt (countFreq input) c.toNat).toNat := by
    rw [Nat.pos_iff_ne_zero, ne_eq, ne_eq, ← BitVec.toNat_inj]
    simp
  rw [this]
  exact and_iff_right c.isLt

/-- The state COMPRESS hands to its BUILD (45_compound_and_control.md R206). -/
def State.counted (s : State) : State := { s with freq := countFreq s.inputSeq, symPos := s.len }

/-- The state COMPRESS hands to its ENCODE, given the table and the path of the last leaf. -/
def State.tabled (s : State) (code : Store CodeEntry) (p : List Bool) : State :=
  { (buildUnit s.counted).startTable with code := code, path := p, codeV := true }

theorem counted_err (s : State) : s.counted.err = s.err := rfl

theorem tabled_err (s : State) (code : Store CodeEntry) (p : List Bool) : (s.tabled code p).err = s.err := by
  unfold State.tabled
  simp only [State.startTable_err, buildUnit_err, counted_err]

section Tabled

variable (s : State) (code : Store CodeEntry) (p : List Bool)

@[simp] theorem tabled_cfg : (s.tabled code p).cfg = s.cfg := by simp [State.tabled, State.counted]
@[simp] theorem tabled_fmt : (s.tabled code p).fmt = s.fmt := by simp [State.tabled, State.counted]
@[simp] theorem tabled_len : (s.tabled code p).len = s.len := by simp [State.tabled, State.counted]
@[simp] theorem tabled_codeV : (s.tabled code p).codeV = true := rfl
@[simp] theorem tabled_freq : (s.tabled code p).freq = countFreq s.inputSeq := by simp [State.tabled, State.counted]
@[simp] theorem tabled_bits : (s.tabled code p).bits = s.bits := by simp [State.tabled, State.counted]
@[simp] theorem tabled_sym : (s.tabled code p).sym = s.sym := by simp [State.tabled, State.counted]
@[simp] theorem tabled_epoch : (s.tabled code p).epoch = s.epoch := by simp [State.tabled, State.counted]

@[simp] theorem tabled_free (id : ByteMem) : (s.tabled code p).free id = s.free id := by
  unfold State.free
  rw [tabled_epoch]

@[simp] theorem tabled_inputSeq : (s.tabled code p).inputSeq = s.inputSeq := by
  unfold State.inputSeq State.symByte
  rw [tabled_len, tabled_free, tabled_sym]

end Tabled

/-- The table of a tree does not depend on the table held. -/
theorem tableOfTree_tabled (s : State) (code : Store CodeEntry) (p : List Bool) :
    (s.tabled code p).tableOfTree = (buildUnit s.counted).tableOfTree := by
  unfold State.tabled
  generalize buildUnit s.counted = b
  rfl

/-- What COMPRESS behind the gate can do with no fault latched: RANGE from COUNT, or ENCODE with the table of the
tree of its own input (45_compound_and_control.md R206). -/
theorem compressUnit_cases {s : State} (herr : s.err = false) :
    (s.cfg.maxLen < s.len.toNat ∧ compressUnit s = .next (s.raiseFault (some .count) .range s.len)) ∨
    (s.len.toNat ≤ s.cfg.maxLen ∧ ∃ code p, (s.tabled code p).tableOfTree = some (code, p) ∧
      compressUnit s = .next (encodeUnit (s.tabled code p))) := by
  rcases countUnit_cases s with ⟨h, e⟩ | ⟨h, e⟩
  · refine .inl ⟨h, ?_⟩
    unfold compressUnit
    rw [e]
    rfl
  · refine .inr ⟨h, ?_⟩
    have htree : (buildUnit s.counted).tree ≠ .none := by
      rw [buildUnit_tree]
      split <;> simp
    have hok : (buildUnit s.counted).tree = .valid →
        TreeOk (buildUnit s.counted).nodeAt (buildUnit s.counted).nodeCnt.val (buildUnit s.counted).root := by
      intro hv
      by_cases hp : presentSyms s.counted.freq = []
      · rw [(buildUnit_empty hp).1] at hv
        cases hv
      · exact (buildUnit_treeOk hp).2
    obtain ⟨code, p, ht, hg⟩ := gentabUnit_ok (s := buildUnit s.counted) htree hok
    refine ⟨code, p, (tableOfTree_tabled s code p).trans ht, ?_⟩
    have he : countUnit s = s.counted := e
    have h2 : (s.tabled code p).err = false := by rw [tabled_err, herr]
    unfold compressUnit
    rw [he, counted_err, herr, hg, if_neg (by simp)]
    rw [← State.tabled]
    unfold encodeAfter
    dsimp only
    rw [h2, if_neg (by simp)]

theorem tabled_tree (s : State) (code : Store CodeEntry) (p : List Bool) :
    (s.tabled code p).tree = (buildUnit s.counted).tree := rfl

theorem tabled_root (s : State) (code : Store CodeEntry) (p : List Bool) :
    (s.tabled code p).root = (buildUnit s.counted).root := rfl

theorem tabled_nodeCnt (s : State) (code : Store CodeEntry) (p : List Bool) :
    (s.tabled code p).nodeCnt = (buildUnit s.counted).nodeCnt := rfl

theorem tabled_nodeAt (s : State) (code : Store CodeEntry) (p : List Bool) :
    (s.tabled code p).nodeAt = (buildUnit s.counted).nodeAt := rfl

theorem tabled_code (s : State) (code : Store CodeEntry) (p : List Bool) : (s.tabled code p).code = code := rfl

theorem counted_freq (s : State) : s.counted.freq = countFreq s.inputSeq := rfl

/-- The tree of an input that is not empty (41_tree_builder.md R139, 10_state.md R49). -/
theorem tabled_treeOk {s : State} (hl : s.len.toNat ≠ 0) (code : Store CodeEntry) (p : List Bool) :
    (s.tabled code p).tree = .valid ∧
      TreeOk (s.tabled code p).nodeAt (s.tabled code p).nodeCnt.val (s.tabled code p).root := by
  rw [tabled_tree, tabled_nodeAt, tabled_nodeCnt, tabled_root]
  refine buildUnit_treeOk fun hn => ?_
  rw [counted_freq] at hn
  have h32 : s.inputSeq.length < 2 ^ 32 := by rw [length_inputSeq]; exact s.len.isLt
  obtain ⟨c, hc⟩ := List.exists_mem_of_length_pos (l := s.inputSeq) (by rw [length_inputSeq]; omega)
  have := (mem_presentSyms_countFreq h32).2 hc
  rw [hn] at this
  cases this

/-- Every symbol of COMPRESS's input has a code, the path to its leaf (43_encoder.md R168): LOOKUP cannot occur. -/
theorem tabled_look {s : State} {code : Store CodeEntry} {p : List Bool}
    (ht : (s.tabled code p).tableOfTree = some (code, p)) {c : Byte} (hc : c ∈ s.inputSeq) :
    ((s.tabled code p).look c).valid = true ∧ ((s.tabled code p).look c).code ≠ [] ∧
      ((s.tabled code p).look c).code.length ≤ 255 ∧
      ∃ l, descend (s.tabled code p).nodeAt (s.tabled code p).root ((s.tabled code p).look c).code = some l ∧
        ((s.tabled code p).nodeAt l).kind = .leaf ∧ ((s.tabled code p).nodeAt l).sym.val = c.toNat := by
  have h32 : s.inputSeq.length < 2 ^ 32 := by rw [length_inputSeq]; exact s.len.isLt
  have hlen : s.len.toNat ≠ 0 := by
    rw [← length_inputSeq]
    exact (List.length_pos_of_mem hc).ne'
  obtain ⟨hv, t⟩ := tabled_treeOk hlen code p
  obtain ⟨l, hl, hk, hs⟩ := buildUnit_leaf (s := s.counted) (k := c.toNat)
    (by rw [counted_freq]; exact (mem_presentSyms_countFreq h32).2 hc)
  rw [← tabled_nodeCnt s code p] at hl
  rw [← tabled_nodeAt s code p] at hk hs
  obtain ⟨q, hq, hne, hq255, e⟩ := codeAt_of_leaf hv t (by rw [tabled_code]; exact ht) hl hk
  have hlook : (s.tabled code p).look c = CodeEntry.ofPath q := by
    unfold State.look
    rw [← e, hs]
  rw [hlook, CodeEntry.code_ofPath hq255]
  exact ⟨rfl, hne, hq255, l, hq, hk, hs⟩

/-- The codes of the tree are those of the tree BUILD made. -/
theorem tabled_isCode (s : State) (code : Store CodeEntry) (p q : List Bool) (k : Nat) :
    (s.tabled code p).IsCode q k ↔ (buildUnit s.counted).IsCode q k := by
  unfold State.IsCode
  rw [tabled_nodeAt, tabled_root]

/-- The table holds every code of the tree (42_code_table_generator.md R151). -/
theorem codeAt_tabled {s : State} {code : Store CodeEntry} {p : List Bool}
    (ht : (s.tabled code p).tableOfTree = some (code, p)) (h0 : s.len.toNat ≠ 0) {q : List Bool} {k : Nat}
    (h : (s.tabled code p).IsCode q k) : (s.tabled code p).codeAt k = CodeEntry.ofPath q ∧ q.length ≤ 255 := by
  obtain ⟨hv, tr⟩ := tabled_treeOk h0 code p
  obtain ⟨l, hl, hk, hs⟩ := h
  have hroot := tr.rootLast
  have hle := tr.descend_le (by omega) hl
  obtain ⟨q', hq', -, h255, e⟩ := codeAt_of_leaf hv tr (by rw [tabled_code]; exact ht) (by omega) hk
  cases tr.path_unique _ _ hl hq'
  exact ⟨hs ▸ e, h255⟩

/-- The code of a symbol of the input is a code of the tree (43_encoder.md R168). -/
theorem isCode_tabled {s : State} {code : Store CodeEntry} {p : List Bool}
    (ht : (s.tabled code p).tableOfTree = some (code, p)) {c : Byte} (hc : c ∈ s.inputSeq) :
    (s.tabled code p).IsCode ((s.tabled code p).look c).code c.toNat := by
  obtain ⟨-, -, -, l, hl, hk, hs⟩ := tabled_look ht hc
  exact ⟨l, hl, hk, hs⟩

/-- COMPRESS's ENCODE: the codes of the whole input, or OVERFLOW because they do not fit (45_compound_and_control.md
R206; LOOKUP cannot occur, 43_encoder.md R168). -/
theorem encodeUnit_tabled {s : State} {code : Store CodeEntry} {p : List Bool} (hl : s.len.toNat ≤ s.cfg.maxLen)
    (ht : (s.tabled code p).tableOfTree = some (code, p)) :
    ((concatCodes (s.tabled code p).look s.inputSeq).length ≤ s.cfg.maxBits ∧
      encodeUnit (s.tabled code p) = (s.tabled code p).finishEncode
        (encRegsAt (s.tabled code p) (concatCodes (s.tabled code p).look s.inputSeq) s.len.toNat .none)) ∨
    (s.cfg.maxBits < (concatCodes (s.tabled code p).look s.inputSeq).length ∧ ∃ done c rest,
      s.inputSeq = done ++ c :: rest ∧ (concatCodes (s.tabled code p).look done).length ≤ s.cfg.maxBits ∧
      encodeUnit (s.tabled code p) = ((s.tabled code p).withEncRegs
        (encRegsAt (s.tabled code p) (concatCodes (s.tabled code p).look done) done.length .overflow)).raiseFault
          (some .encode) .overflow (BitVec.ofNat 32 done.length)) := by
  rcases encodeUnit_cases (s.tabled code p) with ⟨h, -⟩ | ⟨-, h, -⟩ | ⟨-, -, -, hfit, e⟩ |
      ⟨-, -, done, c, rest, f, hs, -, hfit, hf, e⟩
  · rw [tabled_codeV] at h; cases h
  · rw [tabled_cfg, tabled_len] at h; omega
  · rw [tabled_inputSeq, tabled_cfg] at hfit
    rw [tabled_inputSeq, tabled_len] at e
    exact .inl ⟨hfit, e⟩
  · rw [tabled_inputSeq] at hs
    rw [tabled_cfg] at hfit hf
    rcases hf with ⟨hv, -⟩ | ⟨-, hlt, rfl⟩
    · have := (tabled_look ht (c := c) (by rw [hs]; simp)).1
      rw [hv] at this; cases this
    · refine .inr ⟨?_, done, c, rest, hs, hfit, e⟩
      rw [hs]
      have hc := CodeEntry.length_code ((s.tabled code p).look c)
      unfold concatCodes at hlt ⊢
      rw [List.flatMap_append, List.flatMap_cons, List.length_append, List.length_append]
      omega

/-- The table of an empty input is the empty mapping (45_compound_and_control.md R208). -/
theorem tabled_empty {s : State} {code : Store CodeEntry} {p : List Bool}
    (ht : (s.tabled code p).tableOfTree = some (code, p)) (h : s.len = 0#32) :
    (s.tabled code p).tree = .empty ∧ (s.tabled code p).nodeCnt = 0 ∧
      ∀ k, k < 257 → (s.tabled code p).codeAt k = CodeEntry.absent := by
  have hin : s.inputSeq = [] := by unfold State.inputSeq; rw [h]; rfl
  have hp : presentSyms s.counted.freq = [] := by
    rw [counted_freq, hin]
    exact presentSyms_eq_nil.2 fun i _ => freqAt_zeroFreq i
  obtain ⟨h1, -, h3, -⟩ := buildUnit_empty hp
  refine ⟨by rw [tabled_tree, h1], by rw [tabled_nodeCnt, h3], fun k hk => ?_⟩
  exact codeAt_of_empty (by rw [tabled_tree, h1]) ht hk

/-- The absent tree's empty bit-string (44_decoder.md R184). -/
theorem decodeUnit_empty {s : State} {cmd : Instr} (htree : s.tree = .empty) (hbl : s.bitLen = 0#32) :
    decodeUnit cmd s = s.startDecode := by
  have hel : s.elems = [] := by unfold State.elems; rw [hbl]; rfl
  have hfi : firstInvalid s.elems = none := by rw [hel]; rfl
  rcases decodeUnit_cases cmd s with ⟨h, -⟩ | ⟨-, h, -⟩ | ⟨-, -, i, h, -⟩ | ⟨-, -, -, e⟩ | ⟨h, -⟩
  · rw [htree] at h; cases h
  · rw [hbl] at h; exact absurd h (Nat.not_lt_zero _)
  · rw [hfi] at h; cases h
  · rw [e, if_pos hbl]
  · rw [htree] at h; cases h

end Sys2Proof.Machine
end

