-- ==== Sys2Proof/Laws/Merge.lean ====
section
/-! SUPPORT. The laws of BUILD's merges beyond the tree's shape: an induction over the merges, the choice of the two
least members (41_tree_builder.md R134, R135), the root's weight (R140), and that the working registers A and B have
no influence (R142). -/

namespace Sys2Proof.Machine

/-! ### Induction over the merges -/

/-- What holds of the forest of leaves and is kept by every merge holds at the end of the loop. -/
theorem mergeLoop_induct {start : List Node} {tot : Nat} (hs : start.length ≤ 256) (ht : tot < 2 ^ 40)
    (hk : ∀ i, i < start.length → (nodeOf start i).kind = .leaf) {P : Forest → Prop}
    (step : ∀ F, ForestOk start tot F → 2 ≤ F.active.length → P F → P (mergeStep F)) (k : Nat) {F : Forest}
    (ok : ForestOk start tot F) (h : P F) : P (mergeLoop k F) := by
  induction k generalizing F with
  | zero => exact h
  | succ k ih =>
    rw [mergeLoop]
    by_cases h1 : F.active.length ≤ 1
    · rwa [if_pos h1]
    · rw [if_neg h1]
      exact ih (mergeStep_ok ok hs ht hk (by omega)).1 (step F ok (by omega) h)

/-- The same for BUILD's whole run on a frequency table. -/
theorem buildForest_induct (f : Freq) (a b : Nat) {P : Forest → Prop}
    (step : ∀ F, ForestOk (startNodes f) (freqSum f) F → 2 ≤ F.active.length → P F → P (mergeStep F))
    (h : P (startForest f a b)) : P (buildForest f a b) :=
  mergeLoop_induct (startNodes_length_le f) (freqSum_lt f) (fun _ hi => (startNodes_leaf hi).1) step _
    (startForest_ok f a b) h

/-! ### The two least members -/

/-- The members of ACTIVE have different minsym (41_tree_builder.md R136). -/
def MinsymsDiffer (F : Forest) : Prop :=
  ∀ x ∈ F.active, ∀ y ∈ F.active, (nodeOf F.nodes x).minsym = (nodeOf F.nodes y).minsym → x = y

/-- The nodes of index below `i` that no node of index below `i` has as a child. -/
def ForestUnmerged (nodes : List Node) (i j : Nat) : Prop := j < i ∧ ∀ k, k < i → ¬ ForestChild nodes j k

/-- Every Internal node has the two least of the unmerged nodes as its children (41_tree_builder.md R135). -/
def MergedLeast (start : List Node) (nodes : List Node) : Prop :=
  ∀ i, start.length ≤ i → i < nodes.length →
    ForestUnmerged nodes i (nodeOf nodes i).left.val ∧ ForestUnmerged nodes i (nodeOf nodes i).right.val ∧
    (∀ j, ForestUnmerged nodes i j → j ≠ (nodeOf nodes i).left.val →
      Precedes (nodeOf nodes (nodeOf nodes i).left.val) (nodeOf nodes j)) ∧
    (∀ j, ForestUnmerged nodes i j → j ≠ (nodeOf nodes i).left.val → j ≠ (nodeOf nodes i).right.val →
      Precedes (nodeOf nodes (nodeOf nodes i).right.val) (nodeOf nodes j))

theorem precedes_of_not_less {x y : Node} (h : ¬ y.less x = true) (hm : y.minsym ≠ x.minsym) : Precedes x y := by
  rw [Node.less_iff] at h
  unfold Precedes
  rw [BitVec.lt_def, ← BitVec.toNat_inj, Fin.lt_def]
  have : y.minsym.val ≠ x.minsym.val := fun e => hm (Fin.ext e)
  omega

/-- The members of ACTIVE are the nodes that are no node's child. -/
theorem ForestOk.unmerged_iff {start : List Node} {tot : Nat} {F : Forest} (ok : ForestOk start tot F) (j : Nat) :
    ForestUnmerged F.nodes F.nodes.length j ↔ j ∈ F.active := by
  constructor
  · rintro ⟨hj, h⟩
    by_contra hn
    obtain ⟨i, hi, hc⟩ := ok.hasParent j hj hn
    exact h i hi hc
  · intro h
    exact ⟨ok.below j h, ok.noParent j h⟩

theorem mergeStep_least {start : List Node} {tot : Nat} {F : Forest} (ok : ForestOk start tot F)
    (hs : start.length ≤ 256) (h2 : 2 ≤ F.active.length) (hd : MinsymsDiffer F) (hm : MergedLeast start F.nodes) :
    MinsymsDiffer (mergeStep F) ∧ MergedLeast start (mergeStep F).nodes := by
  obtain ⟨a, b, ha, hb, hal, hbl, e⟩ := mergeStep_cases h2
  have hb' : b ∈ F.active := List.mem_of_mem_erase hb
  have hba : b ≠ a := fun h => ok.nodup.not_mem_erase (h ▸ hb)
  have hla := ok.below a ha
  have hlb := ok.below b hb'
  have hsz := ok.size
  have va : (Fin.ofNat 511 a).val = a := by simp only [Fin.ofNat]; omega
  have vb : (Fin.ofNat 511 b).val = b := by simp only [Fin.ofNat]; omega
  have hmem : ∀ i, i ∈ (F.active.erase a).erase b ↔ i ∈ F.active ∧ i ≠ a ∧ i ≠ b := by
    intro i
    rw [(ok.nodup.erase a).mem_erase_iff, ok.nodup.mem_erase_iff]
    tauto
  have hold : ∀ i, i < F.nodes.length → nodeOf (F.nodes ++ [internalNode F.nodes a b]) i = nodeOf F.nodes i :=
    fun i hi => nodeOf_append_lt hi
  have hnew := nodeOf_append_length F.nodes (internalNode F.nodes a b)
  have hmin : (internalNode F.nodes a b).minsym = (nodeOf F.nodes a).minsym ∨
      (internalNode F.nodes a b).minsym = (nodeOf F.nodes b).minsym := min_choice _ _
  have hfresh : ∀ x ∈ F.active, x ≠ a → x ≠ b →
      (nodeOf F.nodes x).minsym ≠ (internalNode F.nodes a b).minsym := by
    intro x hx hxa hxb h
    rcases hmin with h' | h'
    · exact hxa (hd x hx a ha (h.trans h'))
    · exact hxb (hd x hx b hb' (h.trans h'))
  have hun : ∀ i j, i ≤ F.nodes.length →
      (ForestUnmerged (F.nodes ++ [internalNode F.nodes a b]) i j ↔ ForestUnmerged F.nodes i j) := by
    intro i j hi
    unfold ForestUnmerged ForestChild
    refine and_congr_right fun _ => forall_congr' fun k => imp_congr_right fun hk => ?_
    rw [hold k (by omega)]
  rw [e]
  refine ⟨?_, ?_⟩
  · intro x hx y hy hxy
    simp only [List.mem_append, hmem, List.mem_singleton] at hx hy
    dsimp only at hxy
    rcases hx with ⟨hx, hxa, hxb⟩ | rfl <;> rcases hy with ⟨hy, hya, hyb⟩ | rfl
    · rw [hold x (ok.below x hx), hold y (ok.below y hy)] at hxy
      exact hd x hx y hy hxy
    · rw [hold x (ok.below x hx), hnew] at hxy
      exact absurd hxy (hfresh x hx hxa hxb)
    · rw [hold y (ok.below y hy), hnew] at hxy
      exact absurd hxy.symm (hfresh y hy hya hyb)
    · rfl
  · intro i hi hlt
    dsimp only at hlt ⊢
    rw [List.length_append, List.length_singleton] at hlt
    by_cases hin : i < F.nodes.length
    · obtain ⟨h1, h2, h3, h4⟩ := hm i hi hin
      rw [hold i hin, hold _ (lt_trans h1.1 hin), hold _ (lt_trans h2.1 hin)]
      simp only [hun i _ hin.le]
      refine ⟨h1, h2, fun j hj hne => ?_, fun j hj hne hne' => ?_⟩
      · rw [hold j (lt_trans hj.1 hin)]; exact h3 j hj hne
      · rw [hold j (lt_trans hj.1 hin)]; exact h4 j hj hne hne'
    · obtain rfl : i = F.nodes.length := by omega
      have hl : (internalNode F.nodes a b).left.val = a := va
      have hr : (internalNode F.nodes a b).right.val = b := vb
      rw [hnew, hl, hr, hold a hla, hold b hlb]
      simp only [hun _ _ le_rfl, ok.unmerged_iff]
      refine ⟨ha, hb', fun j hj hne => ?_, fun j hj hne hne' => ?_⟩
      · rw [hold j (ok.below j hj)]
        exact precedes_of_not_less (hal j hj) fun h => hne (hd j hj a ha h)
      · rw [hold j (ok.below j hj)]
        exact precedes_of_not_less (hbl j (ok.nodup.mem_erase_iff.2 ⟨hne, hj⟩)) fun h => hne' (hd j hj b hb' h)

/-- BUILD merges the two least members of ACTIVE at every merge (41_tree_builder.md R134, R135). -/
theorem buildForest_least (f : Freq) (a b : Nat) : MergedLeast (startNodes f) (buildForest f a b).nodes := by
  refine (buildForest_induct f a b (P := fun F => MinsymsDiffer F ∧ MergedLeast (startNodes f) F.nodes)
    (fun F ok h2 h => mergeStep_least ok (startNodes_length_le f) h2 h.1 h.2) ⟨?_, ?_⟩).2
  · intro x hx y hy h
    have hx' : x < (startNodes f).length := List.mem_range.1 hx
    have hy' : y < (startNodes f).length := List.mem_range.1 hy
    have hnx := (startNodes_leaf hx').2.1
    have hny := (startNodes_leaf hy').2.1
    exact startNodes_sym_inj hx' hy' (hnx.symm.trans (h.trans hny))
  · intro i hi hlt
    exact absurd hlt (Nat.not_lt.2 hi)

/-! ### The root's weight and the registers A and B -/

/-- The root's weight is the sum of all counts (41_tree_builder.md R140). -/
theorem buildForest_root_weight {f : Freq} (a b : Nat) (h : presentSyms f ≠ []) :
    (nodeOf (buildForest f a b).nodes ((buildForest f a b).nodes.length - 1)).weight.toNat = freqSum f := by
  obtain ⟨ok, -, hact, -⟩ := buildForest_ok a b h
  have := ok.total
  rw [hact] at this
  simpa using this

theorem mergeStep_nodes_active (F : Forest) (a b : Nat) :
    (mergeStep { F with a := a, b := b }).nodes = (mergeStep F).nodes ∧
      (mergeStep { F with a := a, b := b }).active = (mergeStep F).active := by
  unfold mergeStep
  dsimp only
  split
  · exact ⟨rfl, rfl⟩
  · split <;> exact ⟨rfl, rfl⟩

theorem mergeLoop_nodes_active (k : Nat) (F G : Forest) (hn : F.nodes = G.nodes) (ha : F.active = G.active) :
    (mergeLoop k F).nodes = (mergeLoop k G).nodes ∧ (mergeLoop k F).active = (mergeLoop k G).active := by
  induction k generalizing F G with
  | zero => exact ⟨hn, ha⟩
  | succ k ih =>
    rw [mergeLoop, mergeLoop, ha]
    split
    · exact ⟨hn, ha⟩
    · have hF : F = { G with a := F.a, b := F.b } := by cases F; cases G; cases hn; cases ha; rfl
      rw [hF]
      exact ih _ _ (mergeStep_nodes_active G F.a F.b).1 (mergeStep_nodes_active G F.a F.b).2

/-- The nodes BUILD makes do not depend on what A and B held (41_tree_builder.md R142). -/
theorem buildForest_nodes_eq (f : Freq) (a b a' b' : Nat) :
    (buildForest f a b).nodes = (buildForest f a' b').nodes :=
  (mergeLoop_nodes_active _ (startForest f a b) (startForest f a' b') rfl rfl).1

/-! ### The arena BUILD leaves -/

/-- The kind of a node BUILD makes is settled by its index (41_tree_builder.md R141). -/
theorem buildForest_kind {f : Freq} (a b : Nat) (h : presentSyms f ≠ []) {i : Nat}
    (hi : i < (buildForest f a b).nodes.length) :
    ((nodeOf (buildForest f a b).nodes i).kind = .leaf ↔ i < (startNodes f).length) ∧
    ((nodeOf (buildForest f a b).nodes i).kind = .internal ↔ (startNodes f).length ≤ i) := by
  obtain ⟨ok, -, -, -⟩ := buildForest_ok a b h
  by_cases hs : i < (startNodes f).length
  · have := (startNodes_leaf hs).1
    rw [ok.starts i hs, this]
    simp [hs]
  · have := (ok.inner i (by omega) hi).1
    rw [this]
    simp [hs, Nat.le_of_not_lt hs]

/-- A node is a child in the machine's arena exactly when it is one in the list of nodes. -/
theorem isChildOf_buildUnit (s : State) (c i : NodeIdx)
    (hi : i.val < (buildForest s.freq s.regA.val s.regB.val).nodes.length) :
    IsChildOf (buildUnit s).nodeAt c i ↔
      ForestChild (buildForest s.freq s.regA.val s.regB.val).nodes c.val i.val := by
  unfold IsChildOf ForestChild
  rw [nodeAt_buildUnit s hi]
  simp only [Fin.ext_iff]

theorem unmerged_buildUnit (s : State) (j i : NodeIdx)
    (hi : i.val < (buildForest s.freq s.regA.val s.regB.val).nodes.length) :
    Unmerged (buildUnit s).nodeAt i.val j ↔
      ForestUnmerged (buildForest s.freq s.regA.val s.regB.val).nodes i.val j.val := by
  unfold Unmerged ForestUnmerged
  refine and_congr_right fun _ => ⟨fun h k hk => ?_, fun h k hk => ?_⟩
  · have := h ⟨k, by omega⟩ hk
    rwa [isChildOf_buildUnit s j ⟨k, by omega⟩ (by dsimp only; omega)] at this
  · rw [isChildOf_buildUnit s j k (by omega)]
    exact h k.val hk

end Sys2Proof.Machine
end

