-- ==== Sys2Proof/Laws/CodeLength.lean ====
section
/-! SUPPORT. Why the codes BUILD and GENTAB make of an input take at most eight bits a symbol (00_scope.md R8): the
Internal nodes' weights sum to at most 8 * LEN, because at most 256 trees are merged, two least at a time; and the
length of the concatenated codes is that sum, because each bit of a code is one Internal node above its leaf. -/

namespace Sys2Proof.Machine

/-! ### The cost of merging two least weights at a time -/

/-- The weights `m` split into `u`, to be charged `d + 1` times more, and `v`, to be charged `d` times more, so that
the cost `c` and these charges stay within `bound`; there is room for the split in a binary tree of depth `d + 1`. -/
def Affordable (m : Multiset ℕ) (c bound : ℕ) : Prop :=
  ∃ d u v, m = u + v ∧ u.card + 2 * v.card ≤ 2 ^ (d + 1) ∧ c + (d + 1) * u.sum + d * v.sum ≤ bound

/-- With two weights or more, two of them can be taken to be charged `d + 1` times. -/
theorem Affordable.two {m : Multiset ℕ} {c bound : ℕ} (h : Affordable m c bound) (h2 : 2 ≤ m.card) :
    ∃ d u v, m = u + v ∧ 2 ≤ u.card ∧ u.card + 2 * v.card ≤ 2 ^ (d + 1) ∧
      c + (d + 1) * u.sum + d * v.sum ≤ bound := by
  obtain ⟨d, u, v, rfl, hc, hb⟩ := h
  by_cases hu : 2 ≤ u.card
  · exact ⟨d, u, v, rfl, hu, hc, hb⟩
  · rw [Multiset.card_add] at h2
    cases d with
    | zero => simp only [zero_add, pow_one] at hc; omega
    | succ d =>
      have h2d : 2 ^ (d + 1 + 1) = 2 * 2 ^ (d + 1) := by ring
      refine ⟨d, u + v, 0, by simp, by rw [Multiset.card_add]; exact h2, ?_, ?_⟩
      · rw [Multiset.card_add, Multiset.card_zero]
        omega
      · rw [Multiset.sum_add, Multiset.sum_zero, mul_zero, add_zero, mul_add]
        have : (d + 1) * u.sum ≤ (d + 1 + 1) * u.sum := Nat.mul_le_mul_right _ (Nat.le_succ _)
        linarith

/-- A least weight can be taken to be charged `d + 1` times. -/
theorem exchange_least {x d : ℕ} {m u v : Multiset ℕ} (hm : x ::ₘ m = u + v) (hx : ∀ z ∈ m, x ≤ z)
    (hu : u ≠ 0) :
    ∃ u' v', m = u' + v' ∧ u'.card + 1 = u.card ∧ v'.card = v.card ∧
      (d + 1) * (x + u'.sum) + d * v'.sum ≤ (d + 1) * u.sum + d * v.sum := by
  by_cases hxu : x ∈ u
  · obtain ⟨u', rfl⟩ := Multiset.exists_cons_of_mem hxu
    rw [Multiset.cons_add, Multiset.cons_inj_right] at hm
    exact ⟨u', v, hm, by simp, rfl, by simp⟩
  · have hxv : x ∈ v := by
      have : x ∈ u + v := hm ▸ Multiset.mem_cons_self x m
      exact (Multiset.mem_add.1 this).resolve_left hxu
    obtain ⟨v', rfl⟩ := Multiset.exists_cons_of_mem hxv
    rw [Multiset.add_cons, Multiset.cons_inj_right] at hm
    obtain ⟨y, hy⟩ := Multiset.exists_mem_of_ne_zero hu
    obtain ⟨u', rfl⟩ := Multiset.exists_cons_of_mem hy
    have hxy : x ≤ y := hx y (hm ▸ Multiset.mem_add.2 (.inl hy))
    refine ⟨u', y ::ₘ v', by rw [hm, Multiset.cons_add, Multiset.add_cons], by simp, by simp, ?_⟩
    simp only [Multiset.sum_cons]
    nlinarith

/-- Merging the two least weights keeps the cost within the bound. -/
theorem Affordable.merge {x y c bound : ℕ} {r : Multiset ℕ} (h : Affordable (x ::ₘ y ::ₘ r) c bound) (hxy : x ≤ y)
    (hy : ∀ z ∈ r, y ≤ z) : Affordable ((x + y) ::ₘ r) (c + (x + y)) bound := by
  obtain ⟨d, u, v, hm, h2, hc, hb⟩ := h.two (by simp)
  have hx : ∀ z ∈ y ::ₘ r, x ≤ z := by
    intro z hz
    rcases Multiset.mem_cons.1 hz with rfl | hz
    · exact hxy
    · exact hxy.trans (hy z hz)
  obtain ⟨u₁, v₁, hm₁, hu₁, hv₁, hs₁⟩ := exchange_least (d := d) hm hx (fun e => by simp [e] at h2)
  obtain ⟨u₂, v₂, hm₂, hu₂, hv₂, hs₂⟩ := exchange_least (d := d) hm₁ hy (fun e => by rw [e] at hu₁; simp at hu₁; omega)
  refine ⟨d, u₂, (x + y) ::ₘ v₂, by rw [hm₂, Multiset.add_cons], ?_, ?_⟩
  · rw [Multiset.card_cons]
    omega
  · simp only [Multiset.sum_cons]
    nlinarith

/-- The weights of the members of ACTIVE. -/
def Forest.weights (f : Forest) : Multiset ℕ := (f.active.map (fun i => (nodeOf f.nodes i).weight.toNat) : List ℕ)

/-- The weights of the Internal nodes, summed. -/
def innerSum (nodes : List Node) : ℕ :=
  ∑ i ∈ Finset.range nodes.length, if (nodeOf nodes i).kind = .internal then (nodeOf nodes i).weight.toNat else 0

theorem weight_le_of_not_less {x y : Node} (h : ¬ y.less x = true) : x.weight.toNat ≤ y.weight.toNat := by
  rw [Node.less_iff] at h
  omega

theorem weights_mergeStep {start : List Node} {tot : Nat} {f : Forest} (ok : ForestOk start tot f)
    (hs : start.length ≤ 256) (ht : tot < 2 ^ 40) (hk : ∀ i, i < start.length → (nodeOf start i).kind = .leaf)
    (h2 : 2 ≤ f.active.length) :
    ∃ x y r, f.weights = x ::ₘ y ::ₘ r ∧ x ≤ y ∧ (∀ z ∈ r, y ≤ z) ∧ (mergeStep f).weights = (x + y) ::ₘ r ∧
      innerSum (mergeStep f).nodes = innerSum f.nodes + (x + y) := by
  obtain ⟨ok', -⟩ := mergeStep_ok ok hs ht hk h2
  obtain ⟨a, b, ha, hb, hla, hlb, e⟩ := mergeStep_cases h2
  have hinner := ok'.inner f.nodes.length ok.grown (by rw [e]; simp)
  have hal := ok.below a ha
  have hbl := ok.below b (List.mem_of_mem_erase hb)
  have hsz := ok.size
  have va : (Fin.ofNat 511 a).val = a := by simp only [Fin.ofNat]; omega
  have vb : (Fin.ofNat 511 b).val = b := by simp only [Fin.ofNat]; omega
  have hold : ∀ i, i < f.nodes.length → nodeOf (mergeStep f).nodes i = nodeOf f.nodes i := by
    intro i hi
    rw [e]
    exact nodeOf_append_lt hi
  have hnew : nodeOf (mergeStep f).nodes f.nodes.length = internalNode f.nodes a b := by
    rw [e]
    exact nodeOf_append_length _ _
  have hw : (internalNode f.nodes a b).weight.toNat =
      (nodeOf f.nodes a).weight.toNat + (nodeOf f.nodes b).weight.toNat := by
    have := hinner.2.2.2.2.2.1
    rw [hnew] at this
    rw [this]
    show (nodeOf _ (Fin.ofNat 511 a).val).weight.toNat + (nodeOf _ (Fin.ofNat 511 b).val).weight.toNat = _
    rw [va, vb, hold a hal, hold b hbl]
  refine ⟨(nodeOf f.nodes a).weight.toNat, (nodeOf f.nodes b).weight.toNat,
    (((f.active.erase a).erase b).map (fun i => (nodeOf f.nodes i).weight.toNat) : List ℕ), ?_, ?_, ?_, ?_, ?_⟩
  · have hp : f.active.Perm (a :: b :: (f.active.erase a).erase b) :=
      (List.perm_cons_erase ha).trans ((List.perm_cons_erase hb).cons a)
    exact Multiset.coe_eq_coe.2 (hp.map _)
  · exact weight_le_of_not_less (hla b (List.mem_of_mem_erase hb))
  · intro z hz
    obtain ⟨i, hi, rfl⟩ := List.mem_map.1 (Multiset.mem_coe.1 hz)
    exact weight_le_of_not_less (hlb i (List.mem_of_mem_erase hi))
  · have hmap : ((f.active.erase a).erase b).map (fun i => (nodeOf (mergeStep f).nodes i).weight.toNat) =
        ((f.active.erase a).erase b).map (fun i => (nodeOf f.nodes i).weight.toNat) := by
      refine List.map_congr_left fun i hi => ?_
      rw [hold i (ok.below i (List.mem_of_mem_erase (List.mem_of_mem_erase hi)))]
    have hact : (mergeStep f).active = (f.active.erase a).erase b ++ [f.nodes.length] := by rw [e]
    unfold Forest.weights
    rw [hact, List.map_append, hmap, List.map_singleton, hnew, hw]
    exact Multiset.coe_eq_coe.2 (List.perm_append_singleton _ _)
  · have hlen : (mergeStep f).nodes.length = f.nodes.length + 1 := by rw [e]; simp
    unfold innerSum
    rw [hlen, Finset.sum_range_succ, hnew, hw]
    congr 1
    refine Finset.sum_congr rfl fun i hi => ?_
    rw [hold i (Finset.mem_range.1 hi)]

/-- The Internal nodes that BUILD makes weigh at most eight times the counts together. -/
theorem innerSum_buildForest (f : Freq) (a b : Nat) : innerSum (buildForest f a b).nodes ≤ 8 * freqSum f := by
  have h : Affordable (buildForest f a b).weights (innerSum (buildForest f a b).nodes) (8 * freqSum f) := by
    refine buildForest_induct f a b
      (P := fun F => Affordable F.weights (innerSum F.nodes) (8 * freqSum f)) ?_ ?_
    · intro F ok h2 hF
      obtain ⟨x, y, r, e, hxy, hy, e', ec⟩ := weights_mergeStep ok (startNodes_length_le f) (freqSum_lt f)
        (fun _ hi => (startNodes_leaf hi).1) h2
      rw [e] at hF
      rw [e', ec]
      exact hF.merge hxy hy
    · refine ⟨7, (startForest f a b).weights, 0, by simp, ?_, ?_⟩
      · have := startNodes_length_le f
        simp only [Forest.weights, startForest, Multiset.coe_card, List.length_map, List.length_range,
          Multiset.card_zero]
        omega
      · have h0 : innerSum (startForest f a b).nodes = 0 := by
          refine Finset.sum_eq_zero fun i hi => ?_
          have := (startNodes_leaf (Finset.mem_range.1 hi)).1
          show (if (nodeOf (startNodes f) i).kind = .internal then _ else 0) = 0
          rw [this]
          rfl
        have hs : (startForest f a b).weights.sum = freqSum f := by
          have := (startForest_ok f a b).total
          unfold Forest.weights
          rw [Multiset.sum_coe]
          exact this
        rw [h0, hs]
        simp
  obtain ⟨d, u, v, -, -, hb⟩ := h
  omega

/-! ### The length of the concatenated codes -/

/-- How many members of `cs` have the property `q`. -/
noncomputable def tally (cs : List Byte) (q : Byte → Prop) : ℕ := by
  classical exact (cs.map (fun c => if q c then 1 else 0)).sum

theorem tally_nil (q : Byte → Prop) : tally [] q = 0 := rfl

theorem tally_cons (c : Byte) (cs : List Byte) (q : Byte → Prop) [Decidable (q c)] :
    tally (c :: cs) q = (if q c then 1 else 0) + tally cs q := by
  unfold tally
  rw [List.map_cons, List.sum_cons]
  congr

theorem tally_congr {cs : List Byte} {q r : Byte → Prop} (h : ∀ c ∈ cs, (q c ↔ r c)) : tally cs q = tally cs r := by
  classical
  induction cs with
  | nil => rfl
  | cons c cs ih =>
    rw [tally_cons, tally_cons, ih fun d hd => h d (List.mem_cons_of_mem _ hd), if_congr (h c (by simp)) rfl rfl]

theorem tally_or {cs : List Byte} {q r : Byte → Prop} (h : ∀ c, ¬ (q c ∧ r c)) :
    tally cs (fun c => q c ∨ r c) = tally cs q + tally cs r := by
  classical
  induction cs with
  | nil => rfl
  | cons c cs ih =>
    rw [tally_cons, tally_cons, tally_cons, ih]
    have := h c
    by_cases hq : q c <;> by_cases hr : r c <;> simp_all <;> omega

theorem tally_eq_count (cs : List Byte) (c : Byte) : tally cs (fun d => d = c) = cs.count c := by
  classical
  induction cs with
  | nil => rfl
  | cons d cs ih =>
    rw [tally_cons, ih, List.count_cons]
    by_cases h : d = c <;> simp [h, Nat.add_comm]

theorem tally_eq_zero {cs : List Byte} {q : Byte → Prop} (h : ∀ c, ¬ q c) : tally cs q = 0 := by
  classical
  induction cs with
  | nil => rfl
  | cons d cs ih => rw [tally_cons, ih, if_neg (h d)]

/-- The leaf of symbol value `k` is node `i` or lies below it. -/
def Covers (node : NodeIdx → Node) (i : NodeIdx) (k : Nat) : Prop := ∃ r, LeafAt node i r k

variable {node : NodeIdx → Node} {cnt : Nat} {root : NodeIdx}

theorem covers_leaf {i : NodeIdx} (hk : (node i).kind = .leaf) (k : Nat) :
    Covers node i k ↔ k = (node i).sym.val := by
  constructor
  · rintro ⟨r, l, hl, -, hs⟩
    cases r with
    | nil => cases hl; exact hs.symm
    | cons b r => rw [descend_cons_leaf hk] at hl; cases hl
  · rintro rfl
    exact ⟨[], i, rfl, hk, rfl⟩

theorem covers_internal {i : NodeIdx} (hk : (node i).kind = .internal) (k : Nat) :
    Covers node i k ↔ Covers node (node i).left k ∨ Covers node (node i).right k := by
  constructor
  · rintro ⟨r, h⟩
    cases r with
    | nil =>
      obtain ⟨l, hl, hleaf, -⟩ := h
      cases hl
      rw [hk] at hleaf
      cases hleaf
    | cons b r =>
      rw [LeafAt.cons hk] at h
      cases b
      · exact .inl ⟨r, h⟩
      · exact .inr ⟨r, h⟩
  · rintro (⟨r, h⟩ | ⟨r, h⟩)
    · exact ⟨false :: r, (LeafAt.cons hk false).2 h⟩
    · exact ⟨true :: r, (LeafAt.cons hk true).2 h⟩

theorem TreeOk.leaf_eq (t : TreeOk node cnt root) {l l' : NodeIdx} (hl : l.val < cnt) (hl' : l'.val < cnt)
    (hk : (node l).kind = .leaf) (hk' : (node l').kind = .leaf) (h : (node l).sym.val = (node l').sym.val) : l = l' :=
  t.leafUnique l l' hl hl' hk hk' (Fin.ext h)

/-- A leaf lies below one child only. -/
theorem TreeOk.covers_disjoint (t : TreeOk node cnt root) {i : NodeIdx} (hi : i.val < cnt)
    (hk : (node i).kind = .internal) (k : Nat) : ¬ (Covers node (node i).left k ∧ Covers node (node i).right k) := by
  rintro ⟨⟨r, l, hl, hlk, hls⟩, ⟨r', l', hl', hlk', hls'⟩⟩
  have h1 : descend node i (false :: r) = some l := by rw [descend_cons_internal hk]; exact hl
  have h2 : descend node i (true :: r') = some l' := by rw [descend_cons_internal hk]; exact hl'
  have e : l = l' := t.leaf_eq (by have := t.descend_le hi h1; omega) (by have := t.descend_le hi h2; omega) hlk hlk'
    (hls.trans hls'.symm)
  obtain ⟨p, hp⟩ := t.reached i hi
  have h := t.path_unique (p ++ false :: r) (p ++ true :: r') (c := l)
    (by rw [descend_append, hp]; exact h1) (by rw [descend_append, hp, e]; exact h2)
  rw [List.append_cancel_left_eq] at h
  cases h

/-- The weight of a node is the number of input symbols whose leaf it covers (41_tree_builder.md R140). -/
theorem TreeOk.weight_eq_tally (t : TreeOk node cnt root) {cs : List Byte}
    (hw : ∀ i : NodeIdx, i.val < cnt → (node i).kind = .leaf →
      (node i).weight.toNat = tally cs (fun c => c.toNat = (node i).sym.val))
    (n : Nat) (i : NodeIdx) (hn : i.val = n) (hi : i.val < cnt) :
    (node i).weight.toNat = tally cs (fun c => Covers node i c.toNat) := by
  induction n using Nat.strong_induction_on generalizing i with
  | _ n ih =>
    rcases NodeKind.cases (node i).kind with hk | hk
    · rw [hw i hi hk]
      exact tally_congr fun c _ => (covers_leaf hk _).symm
    · have ok := t.nodes i hi
      unfold NodeOk at ok
      rw [hk] at ok
      obtain ⟨-, hl, hr, -, hsum, -⟩ := ok
      rw [Fin.lt_def] at hl hr
      rw [hsum, ih _ (by omega) _ rfl (by omega), ih _ (by omega) _ rfl (by omega),
        ← tally_or fun c => t.covers_disjoint hi hk c.toNat]
      exact tally_congr fun c _ => (covers_internal hk _).symm

theorem mem_trail_descend {n l m : NodeIdx} {p : List Bool} (h : descend node n p = some l)
    (hm : m ∈ trail node n p) : ∃ q, descend node m q = some l := by
  induction p generalizing n with
  | nil => cases hm
  | cons b p ih =>
    rcases List.mem_cons.1 hm with rfl | hm
    · exact ⟨_, h⟩
    · exact ih (descend_cons_some h).2 hm

theorem mem_trail_append {n m : NodeIdx} (p : List Bool) (b : Bool) (q : List Bool) (h : descend node n p = some m) :
    m ∈ trail node n (p ++ b :: q) := by
  induction p generalizing n with
  | nil => cases h; exact List.mem_cons_self
  | cons c p ih => exact List.mem_cons_of_mem _ (ih (descend_cons_some h).2)

/-- The nodes a code leads through are the Internal nodes that cover its leaf. -/
theorem TreeOk.mem_trail_iff (t : TreeOk node cnt root) {p : List Bool} {k : Nat} (h : LeafAt node root p k)
    (m : NodeIdx) :
    m ∈ trail node root p ↔ m.val < cnt ∧ (node m).kind = .internal ∧ Covers node m k := by
  have hroot : root.val < cnt := by have := t.rootLast; omega
  obtain ⟨l, hl, hlk, hls⟩ := h
  constructor
  · intro hm
    obtain ⟨h1, h2⟩ := t.mem_trail hroot hl hm
    obtain ⟨q, hq⟩ := mem_trail_descend hl hm
    exact ⟨by omega, h2, q, l, hq, hlk, hls⟩
  · rintro ⟨hm, hk, q, l', hq, hlk', hls'⟩
    have e : l = l' := t.leaf_eq (by have := t.descend_le hroot hl; omega) (by have := t.descend_le hm hq; omega) hlk
      hlk' (hls.trans hls'.symm)
    subst e
    obtain ⟨p', hp'⟩ := t.reached m hm
    have hpq := t.path_unique p (p' ++ q) hl (by rw [descend_append, hp']; exact hq)
    cases q with
    | nil =>
      cases hq
      rw [hk] at hlk
      cases hlk
    | cons b q =>
      rw [hpq]
      exact mem_trail_append p' b q hp'

/-- The codes of a sequence are as long together as the Internal nodes are heavy. -/
theorem TreeOk.sum_codes (t : TreeOk node cnt root) (len : Byte → ℕ) (cs : List Byte)
    (h : ∀ c ∈ cs, ∃ p, LeafAt node root p c.toNat ∧ len c = p.length) :
    (cs.map len).sum =
      ∑ i : NodeIdx, if i.val < cnt ∧ (node i).kind = .internal then tally cs (fun c => Covers node i c.toNat) else 0 := by
  classical
  have hroot : root.val < cnt := by have := t.rootLast; omega
  induction cs with
  | nil => simp [tally_nil]
  | cons c cs ih =>
    obtain ⟨p, hp, hlen⟩ := h c (by simp)
    have hcard : len c = ∑ i : NodeIdx,
        if i.val < cnt ∧ (node i).kind = .internal ∧ Covers node i c.toNat then 1 else 0 := by
      rw [hlen, ← trail_length node root p, ← List.toFinset_card_of_nodup
        (by obtain ⟨l, hl, -⟩ := hp; exact t.trail_nodup hroot hl), Finset.sum_boole, Nat.cast_id]
      refine congrArg Finset.card (Finset.ext fun m => ?_)
      rw [List.mem_toFinset, t.mem_trail_iff hp, Finset.mem_filter]
      simp
    rw [List.map_cons, List.sum_cons, ih fun d hd => h d (List.mem_cons_of_mem _ hd), hcard,
      ← Finset.sum_add_distrib]
    refine Finset.sum_congr rfl fun i _ => ?_
    rw [tally_cons]
    by_cases h1 : i.val < cnt ∧ (node i).kind = .internal
    · by_cases h2 : Covers node i c.toNat <;> simp [h1, h2]
    · rw [if_neg h1, if_neg h1, if_neg fun h2 => h1 ⟨h2.1, h2.2.1⟩]

/-- The leaves BUILD makes of an input weigh what their symbols occur. -/
theorem leaf_weight_buildUnit {s : State} {cs : List Byte} (hf : s.freq = countFreq cs) (h32 : cs.length < 2 ^ 32)
    (hp : presentSyms s.freq ≠ []) (i : NodeIdx) (hi : i.val < (buildUnit s).nodeCnt.val)
    (hk : ((buildUnit s).nodeAt i).kind = .leaf) :
    ((buildUnit s).nodeAt i).weight.toNat = tally cs (fun c => c.toNat = ((buildUnit s).nodeAt i).sym.val) := by
  obtain ⟨ok, -⟩ := buildForest_ok s.regA.val s.regB.val hp
  rw [nodeCnt_buildUnit] at hi
  rw [nodeAt_buildUnit s hi] at hk ⊢
  have hstart : i.val < (startNodes s.freq).length := by
    by_contra hs
    have := (ok.inner i.val (by omega) hi).1
    rw [hk] at this
    cases this
  rw [ok.starts _ hstart]
  rcases startNodes_cases hstart with ⟨hi', e⟩ | ⟨-, -, e⟩
  · have hlt := presentSyms_getElem_lt hi'
    rw [e, leafNode_sym _ hlt]
    generalize (presentSyms s.freq)[i.val] = k at hlt
    have hw : (leafNode s.freq k).weight.toNat = (freqAt s.freq k).toNat := by
      simp only [leafNode, BitVec.truncate_eq_setWidth, BitVec.toNat_setWidth]
      have := (freqAt s.freq k).isLt
      omega
    have hc := toNat_freqAt_countFreq h32 (BitVec.ofNat 8 k)
    rw [BitVec.toNat_ofNat, Nat.mod_eq_of_lt (by omega)] at hc
    rw [hw, hf, hc, ← tally_eq_count]
    refine tally_congr fun c _ => ?_
    rw [BitVec.toNat_eq, BitVec.toNat_ofNat, Nat.mod_eq_of_lt (by omega)]
  · rw [e]
    refine (tally_eq_zero fun c h => ?_).symm
    have := c.isLt
    have h256 : syntheticLeaf.sym.val = 256 := by decide
    omega

theorem sum_inner_eq (nodes : List Node) (g : NodeIdx → Node) (hl : nodes.length ≤ 511)
    (hg : ∀ i : NodeIdx, i.val < nodes.length → g i = nodeOf nodes i.val) :
    (∑ i : NodeIdx, if i.val < nodes.length ∧ (g i).kind = .internal then (g i).weight.toNat else 0) =
      innerSum nodes := by
  have h1 : ∀ i : NodeIdx, (if i.val < nodes.length ∧ (g i).kind = .internal then (g i).weight.toNat else 0) =
      (fun j => if j < nodes.length then
        (if (nodeOf nodes j).kind = .internal then (nodeOf nodes j).weight.toNat else 0) else 0) i.val := by
    intro i
    by_cases hi : i.val < nodes.length
    · simp only [hi, true_and, if_true, hg i hi]
    · simp only [hi, false_and, if_false]
  rw [Finset.sum_congr rfl fun i _ => h1 i, Fin.sum_univ_eq_sum_range
    (fun j => if j < nodes.length then
        (if (nodeOf nodes j).kind = .internal then (nodeOf nodes j).weight.toNat else 0) else 0) 511,
    ← Finset.sum_filter]
  unfold innerSum
  refine Finset.sum_congr ?_ fun _ _ => rfl
  ext j
  simp only [Finset.mem_filter, Finset.mem_range]
  omega

theorem sum_tally_buildUnit {s : State} {cs : List Byte} (hf : s.freq = countFreq cs) (h32 : cs.length < 2 ^ 32)
    (hp : presentSyms s.freq ≠ []) (t : TreeOk (buildUnit s).nodeAt (buildUnit s).nodeCnt.val (buildUnit s).root) :
    (∑ i : NodeIdx, if i.val < (buildUnit s).nodeCnt.val ∧ ((buildUnit s).nodeAt i).kind = .internal then
      tally cs (fun c => Covers (buildUnit s).nodeAt i c.toNat) else 0) =
      innerSum (buildForest s.freq s.regA.val s.regB.val).nodes := by
  have hw := fun i hi => t.weight_eq_tally (leaf_weight_buildUnit hf h32 hp) i.val i rfl hi
  have hn := fun (i : NodeIdx) hi => nodeAt_buildUnit s (i := i) hi
  have hc := nodeCnt_buildUnit s
  rw [← sum_inner_eq _ (buildUnit s).nodeAt (buildForest_length_le _ _ _) hn]
  rw [hc] at hw ⊢
  refine Finset.sum_congr rfl fun i _ => ?_
  by_cases hi : i.val < (buildForest s.freq s.regA.val s.regB.val).nodes.length ∧
      ((buildUnit s).nodeAt i).kind = .internal
  · rw [if_pos hi, if_pos hi, hw i hi.1]
  · rw [if_neg hi, if_neg hi]

/-- COMPRESS's codes of its input take at most eight bits a symbol (00_scope.md R8). -/
theorem length_codes_le {s : State} {code : Store CodeEntry} {p : List Bool}
    (ht : (s.tabled code p).tableOfTree = some (code, p)) :
    (concatCodes (s.tabled code p).look s.inputSeq).length ≤ 8 * s.len.toNat := by
  have h32 : s.inputSeq.length < 2 ^ 32 := by rw [length_inputSeq]; exact s.len.isLt
  by_cases h0 : s.len.toNat = 0
  · have : s.inputSeq = [] := by unfold State.inputSeq; rw [h0]; rfl
    rw [this]
    exact Nat.zero_le _
  · obtain ⟨hv, t⟩ := tabled_treeOk h0 code p
    have hp : presentSyms s.counted.freq ≠ [] := by
      intro e
      have := (buildUnit_empty e).1
      rw [tabled_tree] at hv
      rw [hv] at this
      cases this
    rw [tabled_nodeAt, tabled_nodeCnt, tabled_root] at t
    have hsum := t.sum_codes (fun c => ((s.tabled code p).look c).code.length) s.inputSeq (by
      intro c hc
      obtain ⟨-, -, -, l, hl, hk, hs⟩ := tabled_look ht hc
      rw [tabled_nodeAt, tabled_root] at hl
      rw [tabled_nodeAt] at hk hs
      exact ⟨_, ⟨l, hl, hk, hs⟩, rfl⟩)
    have hlen : (concatCodes (s.tabled code p).look s.inputSeq).length =
        (s.inputSeq.map (fun c => ((s.tabled code p).look c).code.length)).sum := by
      unfold concatCodes
      rw [List.length_flatMap]
    have hinner := sum_tally_buildUnit (s := s.counted) rfl h32 hp t
    have hb := innerSum_buildForest s.counted.freq s.counted.regA.val s.counted.regB.val
    rw [hlen, hsum, hinner]
    refine hb.trans ?_
    rw [counted_freq, freqSum_countFreq h32, length_inputSeq]

end Sys2Proof.Machine
end

