-- ==== Sys2Proof/Laws/Frame.lean ====
section
/-! SUPPORT. What each command behind the gate leaves alone (10_state.md R50): the next state is the old one but for
the fields named, and of a memory only the named entries change. -/

namespace Sys2Proof.Machine

theorem countUnit_frame (s : State) :
    countUnit s = { s with
      freq := (countUnit s).freq, symPos := (countUnit s).symPos, err := (countUnit s).err,
      errCode := (countUnit s).errCode, errInfo := (countUnit s).errInfo } := by
  rcases countUnit_cases s with ⟨-, e⟩ | ⟨-, e⟩
  · rw [e]; rfl
  · rw [e]

theorem buildUnit_frame (s : State) :
    buildUnit s = { s with
      codeV := false, tree := (buildUnit s).tree, root := (buildUnit s).root, nodeCnt := (buildUnit s).nodeCnt,
      node := (buildUnit s).node, active := (buildUnit s).active, nalloc := (buildUnit s).nalloc,
      regA := (buildUnit s).regA, regB := (buildUnit s).regB } := rfl

/-- BUILD writes no arena entry at or above the new NODECNT (10_state.md R41, 41_tree_builder.md R146). -/
theorem buildUnit_node_frame (s : State) {i : Nat} (h : (buildUnit s).nodeCnt.val ≤ i) :
    cellAt (buildUnit s).node i = cellAt s.node i := by
  rw [nodeCnt_buildUnit] at h
  rw [cellAt_buildUnit, if_neg (by omega)]

theorem gentabUnit_frame {s t : State} (h : gentabUnit s = .next t) :
    t = { s with
      codeV := t.codeV, code := t.code, path := t.path, stack := t.stack, err := t.err, errCode := t.errCode,
      errInfo := t.errInfo } := by
  rcases gentabUnit_cases s with ⟨-, e⟩ | ⟨-, -, e⟩ | ⟨-, code, p, -, e⟩ | ⟨-, -, e⟩ <;> rw [e] at h
  · cases h; rfl
  · cases h; rfl
  · cases h; rfl
  · cases h

theorem encodeUnit_frame (s : State) :
    encodeUnit s = { s with
      bits := (encodeUnit s).bits, bitLen := (encodeUnit s).bitLen, symPos := (encodeUnit s).symPos,
      pos := (encodeUnit s).pos, err := (encodeUnit s).err, errCode := (encodeUnit s).errCode,
      errInfo := (encodeUnit s).errInfo } := by
  rcases encodeUnit_cases s with ⟨-, e⟩ | ⟨-, -, e⟩ | ⟨-, -, -, -, e⟩ | ⟨-, -, d, c, r, f, -, -, -, -, e⟩ <;>
    rw [e] <;> rfl

/-- ENCODE writes no byte of BITS that holds none of the elements 0..MAX_BITS-1 (43_encoder.md R167, R172). -/
theorem encodeUnit_bits_frame (s : State) {k : Nat} (h : ∀ j, j < s.cfg.maxBits → elemByte s.fmt j ≠ k) :
    cellAt (encodeUnit s).bits k = cellAt s.bits k := by
  have hput : ∀ bs : List Bool, bs.length ≤ s.cfg.maxBits →
      cellAt (putElems s.fmt (s.free .bits) s.bits 0 bs) k = cellAt s.bits k := fun bs hb =>
    cellAt_putElems_other _ _ _ _ _ _ fun j _ hj => h j (by omega)
  rcases encodeUnit_cases s with ⟨-, e⟩ | ⟨-, -, e⟩ | ⟨-, -, -, hfit, e⟩ | ⟨-, -, d, c, r, f, -, -, hfit, -, e⟩
  · rw [e]; rfl
  · rw [e]; rfl
  · rw [e]
    exact cellAt_finishEncode_other s _ _ _ fun j hj => h j (by omega)
  · rw [e]
    exact hput _ hfit

theorem decodeUnit_frame (cmd : Instr) (s : State) :
    decodeUnit cmd s = { s with
      out := (decodeUnit cmd s).out, outLen := (decodeUnit cmd s).outLen, dstate := (decodeUnit cmd s).dstate,
      cur := (decodeUnit cmd s).cur, bitPos := (decodeUnit cmd s).bitPos, err := (decodeUnit cmd s).err,
      errCode := (decodeUnit cmd s).errCode, errInfo := (decodeUnit cmd s).errInfo } := by
  rcases decodeUnit_cases cmd s with ⟨-, e⟩ | ⟨-, -, e⟩ | ⟨-, -, i, -, e⟩ | ⟨-, -, -, e⟩ | ⟨-, -, -, e⟩ <;> rw [e]
  · rfl
  · rfl
  · rfl
  · split <;> rfl
  · unfold State.finishDecode
    split
    · split <;> rfl
    · rfl

/-- DECODE writes only the bytes of OUT for the symbols of its walk (44_decoder.md R187, R191). -/
theorem decodeUnit_out_frame (cmd : Instr) (s : State) {k : Nat} (h : s.decodeRun.outLen ≤ k) :
    cellAt (decodeUnit cmd s).out k = cellAt s.out k := by
  have hrun : cellAt s.decodeRun.out k = cellAt s.out k :=
    (decodeElems_out s.nodeAt s.root s.cfg.maxLen s.elems _).2 k h
  rcases decodeUnit_cases cmd s with ⟨-, e⟩ | ⟨-, -, e⟩ | ⟨-, -, i, -, e⟩ | ⟨-, -, -, e⟩ | ⟨-, -, -, e⟩ <;> rw [e]
  · rfl
  · rfl
  · rfl
  · split <;> rfl
  · unfold State.finishDecode
    split
    · split <;> exact hrun
    · exact hrun

theorem tabled_frame (s : State) (code : Store CodeEntry) (p : List Bool) :
    s.tabled code p = { s with
      freq := (s.tabled code p).freq, symPos := (s.tabled code p).symPos, tree := (s.tabled code p).tree,
      root := (s.tabled code p).root, nodeCnt := (s.tabled code p).nodeCnt, node := (s.tabled code p).node,
      active := (s.tabled code p).active, nalloc := (s.tabled code p).nalloc, regA := (s.tabled code p).regA,
      regB := (s.tabled code p).regB, codeV := (s.tabled code p).codeV, code := (s.tabled code p).code,
      path := (s.tabled code p).path, stack := (s.tabled code p).stack } := by
  have h := buildUnit_frame s.counted
  unfold State.tabled
  generalize buildUnit s.counted = B at h ⊢
  rw [h]
  rfl

theorem compressUnit_frame {s t : State} (herr : s.err = false) (h : compressUnit s = .next t) :
    t = { s with
      freq := t.freq, symPos := t.symPos, tree := t.tree, root := t.root, nodeCnt := t.nodeCnt, node := t.node,
      active := t.active, nalloc := t.nalloc, regA := t.regA, regB := t.regB, codeV := t.codeV, code := t.code,
      path := t.path, stack := t.stack, bits := t.bits, bitLen := t.bitLen, pos := t.pos, err := t.err,
      errCode := t.errCode, errInfo := t.errInfo } := by
  rcases compressUnit_cases herr with ⟨-, e⟩ | ⟨-, code, p, -, e⟩
  · rw [e] at h; cases h; rfl
  · rw [e] at h
    injection h with h
    have h1 := encodeUnit_frame (s.tabled code p)
    have h2 := tabled_frame s code p
    rw [h] at h1
    generalize s.tabled code p = T at h1 h2
    rw [h2] at h1
    rw [h1]

/-- COMPRESS writes no arena entry at or above the new NODECNT and no byte of BITS beyond its elements. -/
theorem compressUnit_memory_frame {s t : State} (herr : s.err = false) (h : compressUnit s = .next t) :
    (∀ i, t.nodeCnt.val ≤ i → cellAt t.node i = cellAt s.node i) ∧
    (∀ k, (∀ j, j < s.cfg.maxBits → elemByte s.fmt j ≠ k) → cellAt t.bits k = cellAt s.bits k) := by
  rcases compressUnit_cases herr with ⟨-, e⟩ | ⟨-, code, p, -, e⟩
  · rw [e] at h; cases h; exact ⟨fun _ _ => rfl, fun _ _ => rfl⟩
  · rw [e] at h
    injection h with h
    have h1 := encodeUnit_frame (s.tabled code p)
    have h2 : ∀ {i}, (s.tabled code p).nodeCnt.val ≤ i → cellAt (s.tabled code p).node i = cellAt s.node i :=
      fun {i} hi => buildUnit_node_frame s.counted hi
    have h3 := @encodeUnit_bits_frame (s.tabled code p)
    rw [tabled_cfg, tabled_fmt, tabled_bits] at h3
    rw [h] at h1 h3
    generalize s.tabled code p = T at h1 h2
    refine ⟨fun i hi => ?_, fun k hk => h3 hk⟩
    rw [h1] at hi ⊢
    exact h2 hi

/-- What a command that ends can have done: nothing (NOP, or the gate), CLEAR's or ERRACK's writes, or its unit's. -/
theorem exec_next {i : Instr} {s t : State} (h : exec i s = .next t) :
    t = s ∨ (i = .clear ∧ t = s.cleared) ∨ (i = .errack ∧ t = s.ackFault) ∨
    (s.err = false ∧
      ((i = .count ∧ t = countUnit s) ∨ (i = .build ∧ t = buildUnit s) ∨ (i = .gentab ∧ gentabUnit s = .next t) ∨
       (i = .encode ∧ t = encodeUnit s) ∨ (i ∈ [Instr.decode, .decompress] ∧ t = decodeUnit i s) ∨
       (i = .compress ∧ compressUnit s = .next t))) := by
  by_cases hc : i = .clear
  · subst hc; rw [exec_clear] at h; injection h with h; exact .inr (.inl ⟨rfl, h.symm⟩)
  by_cases ha : i = .errack
  · subst ha; rw [exec_errack] at h; injection h with h; exact .inr (.inr (.inl ⟨rfl, h.symm⟩))
  cases he : s.err with
  | true => rw [exec_of_err he hc ha] at h; injection h with h; exact .inl h.symm
  | false =>
    cases i with
    | nop => injection h with h; exact .inl h.symm
    | clear => exact absurd rfl hc
    | errack => exact absurd rfl ha
    | count => rw [exec_count he] at h; injection h with h; simp [h]
    | build => rw [exec_build he] at h; injection h with h; simp [h]
    | gentab => rw [exec_gentab he] at h; simp [h]
    | encode => rw [exec_encode he] at h; injection h with h; simp [h]
    | decode => rw [exec_decode he] at h; injection h with h; simp [h]
    | compress => rw [exec_compress he] at h; simp [h]
    | decompress => rw [exec_decompress he] at h; injection h with h; simp [h]

/-- The latch after a unit: as it was, or set (60_exceptions.md R232). -/
def LatchKeptOrSet (s t : State) : Prop :=
  (t.err = s.err ∧ t.errCode = s.errCode ∧ t.errInfo = s.errInfo) ∨ t.err = true

theorem countUnit_latch (s : State) : LatchKeptOrSet s (countUnit s) := by
  rcases countUnit_cases s with ⟨-, e⟩ | ⟨-, e⟩ <;> rw [e]
  · exact .inr rfl
  · exact .inl ⟨rfl, rfl, rfl⟩

theorem gentabUnit_latch {s t : State} (h : gentabUnit s = .next t) : LatchKeptOrSet s t := by
  rcases gentabUnit_cases s with ⟨-, e⟩ | ⟨-, -, e⟩ | ⟨-, code, p, -, e⟩ | ⟨-, -, e⟩ <;> rw [e] at h
  · cases h; exact .inr rfl
  · cases h; exact .inr rfl
  · cases h; exact .inl ⟨rfl, rfl, rfl⟩
  · cases h

theorem encodeUnit_latch (s : State) : LatchKeptOrSet s (encodeUnit s) := by
  rcases encodeUnit_cases s with ⟨-, e⟩ | ⟨-, -, e⟩ | ⟨-, -, -, -, e⟩ | ⟨-, -, d, c, r, f, -, -, -, -, e⟩ <;> rw [e]
  · exact .inr rfl
  · exact .inr rfl
  · exact .inl ⟨rfl, rfl, rfl⟩
  · exact .inr rfl

theorem decodeUnit_latch (cmd : Instr) (s : State) : LatchKeptOrSet s (decodeUnit cmd s) := by
  rcases decodeUnit_cases cmd s with ⟨-, e⟩ | ⟨-, -, e⟩ | ⟨-, -, i, -, e⟩ | ⟨-, -, -, e⟩ | ⟨-, -, -, e⟩ <;> rw [e]
  · exact .inr rfl
  · exact .inr rfl
  · exact .inr rfl
  · split
    · exact .inl ⟨rfl, rfl, rfl⟩
    · exact .inr rfl
  · unfold State.finishDecode
    split
    · split
      · exact .inr rfl
      · exact .inl ⟨rfl, rfl, rfl⟩
    · exact .inr rfl

theorem compressUnit_latch {s t : State} (herr : s.err = false) (h : compressUnit s = .next t) :
    LatchKeptOrSet s t := by
  rcases compressUnit_cases herr with ⟨-, e⟩ | ⟨-, code, p, -, e⟩ <;> rw [e] at h <;> injection h with h
  · rw [← h]; exact .inr rfl
  · have h1 := encodeUnit_latch (s.tabled code p)
    have h2 := tabled_frame s code p
    rw [h] at h1
    unfold LatchKeptOrSet at h1 ⊢
    generalize s.tabled code p = T at h1 h2
    rw [h2] at h1
    exact h1

end Sys2Proof.Machine
end

