-- ==== Sys2Proof/Laws/Step.lean ====
section
/-! SUPPORT. What a step can do: idle, a read, a write of data, a command, an illegal word, a reset
(20_memory.md R72). -/

namespace Sys2Proof.Machine

/-- The state in which a transaction is performed: it is off the queue, and its response is given. -/
def State.taken (s : State) (rest : List HostOp) (r : Option BusResponse) : State :=
  { s with pending := rest, response := r }

theorem performWrite_cmd (v : Word) (s : State) : performWrite 0 v s = issueCommand v (s.respond .writeOk) := by
  unfold performWrite
  rw [if_pos (locate_cmd_iff.2 rfl), locate_cmd_iff.2 rfl]
  rfl

/-- What an issued word can do: run a command, latch ILLEGAL_CMD, or nothing (30_encoding.md R91, R93). -/
theorem issueCommand_cases (w : Word) (s : State) :
    (∃ i, decode w = .command i ∧ issueCommand w s = exec i s) ∨
    (s.err = false ∧ issueCommand w s = .next (s.raiseFault none .illegalCmd w)) ∨
    (s.err = true ∧ issueCommand w s = .next s) := by
  unfold issueCommand
  cases hd : decode w with
  | command i => exact .inl ⟨i, rfl, rfl⟩
  | illegal why =>
    unfold illegalCommand
    cases he : s.err with
    | true => exact .inr (.inr ⟨rfl, by simp⟩)
    | false => exact .inr (.inl ⟨rfl, by simp⟩)

/-- What a step can do. -/
theorem step_cases (s : State) :
    (s.pending = [] ∧ step s = .next s) ∨
    (∃ rest, step s = .next (State.afterReset s.cfg (s.epoch + 1) rest)) ∨
    (∃ rest r,
      (step s = .next (s.taken rest r)) ∨
      (∃ l v, step s = .next ((s.taken rest r).putLocation l v)) ∨
      (∃ i, step s = exec i (s.taken rest r)) ∨
      (s.err = false ∧ ∃ w, step s = .next ((s.taken rest r).raiseFault none .illegalCmd w))) := by
  unfold step nextTransaction
  cases hp : s.pending with
  | nil => exact .inl ⟨rfl, rfl⟩
  | cons op rest =>
    refine .inr ?_
    cases op with
    | reset => exact .inl ⟨rest, rfl⟩
    | read a => exact .inr ⟨rest, _, .inl rfl⟩
    | write a v =>
      by_cases ha : a = 0
      · subst ha
        refine .inr ⟨rest, some .writeOk, ?_⟩
        show _ ∨ _ ∨ _ ∨ _
        change performWrite 0 v { s with pending := rest } = _ ∨ (∃ l w, performWrite 0 v { s with pending := rest } = _) ∨
          (∃ i, performWrite 0 v { s with pending := rest } = _) ∨
          (s.err = false ∧ ∃ w, performWrite 0 v { s with pending := rest } = _)
        rw [performWrite_cmd]
        rcases issueCommand_cases v (s.taken rest (some .writeOk)) with ⟨i, -, e⟩ | ⟨he, e⟩ | ⟨-, e⟩
        · exact .inr (.inr (.inl ⟨i, e⟩))
        · exact .inr (.inr (.inr ⟨he, v, e⟩))
        · exact .inl e
      · refine .inr ⟨rest, some (writeResponse (locate s.cfg a)), .inr (.inl ⟨locate s.cfg a, v, ?_⟩)⟩
        exact performWrite_data (s := { s with pending := rest }) fun h => ha (locate_cmd_iff.1 h)

end Sys2Proof.Machine
end

