-- ==== Sys2Proof/Laws/Invariant.lean ====
section
/-! SUPPORT. What keeps the invariant `Inv`: fault entry and the return from it, CLEAR, each unit, a write of the host,
a reset; and that GENTAB ends in a state that meets it. -/

namespace Sys2Proof.Machine

theorem inv_raiseFault {s : State} (h : Inv s) (cmd : Option Instr) {f : ErrCode} (hf : f ≠ .none) (info : Word) :
    Inv (s.raiseFault cmd f info) where
  cfgOk := h.cfgOk
  latchOk := ⟨fun e => (by cases e), fun _ => hf⟩
  treeOk := h.treeOk
  tableOk := h.tableOk
  outLenOk := by
    show (if voidsOutput cmd f then 0#32 else s.outLen).toNat ≤ _
    split
    · exact Nat.zero_le _
    · exact h.outLenOk
  memoriesOk := h.memoriesOk

theorem inv_ackFault {s : State} (h : Inv s) : Inv s.ackFault where
  cfgOk := h.cfgOk
  latchOk := ⟨fun _ => ⟨rfl, rfl⟩, fun e => (by cases e)⟩
  treeOk := h.treeOk
  tableOk := h.tableOk
  outLenOk := h.outLenOk
  memoriesOk := h.memoriesOk

theorem inv_cleared {s : State} (h : Inv s) : Inv s.cleared where
  cfgOk := h.cfgOk
  latchOk := ⟨fun _ => ⟨rfl, rfl⟩, fun e => (by cases e)⟩
  treeOk := ⟨rfl, rfl⟩
  tableOk := fun e => (by cases e)
  outLenOk := Nat.zero_le _
  memoriesOk := h.memoriesOk

theorem inv_afterReset {cfg : Params} (hc : cfg.wf = true) (epoch : Nat) (pending : List HostOp) :
    Inv (State.afterReset cfg epoch pending) where
  cfgOk := hc
  latchOk := ⟨fun _ => ⟨rfl, rfl⟩, fun e => (by cases e)⟩
  treeOk := ⟨rfl, rfl⟩
  tableOk := fun e => (by cases e)
  outLenOk := Nat.zero_le _
  memoriesOk := ⟨⟨rfl, rfl⟩, ⟨rfl, rfl⟩, ⟨rfl, rfl⟩, ⟨rfl, rfl⟩, ⟨rfl, rfl⟩⟩

theorem inv_taken {s : State} (h : Inv s) (rest : List HostOp) (r : Option BusResponse) : Inv (s.taken rest r) where
  cfgOk := h.cfgOk
  latchOk := h.latchOk
  treeOk := h.treeOk
  tableOk := h.tableOk
  outLenOk := h.outLenOk
  memoriesOk := h.memoriesOk

theorem inv_countUnit {s : State} (h : Inv s) : Inv (countUnit s) := by
  rcases countUnit_cases s with ⟨-, e⟩ | ⟨-, e⟩ <;> rw [e]
  · exact inv_raiseFault h _ (by decide) _
  · exact ⟨h.cfgOk, h.latchOk, h.treeOk, h.tableOk, h.outLenOk, h.memoriesOk⟩

theorem treeStateOk_buildUnit (s : State) : TreeStateOk (buildUnit s) := by
  unfold TreeStateOk
  by_cases hp : presentSyms s.freq = []
  · obtain ⟨ht, hr, hc, -⟩ := buildUnit_empty hp
    rw [ht]
    exact ⟨hr, hc⟩
  · obtain ⟨ht, ok⟩ := buildUnit_treeOk hp
    rw [ht]
    refine ⟨ok, fun i hi => ?_⟩
    rw [nodeCnt_buildUnit] at hi
    rw [cellAt_buildUnit, if_pos hi]
    rfl

theorem inv_buildUnit {s : State} (h : Inv s) : Inv (buildUnit s) where
  cfgOk := h.cfgOk
  latchOk := h.latchOk
  treeOk := treeStateOk_buildUnit s
  tableOk := fun e => (by cases e)
  outLenOk := h.outLenOk
  memoriesOk := by
    refine ⟨⟨?_, ?_⟩, h.memoriesOk.2⟩
    · rw [buildUnit_node]
      exact storeWf_putCells _ _ h.memoriesOk.1.1
    · rw [buildUnit_node]
      refine keysBelow_putCells _ h.memoriesOk.1.2 ?_
      have := buildForest_length_le s.freq s.regA.val s.regB.val
      omega

theorem inv_startTable {s : State} (h : Inv s) : Inv s.startTable where
  cfgOk := h.cfgOk
  latchOk := h.latchOk
  treeOk := h.treeOk
  tableOk := fun e => (by cases e)
  outLenOk := h.outLenOk
  memoriesOk := ⟨h.memoriesOk.1, ⟨storeWf_clearedCode, keysBelow_clearedCode⟩, h.memoriesOk.2.2⟩

theorem inv_withTable {s : State} (h : Inv s) (hn : s.tree ≠ .none) {code : Store CodeEntry} {p : List Bool}
    (htab : s.tableOfTree = some (code, p)) : Inv { s.startTable with code := code, path := p, codeV := true } where
  cfgOk := h.cfgOk
  latchOk := h.latchOk
  treeOk := h.treeOk
  tableOk := fun _ => ⟨hn, p, htab⟩
  outLenOk := h.outLenOk
  memoriesOk := ⟨h.memoriesOk.1, ⟨(tableOfTree_keeps htab).1, (tableOfTree_keeps htab).2.1⟩, h.memoriesOk.2.2⟩

theorem inv_gentabUnit {s t : State} (h : Inv s) (e : gentabUnit s = .next t) : Inv t := by
  rcases gentabUnit_cases s with ⟨-, e'⟩ | ⟨-, -, e'⟩ | ⟨hn, code, p, htab, e'⟩ | ⟨-, -, e'⟩ <;> rw [e'] at e
  · cases e; exact inv_raiseFault h _ (by decide) _
  · cases e; exact inv_raiseFault (inv_startTable h) _ (by decide) _
  · cases e; exact inv_withTable h hn htab
  · cases e

theorem elemByte_le (fmt : Format) (j : Nat) : elemByte fmt j ≤ j := by
  cases fmt <;> simp only [elemByte] <;> omega

/-- BITS stays in canonical form and within MAX_BITS when elements are put below MAX_BITS. -/
theorem bits_putElems {s : State} (h : Inv s) (bs : List Bool) (hb : bs.length ≤ s.cfg.maxBits) :
    Memory.wf (putElems s.fmt (s.free .bits) s.bits 0 bs) = true ∧
      keysBelow (putElems s.fmt (s.free .bits) s.bits 0 bs) s.cfg.maxBits = true :=
  ⟨wf_putElems _ _ _ _ h.memoriesOk.2.2.2.2.1, keysBelow_putElems _ _ _ h.memoriesOk.2.2.2.2.2 fun j _ hj => by have := elemByte_le s.fmt j; omega⟩

theorem Params.maxBits_dvd {p : Params} (h : p.wf = true) : p.maxBits % 32 = 0 := by
  simp [Params.wf] at h
  omega

theorem Params.bounds {p : Params} (h : p.wf = true) :
    1 ≤ p.maxLen ∧ p.maxLen < 2 ^ 32 ∧ p.maxBits < 2 ^ 32 := by
  simp [Params.wf] at h
  omega

theorem inv_encodeUnit {s : State} (h : Inv s) : Inv (encodeUnit s) := by
  have hbase : ∀ (bits : Memory) bl sp p, Memory.wf bits = true → keysBelow bits s.cfg.maxBits = true →
      Inv { s with bits := bits, bitLen := bl, symPos := sp, pos := p } := fun bits bl sp p hw hk =>
    ⟨h.cfgOk, h.latchOk, h.treeOk, h.tableOk, h.outLenOk,
      ⟨h.memoriesOk.1, h.memoriesOk.2.1, h.memoriesOk.2.2.1, h.memoriesOk.2.2.2.1, ⟨hw, hk⟩⟩⟩
  rcases encodeUnit_cases s with ⟨-, e⟩ | ⟨-, -, e⟩ | ⟨-, -, -, hfit, e⟩ | ⟨-, -, d, c, r, f, -, -, hfit, hf, e⟩ <;> rw [e]
  · exact inv_raiseFault h _ (by decide) _
  · exact inv_raiseFault h _ (by decide) _
  · have hb := bits_putElems h _ hfit
    have hd := Params.maxBits_dvd h.cfgOk
    refine hbase _ _ _ _ (wf_putElems _ _ _ _ hb.1) (keysBelow_putElems _ _ _ hb.2 ?_)
    intro j _ hj
    have hle := elemByte_le s.fmt j
    rw [List.length_replicate] at hj
    change j < (concatCodes s.look s.inputSeq).length + padCount s.fmt (concatCodes s.look s.inputSeq).length at hj
    generalize (concatCodes s.look s.inputSeq).length = n at hfit hj
    cases hf : s.fmt <;> rw [hf] at hj hle <;> simp only [padCount] at hj <;> omega
  · have hb := bits_putElems h _ hfit
    refine inv_raiseFault (hbase _ _ _ _ hb.1 hb.2) _ ?_ _
    rcases hf with ⟨-, rfl⟩ | ⟨-, -, rfl⟩ <;> decide

theorem inv_startDecode {s : State} (h : Inv s) : Inv s.startDecode :=
  ⟨h.cfgOk, h.latchOk, h.treeOk, h.tableOk, Nat.zero_le _, h.memoriesOk⟩

theorem inv_withDecRegs {s : State} (h : Inv s) {r : DecRegs} (hl : r.outLen ≤ s.cfg.maxLen)
    (hw : Memory.wf r.out = true) (hk : keysBelow r.out s.cfg.maxLen = true) : Inv (s.withDecRegs r) where
  cfgOk := h.cfgOk
  latchOk := h.latchOk
  treeOk := h.treeOk
  tableOk := h.tableOk
  outLenOk := by
    have := (Params.bounds h.cfgOk).2.1
    show (BitVec.ofNat 32 r.outLen).toNat ≤ _
    rw [BitVec.toNat_ofNat, Nat.mod_eq_of_lt (by omega)]
    exact hl
  memoriesOk := ⟨h.memoriesOk.1, h.memoriesOk.2.1, h.memoriesOk.2.2.1, ⟨hw, hk⟩, h.memoriesOk.2.2.2.2⟩

theorem inv_finishDecode {s : State} {r : DecRegs} (h : Inv (s.withDecRegs r)) (cmd : Instr) :
    Inv (s.finishDecode cmd r) := by
  unfold State.finishDecode
  split
  · split
    · exact inv_raiseFault h _ (by decide) _
    · exact h
  · exact inv_raiseFault h _ ‹_› _

theorem inv_decodeUnit {s : State} (h : Inv s) (cmd : Instr) : Inv (decodeUnit cmd s) := by
  rcases decodeUnit_cases cmd s with ⟨-, e⟩ | ⟨-, -, e⟩ | ⟨-, -, i, -, e⟩ | ⟨-, -, -, e⟩ | ⟨-, -, -, e⟩ <;> rw [e]
  · exact inv_raiseFault h _ (by decide) _
  · exact inv_raiseFault h _ (by decide) _
  · exact inv_raiseFault (inv_startDecode h) _ (by decide) _
  · split
    · exact inv_startDecode h
    · exact inv_raiseFault (inv_startDecode h) _ (by decide) _
  · obtain ⟨hl, hw, hk⟩ := decodeElems_keeps s.nodeAt s.root s.cfg.maxLen (es := s.elems)
      (r := { out := s.out, outLen := 0, dstate := .atRoot, cur := s.root, bitPos := 0, stop := .none })
      (Nat.zero_le _)
    have hi := inv_withDecRegs h hl (hw h.memoriesOk.2.2.2.1.1) (hk h.memoriesOk.2.2.2.1.2)
    change Inv (s.withDecRegs s.decodeRun) at hi
    exact inv_finishDecode hi cmd

/-- GENTAB ends in every state that meets the invariant. -/
theorem gentabUnit_next {s : State} (h : Inv s) : ∃ t, gentabUnit s = .next t := by
  by_cases hn : s.tree = .none
  · exact ⟨_, if_pos hn⟩
  · have ht : s.tree = .valid → TreeOk s.nodeAt s.nodeCnt.val s.root := by
      intro hv
      have := h.treeOk
      unfold TreeStateOk at this
      rw [hv] at this
      exact this.1
    obtain ⟨code, p, -, e⟩ := gentabUnit_ok hn ht
    exact ⟨_, e⟩

theorem inv_tabled {s : State} (h : Inv s) {code : Store CodeEntry} {p : List Bool}
    (htab : (s.tabled code p).tableOfTree = some (code, p)) : Inv (s.tabled code p) := by
  have hc : Inv s.counted := ⟨h.cfgOk, h.latchOk, h.treeOk, h.tableOk, h.outLenOk, h.memoriesOk⟩
  have hb : Inv (buildUnit s.counted) := inv_buildUnit hc
  have hn : (buildUnit s.counted).tree ≠ .none := by
    rw [buildUnit_tree]
    split <;> simp
  rw [tableOfTree_tabled] at htab
  unfold State.tabled
  generalize buildUnit s.counted = b at hb hn htab ⊢
  exact inv_withTable hb hn htab

theorem inv_compressUnit {s t : State} (h : Inv s) (herr : s.err = false) (e : compressUnit s = .next t) : Inv t := by
  rcases compressUnit_cases herr with ⟨-, e'⟩ | ⟨-, code, p, htab, e'⟩ <;> rw [e'] at e <;> cases e
  · exact inv_raiseFault h _ (by decide) _
  · exact inv_encodeUnit (inv_tabled h htab)

theorem inv_putLocation {s : State} (h : Inv s) (l : Location) (v : Word) : Inv (s.putLocation l v) := by
  cases l with
  | reg r => cases r <;> exact ⟨h.cfgOk, h.latchOk, h.treeOk, h.tableOk, h.outLenOk, h.memoriesOk⟩
  | freq i => exact ⟨h.cfgOk, h.latchOk, h.treeOk, h.tableOk, h.outLenOk, h.memoriesOk⟩
  | sym w =>
    exact ⟨h.cfgOk, h.latchOk, h.treeOk, h.tableOk, h.outLenOk,
      ⟨h.memoriesOk.1, h.memoriesOk.2.1,
        ⟨wf_putWord _ _ _ h.memoriesOk.2.2.1.1, keysBelow_putWord h.memoriesOk.2.2.1.2⟩,
        h.memoriesOk.2.2.2⟩⟩
  | bits w =>
    exact ⟨h.cfgOk, h.latchOk, h.treeOk, h.tableOk, h.outLenOk,
      ⟨h.memoriesOk.1, h.memoriesOk.2.1, h.memoriesOk.2.2.1, h.memoriesOk.2.2.2.1,
        ⟨wf_putWord _ _ _ h.memoriesOk.2.2.2.2.1, keysBelow_putWord h.memoriesOk.2.2.2.2.2⟩⟩⟩
  | node i j => exact h
  | code k j => exact h
  | out w => exact h
  | unmapped => exact h

theorem inv_exec {i : Instr} {s t : State} (h : Inv s) (e : exec i s = .next t) : Inv t := by
  rcases exec_next e with rfl | ⟨-, rfl⟩ | ⟨-, rfl⟩ | ⟨he, ⟨-, rfl⟩ | ⟨-, rfl⟩ | ⟨-, e'⟩ | ⟨-, rfl⟩ | ⟨-, rfl⟩ | ⟨-, e'⟩⟩
  · exact h
  · exact inv_cleared h
  · exact inv_ackFault h
  · exact inv_countUnit h
  · exact inv_buildUnit h
  · exact inv_gentabUnit h e'
  · exact inv_encodeUnit h
  · exact inv_decodeUnit h i
  · exact inv_compressUnit h he e'

/-- Every command ends in every state that meets the invariant. -/
theorem exec_completes {s : State} (h : Inv s) (i : Instr) : ∃ t, exec i s = .next t := by
  cases he : s.err with
  | true =>
    by_cases hc : i = .clear
    · subst hc; exact ⟨_, rfl⟩
    · by_cases ha : i = .errack
      · subst ha; exact ⟨_, rfl⟩
      · exact ⟨_, exec_of_err he hc ha⟩
  | false =>
    cases i with
    | nop => exact ⟨_, rfl⟩
    | count => exact ⟨_, exec_count he⟩
    | build => exact ⟨_, exec_build he⟩
    | gentab => rw [exec_gentab he]; exact gentabUnit_next h
    | encode => exact ⟨_, exec_encode he⟩
    | decode => exact ⟨_, exec_decode he⟩
    | decompress => exact ⟨_, exec_decompress he⟩
    | clear => exact ⟨_, rfl⟩
    | errack => exact ⟨_, rfl⟩
    | compress =>
      rw [exec_compress he]
      rcases compressUnit_cases he with ⟨-, e⟩ | ⟨-, code, p, -, e⟩
      · exact ⟨_, e⟩
      · exact ⟨_, e⟩

end Sys2Proof.Machine
end

