-- ==== Sys2Proof/Laws/PerInstr.lean ====
section
/-! SUPPORT. Statements about every command as syntax, one lemma a constructor. -/

namespace Sys2Proof.Laws.RoundTrip

/-- The command is well formed, its word is legal and has a zero field ZERO (30_encoding.md R90), and the decoder
reads the word back, from the word itself and from the opcode table's numbering. -/
def Statement (i : Instr) : Prop :=
  i.wf = true ∧ commandWordLegal (encode i) = true ∧ zeroField (encode i) = 0#24 ∧
    decode (encode i) = .command i ∧ decodeTableWord 32 (encode i).toNat = some i

theorem nop : Statement .nop := by unfold Statement; decide
theorem count : Statement .count := by unfold Statement; decide
theorem build : Statement .build := by unfold Statement; decide
theorem gentab : Statement .gentab := by unfold Statement; decide
theorem encode : Statement .encode := by unfold Statement; decide
theorem decode : Statement .decode := by unfold Statement; decide
theorem compress : Statement .compress := by unfold Statement; decide
theorem decompress : Statement .decompress := by unfold Statement; decide
theorem clear : Statement .clear := by unfold Statement; decide
theorem errack : Statement .errack := by unfold Statement; decide

end Sys2Proof.Laws.RoundTrip
end

