-- ==== Sys2Proof/Tests/Slice0.lean ====
section
/-! SUPPORT. The model's own tests: what WellFormed refuses, every command word decoded, the worked vectors of
95_test_vectors.md (their numbers stand in the docstrings), and, for each statement of the certificate that has
hypotheses, a state that meets all of them. -/

namespace Sys2Proof.Tests

open Sys2Proof Sys2Proof.Machine

set_option Elab.async false

/-! ### Fixtures -/

/-- A small legal instance: MAX_LEN = 2 (not a multiple of 4), MAX_BITS = 32. -/
def tiny : Params := { Params.default with maxLen := 2, maxBits := 32 }

/-- The tiny instance after reset. -/
def blank : State := State.afterReset tiny 0 []

/-- Bytes as a memory from index 0. -/
def bytes (bs : List Byte) : Memory := putCells [] 0 bs

/-- `s` with an input sequence loaded by the host. -/
def withInput (s : State) (bs : List Byte) : State :=
  { s with sym := bytes bs, len := BitVec.ofNat 32 bs.length }

/-- `s` with a bit-string loaded by the host. -/
def withBits (s : State) (bs : List Byte) (n : Nat) : State :=
  { s with bits := bytes bs, bitLen := BitVec.ofNat 32 n }

/-- A Leaf. -/
def leafOf (w : Weight) (k : SymVal) : Node :=
  { kind := .leaf, weight := w, sym := k, minsym := k, left := 0, right := 0 }

/-- An Internal node. -/
def intOf (w : Weight) (l r : NodeIdx) (m : SymVal) : Node :=
  { kind := .internal, weight := w, sym := 0, minsym := m, left := l, right := r }

/-- `s` with a tree in the arena. -/
def withTree (s : State) (nodes : List Node) (root : NodeIdx) (cnt : NodeCount) : State :=
  { s with node := putCells [] 0 nodes, tree := .valid, root := root, nodeCnt := cnt }

/-- "abracadabra" in ASCII. -/
def abracadabra : List Byte :=
  [0x61#8, 0x62#8, 0x72#8, 0x61#8, 0x63#8, 0x61#8, 0x64#8, 0x61#8, 0x62#8, 0x72#8, 0x61#8]

/-- The arena of vector V1. -/
def arenaV1 : List Node :=
  [leafOf 5#40 97, leafOf 2#40 98, leafOf 1#40 99, leafOf 1#40 100, leafOf 2#40 114, intOf 2#40 2 3 99,
   intOf 4#40 1 5 98, intOf 6#40 4 6 98, intOf 11#40 0 7 97]

/-- A state with the tree of V1 and no table. -/
def treeV1 : State := withTree State.reset arenaV1 8 9

/-- The codes of V1. -/
def codesV1 : Store CodeEntry :=
  [(97, .ofPath [false]), (98, .ofPath [true, true, false]), (99, .ofPath [true, true, true, false]),
   (100, .ofPath [true, true, true, true]), (114, .ofPath [true, false])]

/-- A state with the tree and the codes of V1. -/
def tableV1 : State := { treeV1 with code := codesV1, codeV := true }

/-- The tree of "aaaa", vector V2, in the tiny instance. -/
def treeV2 : State := withTree blank [leafOf 4#40 97, leafOf 0#40 256, intOf 4#40 1 0 97] 2 3

/-- The tree of "ab", vector V4, in the tiny instance. -/
def treeV4 : State := withTree blank [leafOf 1#40 97, leafOf 1#40 98, intOf 2#40 0 1 97] 2 3

/-- The tree of "ab" with its codes. -/
def tableV4 : State := { treeV4 with code := [(97, .ofPath [false]), (98, .ofPath [true])], codeV := true }

/-- What a test looks at in an outcome that is a next state. -/
def ended {α : Type} (o : Host.Outcome State Fault Refusal) (look : State → α) : Option α :=
  match o with
  | .next s => some (look s)
  | .fault _ | .refused _ => none

/-! ### What WellFormed refuses (30_encoding.md R91, R93; 20_memory.md R65; 00_scope.md R7) -/

theorem test_word_undefined_opcode : commandWordLegal 0x0000000A#32 = false := by decide
theorem test_word_zero_field : commandWordLegal 0x00000106#32 = false := by decide
theorem test_word_all_ones : commandWordLegal 0xFFFFFFFF#32 = false := by decide
theorem test_word_compress_legal : commandWordLegal 0x00000006#32 = true := by decide
theorem test_misaligned_read : HostOp.aligned (.read 0x002) = false := by decide
theorem test_misaligned_write : HostOp.aligned (.write 0x401 0#32) = false := by decide
theorem test_params_default : Params.default.wf = true := by decide
theorem test_params_tiny : tiny.wf = true := by decide
theorem test_params_no_symbol : { Params.default with maxLen := 0 }.wf = false := by decide
theorem test_params_len_too_long :
    ({ maxLen := 2 ^ 32, maxBits := 32, symBase := 2 ^ 33, outBase := 2 ^ 34, bitsBase := 0x80000 } : Params).wf =
      false := by decide
theorem test_params_bits_not_words : { Params.default with maxBits := 33 }.wf = false := by decide
theorem test_params_bits_too_many : { Params.default with maxBits := 2 ^ 32 }.wf = false := by decide
theorem test_params_sym_base : { Params.default with symBase := 0x10002 }.wf = false := by decide
theorem test_params_out_base : { Params.default with outBase := 0x20001 }.wf = false := by decide
theorem test_params_bits_base : { Params.default with bitsBase := 0x80003 }.wf = false := by decide
theorem test_params_overlap : { Params.default with maxLen := 65537 }.wf = false := by decide

/-! ### Every command word (30_encoding.md R92), by its bits -/

theorem test_decode_nop : decode 0b00000000000000000000000000000000#32 = .command .nop := by decide
theorem test_decode_count : decode 0b00000000000000000000000000000001#32 = .command .count := by decide
theorem test_decode_build : decode 0b00000000000000000000000000000010#32 = .command .build := by decide
theorem test_decode_gentab : decode 0b00000000000000000000000000000011#32 = .command .gentab := by decide
theorem test_decode_encode : decode 0b00000000000000000000000000000100#32 = .command .encode := by decide
theorem test_decode_decode : decode 0b00000000000000000000000000000101#32 = .command .decode := by decide
theorem test_decode_compress : decode 0b00000000000000000000000000000110#32 = .command .compress := by decide
theorem test_decode_decompress : decode 0b00000000000000000000000000000111#32 = .command .decompress := by decide
theorem test_decode_clear : decode 0b00000000000000000000000000001000#32 = .command .clear := by decide
theorem test_decode_errack : decode 0b00000000000000000000000000001001#32 = .command .errack := by decide
theorem test_decode_undefined : decode 0x0000000A#32 = .illegal .opcodeUndefined := by decide
theorem test_decode_zero_field : decode 0x00000106#32 = .illegal .zeroFieldSet := by decide
theorem test_table_word : decodeTableWord 32 0x6 = some .compress ∧ decodeTableWord 8 0x106 = some .compress := by
  decide

/-! ### One step of each command -/

/-- V46, R205. -/
theorem test_nop_under_a_fault :
    ended (exec .nop { blank with err := true, errCode := .lookup, errInfo := 2#32 })
      (fun t => (t.statusWord, t.errInfo)) = some (0x00000005#32, 2#32) := by decide +kernel

/-- V9. -/
theorem test_count_abracadabra :
    ended (exec .count (withInput State.reset abracadabra))
      (fun t => (freqAt t.freq 97, freqAt t.freq 98, freqAt t.freq 99, freqAt t.freq 114, freqAt t.freq 101,
        t.statusWord)) = some (5#32, 2#32, 1#32, 2#32, 0#32, 0#32) := by decide +kernel

/-- V12. -/
theorem test_count_range :
    ended (exec .count { State.reset with len := 0x00010001#32 }) (fun t => (t.statusWord, t.errInfo)) =
      some (0x00000011#32, 0x00010001#32) := by decide +kernel

/-- V1: the merge order with ties, from the frequencies of "abracadabra". -/
theorem test_build_abracadabra :
    ended (exec .build { State.reset with freq := countFreq abracadabra })
      (fun t => (t.node, t.root, t.nodeCnt, t.statusWord)) =
      some (putCells [] 0 arenaV1, 8, 9, 0x00000040#32) := by decide +kernel

/-- V16: a weight of more than 32 bits. -/
theorem test_build_wide_weight :
    ended (exec .build { State.reset with
        freq := putFreq (putFreq zeroFreq 0 0xFFFFFFFF#32) 255 0xFFFFFFFF#32 })
      (fun t => (t.nodeWordAt 2 0, t.nodeWordAt 2 1, t.nodeWordAt 2 2, t.nodeWordAt 2 3)) =
      some (0xFFFFFFFE#32, 0x00000001#32, 0x80000000#32, 0x00010000#32) := by decide +kernel

/-- V1: the code table, by its words. -/
theorem test_gentab_abracadabra :
    ended (exec .gentab treeV1)
      (fun t => ([97, 98, 99, 100, 114, 101].map (fun k => (t.codeWordAt k 0, t.codeWordAt k 1)), t.statusWord)) =
      some ([(0x80000001#32, 0x00000000#32), (0x80000003#32, 0x00000003#32), (0x80000004#32, 0x00000007#32),
             (0x80000004#32, 0x0000000F#32), (0x80000002#32, 0x00000001#32), (0#32, 0#32)], 0x000000C0#32) := by
  decide +kernel

/-- V23. -/
theorem test_gentab_sequence :
    ended (exec .gentab State.reset) (fun t => (t.statusWord, t.errInfo)) = some (0x0000000B#32, 3#32) := by
  decide +kernel

/-- V1, CHAR. -/
theorem test_encode_char :
    ended (exec .encode (withInput tableV1 abracadabra))
      (fun t => (t.bitLen, t.busRead 0x80000, t.busRead 0x80004, t.busRead 0x80010, cellAt t.bits 23)) =
      some (23#32, .readOk 0x30313130#32, .readOk 0x31303031#32, .readOk 0x30313130#32, none) := by decide +kernel

/-- V29b: PACKED, the padding written as 0 and byte 3 not touched. -/
theorem test_encode_packed_padding :
    ended (exec .encode { withInput tableV1 abracadabra with
        fmt := .packed, bits := bytes [0xFF#8, 0xFF#8, 0xFF#8, 0xFF#8] })
      (fun t => (t.bitLen, t.busRead 0x80000)) = some (23#32, .readOk 0xFF16F396#32) := by decide +kernel

/-- V36: a partial trailing code. -/
theorem test_decode_partial_code :
    ended (exec .decode (withBits tableV1 [0x30#8, 0x31#8, 0x31#8] 3))
      (fun t => (t.statusWord, t.errInfo, t.outLen, t.outByte 0)) =
      some (0x000001C7#32, 3#32, 0#32, 0x61#8) := by decide +kernel

/-- V31: an invalid element wins over the synthetic leaf that the walk would reach before it. -/
theorem test_decode_invalid_bit :
    ended (exec .decode (withBits treeV2 [0x30#8, 0x31#8, 0x78#8, 0x30#8] 4))
      (fun t => (t.statusWord, t.errInfo, t.outLen, t.out)) = some (0x00000043#32, 2#32, 0#32, []) := by
  decide +kernel

/-- V5. -/
theorem test_compress_abc :
    ended (exec .compress (withInput State.reset [0x61#8, 0x62#8, 0x63#8]))
      (fun t => (t.statusWord, t.bitLen, t.busRead 0x80000, t.bitsByte 4, t.root, t.nodeWordAt 4 3)) =
      some (0x000000C0#32, 5#32, .readOk 0x31313031#32, 0x30#8, 4, 0x00030002#32) := by decide +kernel

/-- V8. -/
theorem test_compress_nothing :
    ended (exec .compress State.reset) (fun t => (t.statusWord, t.bitLen, t.nodeCnt, t.codeWordAt 97 0, t.bits.isEmpty)) =
      some (0x000000A0#32, 0#32, 0, 0#32, true) := by decide +kernel

/-- V40: the padding of a PACKED bit-string is not read. -/
theorem test_decompress_packed :
    ended (exec .decompress { withBits treeV4 [0xFE#8, 0xFF#8, 0xFF#8, 0xFF#8] 2 with fmt := .packed })
      (fun t => (t.outLen, t.outByte 0, t.outByte 1, t.statusWord)) =
      some (2#32, 0x61#8, 0x62#8, 0x00000040#32) := by decide +kernel

/-- V43: SEQUENCE before RANGE, with DECOMPRESS's own opcode. -/
theorem test_decompress_sequence :
    ended (exec .decompress { State.reset with bitLen := 0x00080001#32 }) (fun t => (t.statusWord, t.errInfo)) =
      some (0x0000000B#32, 7#32) := by decide +kernel

/-- V55, V56. -/
theorem test_clear :
    ended (exec .clear { withInput tableV1 abracadabra with
        err := true, errCode := .mismatch, errInfo := 3#32, dstate := .descending, fmt := .packed })
      (fun t => (t.statusWord, t.ctrlWord, t.len, t.nodeCnt, t.nodeWordAt 8 0, t.busRead 0x10000)) =
      some (0#32, 0#32, 0#32, 0, 0x0000000B#32, .readOk 0x61726261#32) := by decide +kernel

/-- V53. -/
theorem test_errack :
    ended (exec .errack { withBits tableV1 [0x30#8] 4 with err := true, errCode := .invalidBit, errInfo := 2#32 })
      (fun t => (t.statusWord, t.errInfo, t.bitLen)) = some (0x000000C0#32, 0#32, 4#32) := by decide +kernel

/-! ### Steps of the bus -/

/-- V47. -/
theorem test_step_illegal_word :
    ended (step { State.reset with pending := [.write 0x000 0x0000000A#32] })
      (fun t => (t.statusWord, t.errInfo, t.response, t.pending)) =
      some (0x0000000F#32, 0x0000000A#32, some .writeOk, []) := by decide +kernel

/-- V58, through the placement the host uses. -/
theorem test_step_compress_range :
    ended (step ({ State.reset with len := 0x00010001#32 }.withFetchWord 32 0x6))
      (fun t => (t.statusWord, t.errInfo, t.tree)) = some (0x00000011#32, 0x00010001#32, .none) := by decide +kernel

/-- V61, V62. -/
theorem test_read_errors :
    [0x002, 0x02C, 0x3FF0, 0x8040, 0x30000, 0x100000].map State.reset.busRead =
      List.replicate 6 (.readError 0#32) := by decide +kernel

/-- V64. -/
theorem test_write_ctrl :
    ended (step { State.reset with pending := [.write 0x008 0xFFFFFFFF#32] }) (fun t => t.busRead 0x008) =
      some (.readOk 1#32) := by decide +kernel

/-- V68. -/
theorem test_write_sym :
    ended (step { State.reset with pending := [.write 0x10000 0x64636261#32] })
      (fun t => (t.symByte 0, t.symByte 1, t.symByte 2, t.symByte 3, t.busRead 0x10000)) =
      some (0x61#8, 0x62#8, 0x63#8, 0x64#8, .readOk 0x64636261#32) := by decide +kernel

/-! ### Witnesses: for every statement with hypotheses, a state that meets them together -/

/-- `s` after BUILD on the frequencies of `bs`. -/
def built (s : State) (bs : List Byte) : State := buildUnit { s with freq := countFreq bs }

/-- The tiny instance with the tree of "ab". -/
@[irreducible] def builtAB : State := built blank [0x61#8, 0x62#8]

/-- The tiny instance with the tree of "aaaa". -/
@[irreducible] def builtA : State := built blank [0x61#8, 0x61#8, 0x61#8, 0x61#8]

/-- A state with a latched fault. -/
def faulty : State := { blank with err := true, errCode := .lookup, errInfo := 1#32 }

theorem inv_blank : Inv blank := inv_afterReset (by decide) _ _

theorem inv_built {s : State} (h : Inv s) (bs : List Byte) : Inv (built s bs) := by
  have h' : Inv { s with freq := countFreq bs } :=
    ⟨h.cfgOk, h.latchOk, h.treeOk, h.tableOk, h.outLenOk, h.memoriesOk⟩
  exact inv_buildUnit h'

theorem inv_withBits {s : State} (h : Inv s) (bs : List Byte) (n : Nat) (hw : Memory.wf (bytes bs) = true)
    (hk : keysBelow (bytes bs) s.cfg.maxBits = true) : Inv (withBits s bs n) :=
  ⟨h.cfgOk, h.latchOk, h.treeOk, h.tableOk, h.outLenOk,
    ⟨h.memoriesOk.1, h.memoriesOk.2.1, h.memoriesOk.2.2.1, h.memoriesOk.2.2.2.1, ⟨hw, hk⟩⟩⟩

theorem inv_builtAB : Inv builtAB := by unfold builtAB; exact inv_built inv_blank _

theorem inv_builtA : Inv builtA := by unfold builtA; exact inv_built inv_blank _

theorem treeOk_of_valid {s : State} (h : Inv s) (hv : s.tree = .valid) : TreeOk s.nodeAt s.nodeCnt.val s.root := by
  have ht := h.treeOk
  unfold TreeStateOk at ht
  rw [hv] at ht
  exact ht.1

theorem step_idle {s : State} (h : s.pending = []) : step s = .next s := by
  unfold step nextTransaction
  rw [h]

theorem isCode_withBits (s : State) (bs : List Byte) (n : Nat) (p : List Bool) (k : Nat) :
    (withBits s bs n).IsCode p k ↔ s.IsCode p k := Iff.rfl

theorem builtAB_code_a : builtAB.IsCode [false] 0x61 := ⟨0, by decide +kernel, by decide +kernel, by decide +kernel⟩

theorem builtAB_code_b : builtAB.IsCode [true] 0x62 := ⟨1, by decide +kernel, by decide +kernel, by decide +kernel⟩

/-- The code of `a` in the tree of "ab". -/
theorem code_a (bs : List Byte) (n : Nat) : (withBits builtAB bs n).IsCode [false] 0x61 :=
  (isCode_withBits _ _ _ _ _).2 builtAB_code_a

/-- The code of `b` in the tree of "ab". -/
theorem code_b (bs : List Byte) (n : Nat) : (withBits builtAB bs n).IsCode [true] 0x62 :=
  (isCode_withBits _ _ _ _ _).2 builtAB_code_b

theorem spells_ab (bs : List Byte) (n : Nat) : (withBits builtAB bs n).SpellsOut [false, true] [0x61#8, 0x62#8] :=
  .cons (p := [false]) (c := 0x61#8) (code_a bs n) (.cons (p := [true]) (c := 0x62#8) (code_b bs n) .nil)

theorem witness_StepRunsTheDecodedCommand :
    decode 0x00000001#32 = .command .count ∧ Instr.count.wf = true ∧
      { blank with pending := [.write 0 0x00000001#32, .reset] }.pending = .write 0 0x00000001#32 :: [.reset] := by
  decide

theorem witness_StepPerformsTheOldestTransaction :
    blank.pending = [] ∧ { blank with pending := [.read 4] }.pending = .read 4 :: [] ∧
      { blank with pending := [.write 12 1#32, .reset] }.pending = .write 12 1#32 :: [.reset] ∧
      { blank with pending := [.reset] }.pending = .reset :: [] := by decide

theorem witness_IllegalWordLatchesOrIsIgnored :
    (∀ i, (0x0000000A#32 : Word) ≠ encode i) ∧ (∀ i, (0x00000100#32 : Word) ≠ encode i) ∧
      blank.err = false ∧ faulty.err = true ∧
      { faulty with pending := [.write 0 0x00000100#32] }.pending = .write 0 0x00000100#32 :: [] :=
  ⟨fun i => by cases i <;> decide, fun i => by cases i <;> decide, rfl, rfl, rfl⟩

theorem witness_GateIgnoresCommandsUnderAFault :
    faulty.err = true ∧ Instr.compress ≠ .clear ∧ Instr.compress ≠ .errack ∧
      (0x0000000A#32 : Word) ≠ 0x00000008#32 ∧ (0x0000000A#32 : Word) ≠ 0x00000009#32 ∧
      { faulty with pending := [.write 0 0x0000000A#32] }.pending = .write 0 0x0000000A#32 :: [] ∧
      { faulty with pending := [.read 0x10] }.pending = .read 0x10 :: [] ∧ (0x10 : Nat) ≠ 0 := by decide

theorem witness_BusErrorExactlyWhenMisalignedOrUnmapped :
    0x002 % 4 ≠ 0 ∧ (∀ w ∈ blank.cfg.windows, ¬ (w.1 ≤ 0x02C ∧ 0x02C < w.1 + w.2)) ∧
      (∀ w ∈ blank.cfg.windows, ¬ (w.1 ≤ 0x10004 ∧ 0x10004 < w.1 + w.2)) ∧
      0x10000 % 4 = 0 ∧ (0x10000, 4) ∈ blank.cfg.windows ∧ 0x8003C % 4 ≠ 1 ∧ (0x80000, 32) ∈ blank.cfg.windows ∧
      0x80000 ≤ 0x8001C ∧ 0x8001C < 0x80000 + 32 := by decide

/-- Each row of the two number tables of RegistersReadAsTheirFields is some state's. -/
theorem witness_RegistersReadAsTheirFields :
    { blank with errCode := .range }.errCode = .range ∧ (ErrCode.range, 8#4) ∈ [(ErrCode.none, 0#4), (.range, 8#4)] ∧
      { blank with tree := .valid }.tree = .valid ∧ blank.errCode = .none ∧ blank.tree = .none := by decide

theorem witness_HostWritesOfRegisters : 0x004 ∈ [0x004, 0x014, 0x018, 0x01C, 0x020, 0x024, 0x028] ∧
    0x028 ∈ [0x004, 0x014, 0x018, 0x01C, 0x020, 0x024, 0x028] := by decide

theorem witness_ReadOnlyWindowsIgnoreWrites :
    blank.cfg.wf = true ∧ (0x2000 ≤ 0x3FEC ∧ 0x3FEC < 0x3FF0 ∧ 0x3FEC % 4 = 0) ∧
      (0x4000 ≤ 0x803C ∧ 0x803C < 0x8040 ∧ 0x803C % 4 = 0) ∧
      (blank.cfg.outBase ≤ 0x20000 ∧ 0x20000 < blank.cfg.outBase + roundUp4 blank.cfg.maxLen ∧ 0x20000 % 4 = 0) := by
  decide

theorem witness_FreqWindowReadsWhatWasWritten : (0 : Nat) < 256 ∧ (255 : Nat) < 256 := by decide

theorem witness_ByteMemoriesReadLittleEndian :
    blank.cfg.wf = true ∧ 1 < blank.cfg.maxLen ∧ 1 < roundUp4 blank.cfg.maxLen ∧ ¬ 3 < blank.cfg.maxLen ∧
      3 < roundUp4 blank.cfg.maxLen ∧ 31 < blank.cfg.maxBits := by decide

theorem witness_ByteMemoriesWriteLittleEndian :
    blank.cfg.wf = true ∧ 4 * 0 < blank.cfg.maxLen ∧ 4 * 7 < blank.cfg.maxBits := by decide

theorem witness_NodeWindowLayout :
    0 < 511 ∧ cellAt builtAB.node 0 = some (leafOf 1#40 97) ∧ 510 < 511 ∧
      cellAt { blank with node := [(510, intOf 256#40 508 509 0)] }.node 510 = some (intOf 256#40 508 509 0) := by
  decide +kernel

theorem witness_CodeWindowLayout :
    256 < 257 ∧ cellAt { blank with code := [(256, CodeEntry.ofPath [false])] }.code 256 =
      some (CodeEntry.ofPath [false]) ∧ 255 < 256 ∧ 9 ≤ 15 ∧ 15 < 16 := by decide +kernel

theorem witness_ResetEventRestoresTheResetValues :
    { faulty with pending := [.reset, .read 4] }.pending = .reset :: [.read 4] := by decide

theorem witness_ErrackClearsTheLatchOnly : LatchOk blank ∧ blank.err = false := ⟨inv_blank.latchOk, rfl⟩

theorem witness_SequenceFaultChangesOnlyTheLatch :
    blank.err = false ∧ blank.tree = .none ∧ blank.codeV = false := by decide

theorem witness_RangeFaultChangesOnlyTheLatch :
    { tableV4 with len := 3#32 }.err = false ∧ { tableV4 with len := 3#32 }.cfg.maxLen < 3 ∧
      { tableV4 with len := 3#32 }.codeV = true ∧ { treeV4 with bitLen := 33#32 }.err = false ∧
      { treeV4 with bitLen := 33#32 }.cfg.maxBits < 33 ∧ { treeV4 with bitLen := 33#32 }.tree ≠ .none := by decide

theorem witness_CountCountsTheInput :
    (withInput blank [0x61#8, 0x62#8]).err = false ∧
      (withInput blank [0x61#8, 0x62#8]).len.toNat ≤ (withInput blank [0x61#8, 0x62#8]).cfg.maxLen := by decide

theorem witness_BuildFrame : blank.err = false := rfl

theorem freqAt_blank (i : Nat) (_ : i < 256) : freqAt blank.freq i = 0#32 := freqAt_zeroFreq i

theorem witness_BuildOfNoSymbolIsTheEmptyTree : blank.err = false ∧ ∀ i, i < 256 → freqAt blank.freq i = 0#32 :=
  ⟨rfl, freqAt_blank⟩

theorem symbolCount_eq (f : Freq) : symbolCount f = (presentSyms f).length := by
  rw [presentSyms_eq]
  rfl

/-- One symbol, and two: what BuildNodeCounts, BuildMakesATree and BuildRootWeightIsTheSumOfCounts ask. -/
theorem witness_BuildNodeCounts :
    blank.err = false ∧ symbolCount (countFreq [0x61#8]) = 1 ∧ symbolCount (countFreq [0x00#8, 0xFF#8]) = 2 :=
  ⟨rfl, (symbolCount_eq _).trans (by decide +kernel), (symbolCount_eq _).trans (by decide +kernel)⟩

theorem witness_BuildLeavesInAscendingOrder :
    blank.err = false ∧
      ((List.range 256).filter (fun i => freqAt (countFreq [0x62#8, 0x61#8]) i != 0#32))[1]? = some 0x62 ∧
      (1 : NodeIdx).val = 1 := by decide +kernel

theorem witness_BuildOfOneSymbolAddsTheSyntheticLeaf :
    blank.err = false ∧ ∀ i, i < 256 → (freqAt (countFreq [0xFF#8]) i ≠ 0#32 ↔ i = (0xFF#8 : Byte).toNat) := by
  refine ⟨rfl, fun i hi => ?_⟩
  have h := @mem_presentSyms_countFreq [0xFF#8] (by decide) (BitVec.ofNat 8 i)
  rw [mem_presentSyms, BitVec.toNat_ofNat, Nat.mod_eq_of_lt (by omega), List.mem_singleton] at h
  rw [show freqAt (countFreq [0xFF#8]) i ≠ 0#32 ↔ i < 256 ∧ freqAt (countFreq [0xFF#8]) i ≠ 0#32 by simp [hi], h,
    BitVec.toNat_eq, BitVec.toNat_ofNat, Nat.mod_eq_of_lt (by omega)]

theorem witness_BuildMergesTheTwoLeast :
    blank.err = false ∧ (2 : NodeIdx).val < builtAB.nodeCnt.val ∧ (builtAB.nodeAt 2).kind = .internal := by
  decide +kernel

theorem witness_BuildDependsOnFreqAlone :
    blank.err = false ∧ tableV4.err = false ∧ ∀ i, i < 256 → freqAt blank.freq i = freqAt tableV4.freq i :=
  ⟨rfl, rfl, fun _ _ => rfl⟩

/-- A tree, with a symbol that has a code and one that has none: what GentabRecordsThePaths and
GentabCodesArePrefixFree ask. -/
theorem witness_GentabRecordsThePaths :
    builtAB.err = false ∧ builtAB.tree = .valid ∧ TreeOk builtAB.nodeAt builtAB.nodeCnt.val builtAB.root ∧
      builtAB.IsCode [true] 0x62 ∧ ∀ l : NodeIdx, l.val < 3 → (builtAB.nodeAt l).sym.val ≠ 256 :=
  ⟨by decide +kernel, by decide +kernel, treeOk_of_valid inv_builtAB (by decide +kernel), builtAB_code_b,
    by decide +kernel⟩

theorem witness_GentabOfTheEmptyTree :
    { blank with tree := .empty }.err = false ∧ { blank with tree := .empty }.tree = .empty ∧
      { blank with tree := .empty }.len = 0#32 ∧ 0 < { blank with tree := .empty, len := 2#32 }.len.toNat ∧
      { blank with tree := .empty, len := 2#32 }.len.toNat ≤ 2 := by decide

theorem witness_GentabInvariantFault :
    (withTree blank [leafOf 1#40 97] 0 1).tree = .valid ∧
      ((withTree blank [leafOf 1#40 97] 0 1).nodeAt (withTree blank [leafOf 1#40 97] 0 1).root).kind = .leaf ∧
      (withTree blank [leafOf 1#40 97] 0 1).err = false := by decide +kernel

/-- What EncodeConcatenatesTheCodes and EncodeWritesExactlyItsBytes ask, with LEN = MAX_LEN. -/
theorem witness_EncodeConcatenatesTheCodes :
    let s := withInput tableV4 [0x61#8, 0x62#8]
    s.cfg.wf = true ∧ s.err = false ∧ s.codeV = true ∧ s.len.toNat ≤ s.cfg.maxLen ∧
      (∀ i, i < s.len.toNat → (s.codeAt (s.symByte i).toNat).valid = true) ∧
      (s.inputSeq.map (fun c => (s.codeAt c.toNat).len.toNat)).sum ≤ s.cfg.maxBits ∧
      (s.inputSeq.flatMap (fun c => (s.codeAt c.toNat).code)).length ≤ s.cfg.maxBits := by
  decide +kernel

theorem witness_EncodeOfEmptyInput : tableV4.err = false ∧ tableV4.codeV = true ∧ tableV4.len = 0#32 := by decide

/-- LOOKUP: the second symbol has no code (vector V25). -/
theorem witness_EncodeStopsAtTheFirstFaultySymbol_lookup :
    let s : State := { withInput tableV4 [0x61#8, 0x63#8] with code := putCell tableV4.code 99 .absent }
    s.cfg.wf = true ∧ s.err = false ∧ s.codeV = true ∧ s.len.toNat ≤ s.cfg.maxLen ∧
      s.inputSeq = [0x61#8] ++ 0x63#8 :: [] ∧ (∀ d ∈ [0x61#8], (s.codeAt d.toNat).valid = true) ∧
      (([0x61#8] : List Byte).flatMap (fun d => (s.codeAt d.toNat).code)).length ≤ s.cfg.maxBits ∧
      (s.codeAt (0x63#8 : Byte).toNat).valid = false := by decide +kernel

/-- OVERFLOW: the code of the first symbol is longer than BITS. -/
theorem witness_EncodeStopsAtTheFirstFaultySymbol_overflow :
    let s : State := { withInput tableV4 [0x61#8] with
      code := putCell tableV4.code 97 (CodeEntry.ofPath (List.replicate 33 true)) }
    s.cfg.wf = true ∧ s.err = false ∧ s.codeV = true ∧ s.len.toNat ≤ s.cfg.maxLen ∧
      s.inputSeq = [] ++ 0x61#8 :: [] ∧ (s.codeAt (0x61#8 : Byte).toNat).valid = true ∧
      s.cfg.maxBits < 0 + (s.codeAt (0x61#8 : Byte).toNat).len.toNat := by decide +kernel

/-- PACKED, with a byte that the codes before the faulty symbol fill in part only. -/
theorem witness_EncodeStopsAtTheFirstFaultySymbol_packed :
    let s : State := { withInput tableV4 [0x61#8, 0x63#8] with
      fmt := .packed, bits := bytes [0xFF#8], code := putCell tableV4.code 99 .absent }
    s.cfg.wf = true ∧ s.err = false ∧ s.codeV = true ∧ s.len.toNat ≤ s.cfg.maxLen ∧
      s.inputSeq = [0x61#8] ++ 0x63#8 :: [] ∧ (∀ d ∈ [0x61#8], (s.codeAt d.toNat).valid = true) ∧
      (s.codeAt (0x63#8 : Byte).toNat).valid = false ∧ s.fmt = .packed ∧
      (([0x61#8] : List Byte).flatMap (fun d => (s.codeAt d.toNat).code)).length = 1 ∧ 1 ≤ 8 * 0 + 7 := by
  decide +kernel

theorem witness_DecompressIsDecode : builtAB.tree ≠ .none ∧ faulty.err = true ∧ blank.tree = .none ∧
    blank.err = false := by decide +kernel

/-- "01" in the tree of "ab": two symbols, which is MAX_LEN. -/
theorem witness_DecodeOfCompleteCodes :
    let s := withBits builtAB [0x30#8, 0x31#8] 2
    Inv s ∧ s.err = false ∧ s.tree = .valid ∧ s.elems = elemsOfBits [false, true] ∧ s.bitLen.toNat ≤ s.cfg.maxBits ∧
      s.SpellsOut [false, true] [0x61#8, 0x62#8] ∧ ([0x61#8, 0x62#8] : List Byte).length ≤ s.cfg.maxLen :=
  ⟨inv_withBits inv_builtAB _ _ (by decide) (by decide +kernel), by decide +kernel, by decide +kernel,
    by decide +kernel, by decide +kernel, spells_ab _ _, by decide +kernel⟩

/-- The tiny instance with the tree of "abc", whose codes have one and two bits (vector V5). -/
@[irreducible] def builtABC : State := built blank [0x61#8, 0x62#8, 0x63#8]

theorem inv_builtABC : Inv builtABC := by unfold builtABC; exact inv_built inv_blank _

/-- "1" in the tree of "abc" ends inside a code. -/
theorem witness_DecodeOfAPartialTrailingCode :
    let s := withBits builtABC [0x31#8] 1
    Inv s ∧ s.err = false ∧ s.tree = .valid ∧ s.elems = elemsOfBits ([] ++ [true]) ∧
      s.bitLen.toNat ≤ s.cfg.maxBits ∧ s.SpellsOut [] [] ∧ ([] : List Byte).length ≤ s.cfg.maxLen ∧
      [true] ≠ [] ∧ descend s.nodeAt s.root [true] = some 3 ∧ (s.nodeAt 3).kind = .internal :=
  ⟨inv_withBits inv_builtABC _ _ (by decide) (by decide +kernel), by decide +kernel, by decide +kernel,
    by decide +kernel, by decide +kernel, .nil, by decide +kernel, by decide, by decide +kernel, by decide +kernel⟩

/-- MISMATCH: "0" in the tree of "aaaa" leads to the synthetic leaf (vector V38). -/
theorem witness_DecodeStopsInsideTheBitString_mismatch :
    let s := withBits builtA [0x30#8] 1
    Inv s ∧ s.err = false ∧ s.tree = .valid ∧ s.elems = elemsOfBits ([] ++ [false] ++ []) ∧
      s.bitLen.toNat ≤ s.cfg.maxBits ∧ s.SpellsOut [] [] ∧ ([] : List Byte).length ≤ s.cfg.maxLen ∧
      s.IsCode [false] 256 :=
  ⟨inv_withBits inv_builtA _ _ (by decide) (by decide +kernel), by decide +kernel, by decide +kernel,
    by decide +kernel, by decide +kernel, .nil, by decide +kernel,
    ⟨1, by decide +kernel, by decide +kernel, by decide +kernel⟩⟩

/-- OVERFLOW: a third symbol where MAX_LEN is 2. -/
theorem witness_DecodeStopsInsideTheBitString_overflow :
    let s := withBits builtAB [0x30#8, 0x31#8, 0x30#8] 3
    Inv s ∧ s.err = false ∧ s.tree = .valid ∧ s.elems = elemsOfBits ([false, true] ++ [false] ++ []) ∧
      s.bitLen.toNat ≤ s.cfg.maxBits ∧ s.SpellsOut [false, true] [0x61#8, 0x62#8] ∧
      ([0x61#8, 0x62#8] : List Byte).length ≤ s.cfg.maxLen ∧ s.IsCode [false] 0x61 ∧ 0x61 < 256 ∧
      ([0x61#8, 0x62#8] : List Byte).length = s.cfg.maxLen :=
  ⟨inv_withBits inv_builtAB _ _ (by decide) (by decide +kernel), by decide +kernel, by decide +kernel,
    by decide +kernel, by decide +kernel, spells_ab _ _, by decide +kernel, code_a _ _, by decide, by decide +kernel⟩

theorem witness_DecodeOfAnInvalidElement :
    let s := withBits builtA [0x30#8, 0x31#8, 0x78#8, 0x30#8] 4
    s.err = false ∧ s.tree ≠ .none ∧ s.bitLen.toNat ≤ s.cfg.maxBits ∧ 2 < s.bitLen.toNat ∧ s.elem 2 = .invalid ∧
      ∀ j, j < 2 → s.elem j ≠ .invalid := by decide +kernel

theorem witness_DecodeOfTheAbsentTree :
    let s := withBits { blank with tree := .empty } [0x30#8] 1
    s.err = false ∧ s.tree = .empty ∧ { s with bitLen := 0#32 }.bitLen = 0#32 ∧ 0 < s.bitLen.toNat ∧
      s.bitLen.toNat ≤ s.cfg.maxBits ∧ ∀ j, j < s.bitLen.toNat → s.elem j ≠ .invalid := by decide +kernel

/-- What DecodeFrame asks. -/
theorem witness_DecodeFrame : builtAB.err = false ∧ Instr.decode ∈ [Instr.decode, .decompress] := by decide +kernel

/-- Two states that agree on the encoded result and differ elsewhere, in OUTLEN and DSTATE too. -/
theorem witness_DecodeDependsOnTheEncodedResultAlone :
    let s := withBits builtAB [0x30#8, 0x31#8] 2
    let u : State := { s with
      bits := putCell s.bits 2 0x78#8, freq := zeroFreq, len := 1#32, outLen := 1#32, dstate := .descending }
    s.err = false ∧ u.err = false ∧ s.cfg = u.cfg ∧ s.tree = u.tree ∧ s.root = u.root ∧
      (∀ i, s.nodeAt i = u.nodeAt i) ∧ s.fmt = u.fmt ∧ s.bitLen = u.bitLen ∧
      (∀ j, j < s.bitLen.toNat → s.elem j = u.elem j) ∧ s.tree ≠ .none ∧ s.bitLen.toNat ≤ s.cfg.maxBits :=
  ⟨by decide +kernel, by decide +kernel, rfl, rfl, rfl, fun _ => rfl, rfl, rfl, by decide +kernel, by decide +kernel,
    by decide +kernel⟩

/-- The same where DECODE is refused: no tree, and BITLEN one beyond MAX_BITS with a tree. -/
theorem witness_DecodeDependsOnTheEncodedResultAlone_refused :
    blank.err = false ∧ blank.tree = .none ∧ { treeV4 with bitLen := 33#32 }.err = false ∧
      { treeV4 with bitLen := 33#32 }.cfg.maxBits < { treeV4 with bitLen := 33#32 }.bitLen.toNat := by decide

/-- What CompressResult asks, with LEN = MAX_LEN. -/
theorem witness_CompressResult :
    (withInput blank [0x61#8, 0x62#8]).cfg.wf = true ∧ (withInput blank [0x61#8, 0x62#8]).err = false ∧
      (withInput blank [0x61#8, 0x62#8]).len.toNat ≤ (withInput blank [0x61#8, 0x62#8]).cfg.maxLen := by decide

/-- What CompressFrame asks: LEN one beyond MAX_LEN, and LEN = MAX_LEN. -/
theorem witness_CompressFrame :
    { blank with len := 3#32 }.err = false ∧
      { blank with len := 3#32 }.cfg.maxLen < { blank with len := 3#32 }.len.toNat ∧
      (withInput blank [0x61#8, 0x62#8]).err = false ∧
      (withInput blank [0x61#8, 0x62#8]).len.toNat ≤ (withInput blank [0x61#8, 0x62#8]).cfg.maxLen := by decide

theorem witness_CompressOfOneSymbol :
    let s := withInput blank [0x61#8, 0x61#8]
    s.cfg.wf = true ∧ s.err = false ∧ s.len.toNat ≤ s.cfg.maxLen ∧ s.len ≠ 0#32 ∧ s.len.toNat ≤ s.cfg.maxBits ∧
      ∀ i, i < s.len.toNat → s.symByte i = 0x61#8 := by decide +kernel

theorem witness_CompressDependsOnTheInputAlone :
    let s := withInput blank [0x61#8, 0x62#8]
    let u := withInput { tableV4 with outLen := 1#32 } [0x61#8, 0x62#8]
    s.err = false ∧ u.err = false ∧ s.cfg = u.cfg ∧ s.fmt = u.fmt ∧ s.len = u.len ∧ s.cfg.wf = true ∧
      s.len.toNat ≤ s.cfg.maxLen ∧ ∀ i, i < s.len.toNat → s.symByte i = u.symByte i := by decide +kernel

/-- COMPRESS of "ab" ends without a fault; the state it leaves is its own later state. -/
theorem witness_CompressDecompressRoundTrip :
    let s := withInput blank [0x61#8, 0x62#8]
    s.cfg.wf = true ∧ s.err = false ∧ ∃ t, exec .compress s = .next t ∧ t.err = false := by
  refine ⟨by decide, by decide, ?_⟩
  have h : ended (exec .compress (withInput blank [0x61#8, 0x62#8])) State.err = some false := by decide +kernel
  cases e : exec .compress (withInput blank [0x61#8, 0x62#8]) with
  | next t => rw [e] at h; exact ⟨t, rfl, Option.some.inj h⟩
  | fault r => rw [e] at h; cases h
  | refused r => rw [e] at h; cases h

theorem witness_CompressNeverOverflowsAtEightBitsASymbol :
    State.reset.cfg.wf = true ∧ State.reset.cfg.maxBits = 8 * State.reset.cfg.maxLen ∧ State.reset.err = false ∧
      (withInput State.reset abracadabra).len.toNat ≤ State.reset.cfg.maxLen := by decide

theorem witness_OnlyTheOwnersWrite :
    locate blank.cfg 0x00C ≠ .reg .cmd ∧ performWrite 0x00C 5#32 blank =
      .next ((blank.respond .writeOk).putLocation (.reg .len) 5#32) ∧
      step blank = .next blank ∧ exec .nop blank = .next blank ∧ Instr.nop ≠ .clear ∧
      Instr.nop ∉ [Instr.count, .compress, .clear] ∧ Instr.nop ∉ [Instr.errack, .clear] :=
  ⟨by decide, rfl, rfl, rfl, by decide, by decide, by decide⟩

theorem witness_ResetMeetsTheInvariant : tiny.wf = true := by decide

theorem witness_StepKeepsTheInvariant : Inv builtAB ∧ step builtAB = .next builtAB :=
  ⟨inv_builtAB, step_idle (by decide +kernel)⟩

theorem witness_StepAlwaysCompletes : Inv { builtAB with pending := [.write 0 0x00000003#32] } :=
  ⟨inv_builtAB.cfgOk, inv_builtAB.latchOk, inv_builtAB.treeOk, inv_builtAB.tableOk, inv_builtAB.outLenOk,
    inv_builtAB.memoriesOk⟩

end Sys2Proof.Tests
end

section
/-! BUILD of a table with no symbol (41_tree_builder.md R131). -/

namespace Sys2Proof.Machine

/-- The next state of BUILD of a table without a present symbol: the empty tree, and of the rest only the working
registers NALLOC, A and B may differ (41_tree_builder.md R131). -/
theorem buildUnit_eq_of_noSymbol {s : State} (h : presentSyms s.freq = []) :
    buildUnit s = { s with
      codeV := false, tree := .empty, root := 0, nodeCnt := 0, active := [], nalloc := (buildUnit s).nalloc,
      regA := (buildUnit s).regA, regB := (buildUnit s).regB } := by
  obtain ⟨htree, hroot, hcnt, hnode, hactive⟩ := buildUnit_empty h
  calc buildUnit s
    _ = { s with
          codeV := false, tree := (buildUnit s).tree, root := (buildUnit s).root, nodeCnt := (buildUnit s).nodeCnt,
          node := (buildUnit s).node, active := (buildUnit s).active, nalloc := (buildUnit s).nalloc,
          regA := (buildUnit s).regA, regB := (buildUnit s).regB } := buildUnit_frame s
    _ = _ := by rw [htree, hroot, hcnt, hnode, hactive]

/-- Settles O26: an all-zero table has no present symbol, and BUILD behind the gate then makes the empty tree. -/
theorem buildOfNoSymbolIsTheEmptyTree : Obligations.BuildOfNoSymbolIsTheEmptyTree := by
  intro s herr hzero
  have hnone : presentSyms s.freq = [] := presentSyms_eq_nil.2 hzero
  exact ⟨_, _, _, (exec_build herr).trans (congrArg _ (buildUnit_eq_of_noSymbol hnone))⟩

end Sys2Proof.Machine
end

section
/-! GENTAB of the absent tree, and ENCODE with its table (42_code_table_generator.md R153). -/

namespace Sys2Proof.Machine

/-- The state after GENTAB of the absent tree: the empty table is the current one (42_code_table_generator.md R153). -/
def State.emptyTabled (s : State) : State :=
  { s with codeV := true, code := clearedCode, path := [], stack := [] }

/-- GENTAB of the absent tree raises no fault and walks no arena (42_code_table_generator.md R153). -/
theorem gentabUnit_of_empty {s : State} (h : s.tree = .empty) : gentabUnit s = .next s.emptyTabled := by
  have htab : s.tableOfTree = some (clearedCode, []) := by rw [State.tableOfTree, h]
  rcases gentabUnit_cases s with ⟨hn, -⟩ | ⟨hv, -⟩ | ⟨-, code, p, ht, hg⟩ | ⟨hv, -⟩
  · simp [h] at hn
  · simp [h] at hv
  · rw [htab] at ht
    cases ht
    exact hg
  · simp [h] at hv

/-- Every entry of the empty table is the absent one (42_code_table_generator.md R153, 30_encoding.md R98). -/
theorem cellAt_emptyTabled (s : State) {k : Nat} (hk : k < 257) :
    cellAt s.emptyTabled.code k = some CodeEntry.absent :=
  (cellAt_clearedCode k).trans (if_pos hk)

theorem codeAt_emptyTabled (s : State) {k : Nat} (hk : k < 257) : s.emptyTabled.codeAt k = CodeEntry.absent := by
  rw [State.codeAt, cellAt_emptyTabled s hk, Option.getD_some]

theorem codeOf_emptyTabled (s : State) {k : Nat} (hk : k < 257) : s.emptyTabled.codeOf k = none := by
  rw [State.codeOf, codeAt_emptyTabled s hk]
  rfl

theorem look_emptyTabled (s : State) (c : Byte) : s.emptyTabled.look c = CodeEntry.absent :=
  codeAt_emptyTabled s (by have := c.isLt; omega)

theorem inputSeq_of_len_zero {s : State} (h : s.len = 0#32) : s.inputSeq = [] :=
  List.eq_nil_of_length_eq_zero (by rw [length_inputSeq, h]; rfl)

/-- ENCODE of the empty input looks up no symbol, so any current table will do (43_encoder.md R165, R171). -/
theorem encodeUnit_of_len_zero {s : State} (hc : s.codeV = true) (h : s.len = 0#32) :
    encodeUnit s = s.finishEncode (encRegsAt s [] 0 .none) := by
  have hin := inputSeq_of_len_zero h
  rw [encodeUnit_ok hc (by simp [h]) (by simp [hin]) (by simp [hin, concatCodes]), hin, h]
  rfl

/-- ENCODE of a non-empty input within MAX_LEN under a table without any code: the first symbol is the LOOKUP fault,
with nothing written (43_encoder.md R168, R172). -/
theorem encodeUnit_of_no_code {s : State} (hc : s.codeV = true) (hpos : 0 < s.len.toNat)
    (hl : s.len.toNat ≤ s.cfg.maxLen) (hno : ∀ c, (s.look c).valid = false) :
    encodeUnit s = (s.withEncRegs (encRegsAt s [] 0 .lookup)).raiseFault (some .encode) .lookup 0#32 := by
  rcases encodeUnit_cases s with ⟨h, -⟩ | ⟨-, h, -⟩ | ⟨-, -, hval, -⟩ | ⟨-, -, done, c, rest, f, -, hval, -, hf, he⟩
  · simp [hc] at h
  · omega
  · obtain ⟨c, hmem⟩ := List.exists_mem_of_length_pos (l := s.inputSeq) (by rwa [length_inputSeq])
    exact absurd (hval c hmem) (by simp [hno])
  · have hdone : done = [] := List.eq_nil_iff_forall_not_mem.2 fun d hd => by simpa [hno] using hval d hd
    have hlookup : f = .lookup := by simpa [hno] using hf
    rw [he, hdone, hlookup]
    rfl

/-- Settles O36: GENTAB records the cleared table, in which no symbol has a code; ENCODE of no symbol then asks for
none, and ENCODE of a first symbol finds none. -/
theorem gentabOfTheEmptyTree : Obligations.GentabOfTheEmptyTree := by
  intro s herr htree
  have hgentab : exec .gentab s = .next s.emptyTabled := (exec_gentab herr).trans (gentabUnit_of_empty htree)
  have hencode : exec .encode s.emptyTabled = .next (encodeUnit s.emptyTabled) := exec_encode herr
  have hno : ∀ c, (s.emptyTabled.look c).valid = false := fun c => by rw [look_emptyTabled]; rfl
  refine ⟨clearedCode, [], [], hgentab, fun k hk => ⟨cellAt_emptyTabled s hk, codeOf_emptyTabled s hk⟩, ?_, ?_⟩
  · intro hlen
    have hunit := encodeUnit_of_len_zero (s := s.emptyTabled) rfl hlen
    exact ⟨_, hencode.trans (congrArg _ hunit), herr, rfl⟩
  · intro hpos hlen
    have hunit := encodeUnit_of_no_code (s := s.emptyTabled) rfl hpos hlen hno
    exact ⟨_, hencode.trans (congrArg _ hunit), rfl, rfl, rfl⟩

end Sys2Proof.Machine
end

section
/-! ENCODE of the empty input: the frame of its next state (43_encoder.md R171). -/

namespace Sys2Proof.Machine

/-- No padding step after an empty bit-string, in either format (43_encoder.md R170). -/
theorem padCount_zero (fmt : Format) : padCount fmt 0 = 0 := by
  cases fmt <;> rfl

/-- The end of an ENCODE that has written no element writes no byte of BITS and sets BITLEN to 0; of the rest only
the cursors may differ (43_encoder.md R170, R171). -/
theorem finishEncode_of_no_element (s : State) (n : Nat) :
    s.finishEncode (encRegsAt s [] n .none) =
      { s with bitLen := 0#32, symPos := BitVec.ofNat 32 n, pos := 0#32 } := by
  have hpad : padCount s.fmt (encRegsAt s [] n .none).pos = 0 := padCount_zero s.fmt
  rw [State.finishEncode, hpad]
  rfl

/-- Settles O40: with no input the loop looks up no symbol and the padding has no element to write. -/
theorem encodeOfEmptyInput : Obligations.EncodeOfEmptyInput := by
  intro s herr hcode hlen
  have hunit : encodeUnit s = { s with bitLen := 0#32, symPos := 0#32, pos := 0#32 } :=
    (encodeUnit_of_len_zero hcode hlen).trans (finishEncode_of_no_element s 0)
  exact ⟨_, _, (exec_encode herr).trans (congrArg _ hunit)⟩

end Sys2Proof.Machine
end

section
/-! DECODE ended before its walk, and DECOMPRESS as DECODE (44_decoder.md R183, R184, R195). -/

namespace Sys2Proof.Machine

/-! ### Phase 1 on the machine's elements (44_decoder.md R182) -/

theorem firstInvalid_elems_eq_some {s : State} {i : Nat} (hi : i < s.bitLen.toNat) (h : s.elem i = .invalid)
    (hlt : ∀ j, j < i → s.elem j ≠ .invalid) : firstInvalid s.elems = some i := by
  have hget : ∀ j, (hj : j < s.elems.length) → s.elems[j] = s.elem j := fun j hj => by simp [State.elems]
  have hlen : i < s.elems.length := by rwa [length_elems]
  exact firstInvalid_eq_some hlen ((hget i hlen).trans h) fun j hj => by
    rw [hget j (hj.trans hlen)]
    exact hlt j hj

theorem firstInvalid_elems_eq_none {s : State} (h : ∀ j, j < s.bitLen.toNat → s.elem j ≠ .invalid) :
    firstInvalid s.elems = none := by
  unfold firstInvalid
  rw [List.findIdx?_eq_none_iff]
  intro e he
  obtain ⟨j, hj, rfl⟩ := List.mem_map.1 he
  simpa using h j (List.mem_range.1 hj)

/-! ### DECODE behind the gate, where it does not walk -/

/-- A fault raised from the initialised state: OUTLEN is 0 there whether or not fault entry voids it (44_decoder.md
R181, R191). -/
theorem raiseFault_startDecode (s : State) (cmd : Option Instr) (f : ErrCode) (info : Word) :
    s.startDecode.raiseFault cmd f info =
      { s with outLen := 0#32, dstate := .atRoot, cur := s.root, bitPos := 0#32, err := true, errCode := f,
               errInfo := info } := by
  unfold State.raiseFault
  rw [State.startDecode_outLen, ite_self]
  rfl

theorem decodeUnit_of_no_tree {s : State} (cmd : Instr) (htree : s.tree = .none) :
    decodeUnit cmd s = s.raiseFault (some cmd) .sequence ((opcode cmd).zeroExtend 32) := by
  unfold decodeUnit
  rw [if_pos htree]

theorem decodeUnit_of_invalid {s : State} {cmd : Instr} {i : Nat} (htree : s.tree ≠ .none)
    (hbl : s.bitLen.toNat ≤ s.cfg.maxBits) (hinv : firstInvalid s.elems = some i) :
    decodeUnit cmd s = s.startDecode.raiseFault (some cmd) .invalidBit (BitVec.ofNat 32 i) := by
  rcases decodeUnit_cases cmd s with ⟨h, -⟩ | ⟨-, h, -⟩ | ⟨-, -, j, h, e⟩ | ⟨-, -, h, -⟩ | ⟨-, -, h, -⟩
  · exact absurd h htree
  · omega
  · rwa [Option.some.inj (hinv.symm.trans h)]
  · simp [hinv] at h
  · simp [hinv] at h

theorem decodeUnit_of_absent_tree {s : State} {cmd : Instr} (htree : s.tree = .empty)
    (hbl : s.bitLen.toNat ≤ s.cfg.maxBits) (hinv : firstInvalid s.elems = none) :
    decodeUnit cmd s =
      if s.bitLen = 0#32 then s.startDecode else s.startDecode.raiseFault (some cmd) .mismatch 0#32 := by
  rcases decodeUnit_cases cmd s with ⟨h, -⟩ | ⟨-, h, -⟩ | ⟨-, -, i, h, -⟩ | ⟨-, -, -, e⟩ | ⟨h, -⟩
  · simp [htree] at h
  · omega
  · simp [hinv] at h
  · exact e
  · simp [htree] at h

/-! ### DECOMPRESS against DECODE -/

/-- Fault entry does not tell DECOMPRESS from DECODE (60_exceptions.md R232). -/
theorem raiseFault_decompress (s : State) (f : ErrCode) (info : Word) :
    s.raiseFault (some .decompress) f info = s.raiseFault (some .decode) f info := rfl

/-- Where a tree is recorded no SEQUENCE fault is raised, and only that one takes the opcode (44_decoder.md R195). -/
theorem decodeUnit_decompress {s : State} (htree : s.tree ≠ .none) :
    decodeUnit .decompress s = decodeUnit .decode s := by
  unfold decodeUnit State.finishDecode
  simp only [if_neg htree, raiseFault_decompress]

/-! ### The obligations -/

/-- Settles O42: under a latched fault both commands are gated; otherwise only the SEQUENCE fault takes the opcode. -/
theorem decompressIsDecode : Obligations.DecompressIsDecode := by
  refine ⟨rfl, fun s => ⟨fun h => ?_, fun htree herr => ?_⟩⟩
  · cases herr : s.err with
    | true =>
      exact (exec_of_err herr (by decide) (by decide)).trans (exec_of_err herr (by decide) (by decide)).symm
    | false =>
      have htree : s.tree ≠ .none := h.resolve_right (by simp [herr])
      rw [exec_decompress herr, exec_decode herr, decodeUnit_decompress htree]
  · refine ⟨_, (exec_decode herr).trans (congrArg _ (decodeUnit_of_no_tree .decode htree)), rfl, ?_⟩
    rw [exec_decompress herr, decodeUnit_of_no_tree .decompress htree, raiseFault_decompress]
    rfl

/-- Settles O46: phase 1 finds element `i`, and the fault is raised from the initialised state. -/
theorem decodeOfAnInvalidElement : Obligations.DecodeOfAnInvalidElement := by
  intro s i herr htree hbl hi hinv hlt c hc
  have hfirst : firstInvalid s.elems = some i := firstInvalid_elems_eq_some hi hinv hlt
  have hunit := (decodeUnit_of_invalid (cmd := c) htree hbl hfirst).trans (raiseFault_startDecode ..)
  exact ⟨_, _, (exec_decoder herr hc).trans (congrArg _ hunit)⟩

/-- Settles O47: with no element phase 1 finds nothing and no fault is raised; with valid elements only, the first of
them has no tree to walk. -/
theorem decodeOfTheAbsentTree : Obligations.DecodeOfTheAbsentTree := by
  intro s herr htree c hc
  refine ⟨fun hzero => ?_, fun hpos hbl hvalid => ?_⟩
  · have hlen : s.bitLen.toNat = 0 := by rw [hzero]; rfl
    have hnone : firstInvalid s.elems = none := firstInvalid_elems_eq_none fun j hj => by omega
    have hunit := decodeUnit_of_absent_tree (cmd := c) htree (by omega) hnone
    rw [if_pos hzero] at hunit
    exact ⟨_, _, (exec_decoder herr hc).trans (congrArg _ hunit)⟩
  · have hne : s.bitLen ≠ 0#32 := fun h => by simp [h] at hpos
    have hunit := decodeUnit_of_absent_tree (cmd := c) htree hbl (firstInvalid_elems_eq_none hvalid)
    rw [if_neg hne, raiseFault_startDecode] at hunit
    exact ⟨_, _, (exec_decoder herr hc).trans (congrArg _ hunit)⟩

end Sys2Proof.Machine
end

section
/-! NOP, ERRACK and CLEAR, the commands without a gate (45_compound_and_control.md R205, R209, R210). -/

namespace Sys2Proof.Machine

/-- A latch that keeps 10_state.md R27 holds with ERR = 0 the very values that ERRACK writes
(45_compound_and_control.md R209). -/
theorem ackFault_of_no_err {s : State} (hlatch : LatchOk s) (herr : s.err = false) : s.ackFault = s := by
  obtain ⟨hcode, hinfo⟩ := hlatch.1 herr
  rw [State.ackFault, ← herr, ← hcode, ← hinfo]

/-- Settles O19: NOP has no gate and no write. -/
theorem nopChangesNothing : Obligations.NopChangesNothing :=
  ⟨by decide, fun _ => exec_nop⟩

/-- Settles O20: ERRACK's writes are the latch's three fields, which with ERR = 0 hold those values already. -/
theorem errackClearsTheLatchOnly : Obligations.ErrackClearsTheLatchOnly := by
  refine ⟨by decide, fun s => ⟨exec_errack, fun hlatch herr => ?_⟩⟩
  rw [exec_errack, ackFault_of_no_err hlatch herr]

/-- Settles O21: CLEAR has no gate, and the FREQ it writes is the zero table. -/
theorem clearIsASoftReset : Obligations.ClearIsASoftReset :=
  ⟨by decide, fun _ => ⟨zeroFreq, exec_clear, fun i _ => freqAt_zeroFreq i⟩⟩

end Sys2Proof.Machine
end

section
/-! The faults raised before a command's first write: SEQUENCE and RANGE (60_exceptions.md R226, R228). -/

namespace Sys2Proof.Machine

/-! ### Fault entry with one of the two -/

/-- Fault entry that does not void OUTLEN changes only the latch (60_exceptions.md R232). -/
theorem raiseFault_of_not_voidsOutput {s : State} {cmd : Option Instr} {f : ErrCode} {info : Word}
    (h : voidsOutput cmd f = false) :
    s.raiseFault cmd f info = { s with err := true, errCode := f, errInfo := info } := by
  rw [State.raiseFault, h]
  rfl

/-- No command's SEQUENCE fault voids OUTLEN, not even the decoder's (60_exceptions.md R232). -/
theorem raiseFault_sequence (s : State) (cmd : Option Instr) (info : Word) :
    s.raiseFault cmd .sequence info = { s with err := true, errCode := .sequence, errInfo := info } :=
  raiseFault_of_not_voidsOutput (Bool.and_false _)

/-- No command's RANGE fault voids OUTLEN, not even the decoder's (60_exceptions.md R232). -/
theorem raiseFault_range (s : State) (cmd : Option Instr) (info : Word) :
    s.raiseFault cmd .range info = { s with err := true, errCode := .range, errInfo := info } :=
  raiseFault_of_not_voidsOutput (Bool.and_false _)

/-! ### A missing input -/

theorem gentabUnit_of_no_tree {s : State} (htree : s.tree = .none) :
    gentabUnit s = .next (s.raiseFault (some .gentab) .sequence ((opcode .gentab).zeroExtend 32)) :=
  if_pos htree

theorem encodeUnit_of_no_table {s : State} (hcode : s.codeV = false) :
    encodeUnit s = s.raiseFault (some .encode) .sequence ((opcode .encode).zeroExtend 32) :=
  if_pos hcode

/-- The SEQUENCE fault of GENTAB and of the decoder's commands, which ask for a tree (60_exceptions.md R226). -/
theorem exec_of_no_tree {i : Instr} {s : State} (herr : s.err = false) (htree : s.tree = .none)
    (hi : i ∈ [Instr.gentab, .decode, .decompress]) :
    exec i s = .next (s.raiseFault (some i) .sequence ((opcode i).zeroExtend 32)) := by
  rcases List.mem_cons.1 hi with rfl | hdec
  · exact (exec_gentab herr).trans (gentabUnit_of_no_tree htree)
  · exact (exec_decoder herr hdec).trans (congrArg _ (decodeUnit_of_no_tree i htree))

/-! ### A length beyond its memory -/

theorem countUnit_of_len_gt {s : State} (hlen : s.cfg.maxLen < s.len.toNat) :
    countUnit s = s.raiseFault (some .count) .range s.len :=
  if_pos hlen

/-- SEQUENCE comes first in ENCODE, so its RANGE fault asks for a current table (60_exceptions.md R235). -/
theorem encodeUnit_of_len_gt {s : State} (hcode : s.codeV = true) (hlen : s.cfg.maxLen < s.len.toNat) :
    encodeUnit s = s.raiseFault (some .encode) .range s.len := by
  unfold encodeUnit
  rw [if_neg (by simp [hcode]), if_pos hlen]

/-- COMPRESS ends with the fault of its COUNT (45_compound_and_control.md R207). -/
theorem compressUnit_of_len_gt {s : State} (herr : s.err = false) (hlen : s.cfg.maxLen < s.len.toNat) :
    compressUnit s = .next (s.raiseFault (some .count) .range s.len) := by
  rcases compressUnit_cases herr with ⟨-, e⟩ | ⟨hle, -⟩
  · exact e
  · omega

/-- SEQUENCE comes first in DECODE, so its RANGE fault asks for a tree (60_exceptions.md R235). -/
theorem decodeUnit_of_bitLen_gt {s : State} (cmd : Instr) (htree : s.tree ≠ .none)
    (hbl : s.cfg.maxBits < s.bitLen.toNat) :
    decodeUnit cmd s = s.raiseFault (some cmd) .range s.bitLen := by
  unfold decodeUnit
  rw [if_neg htree, if_pos hbl]

/-! ### The obligations -/

/-- Settles O22: the commands that ask for a tree, and ENCODE, which asks for a table, raise SEQUENCE from the state
they start in. -/
theorem sequenceFaultChangesOnlyTheLatch : Obligations.SequenceFaultChangesOnlyTheLatch := by
  refine fun s herr => ⟨fun htree i hi => ?_, fun hcode => ?_⟩
  · rw [exec_of_no_tree herr htree hi, raiseFault_sequence]
  · rw [exec_encode herr, encodeUnit_of_no_table hcode, raiseFault_sequence]
    rfl

/-- Settles O23: COUNT, ENCODE, COMPRESS (by its COUNT) and the decoder's commands compare the length before their
first write. -/
theorem rangeFaultChangesOnlyTheLatch : Obligations.RangeFaultChangesOnlyTheLatch := by
  refine fun s herr => ⟨fun hlen i hi hcode => ?_, fun hbl htree i hi => ?_⟩
  · rcases List.mem_cons.1 hi with rfl | hi
    · rw [exec_count herr, countUnit_of_len_gt hlen, raiseFault_range]
    · rcases List.mem_pair.1 hi with rfl | rfl
      · rw [exec_encode herr, encodeUnit_of_len_gt (hcode rfl) hlen, raiseFault_range]
      · rw [exec_compress herr, compressUnit_of_len_gt herr hlen, raiseFault_range]
  · rw [exec_decoder herr hi, decodeUnit_of_bitLen_gt i htree hbl, raiseFault_range]

end Sys2Proof.Machine
end

section
/-! The invariant along a run: reset meets it, every step keeps it, and every step from it ends (10_state.md R51,
70_reset_and_hazards.md R250, R262). -/

namespace Sys2Proof.Machine

/-- Settles O59: whatever the step does, a transaction taken, a write of data, a command, a latched illegal word or a
reset, one of the laws of the invariant covers it. -/
theorem stepKeepsTheInvariant : Obligations.StepKeepsTheInvariant := by
  intro s t h e
  rcases step_cases s with ⟨-, e'⟩ | ⟨rest, e'⟩ | ⟨rest, r, e' | ⟨l, v, e'⟩ | ⟨i, e'⟩ | ⟨-, w, e'⟩⟩ <;> rw [e'] at e
  · cases e
    exact h
  · cases e
    exact inv_afterReset h.cfgOk _ _
  · cases e
    exact inv_taken h rest r
  · cases e
    exact inv_putLocation (inv_taken h rest r) l v
  · exact inv_exec (inv_taken h rest r) e
  · cases e
    exact inv_raiseFault (inv_taken h rest r) _ (by decide) _

/-- Settles O60: of all that a step does only a command could stop, and from the invariant every command ends. -/
theorem stepAlwaysCompletes : Obligations.StepAlwaysCompletes := by
  intro s h
  rcases step_cases s with ⟨-, e⟩ | ⟨rest, e⟩ | ⟨rest, r, e | ⟨l, v, e⟩ | ⟨i, e⟩ | ⟨-, w, e⟩⟩
  · exact ⟨_, e⟩
  · exact ⟨_, e⟩
  · exact ⟨_, e⟩
  · exact ⟨_, e⟩
  · obtain ⟨t, ht⟩ := exec_completes (inv_taken h rest r) i
    exact ⟨t, e.trans ht⟩
  · exact ⟨_, e⟩

/-- The defaults are a legal parameter set (00_scope.md R7). -/
theorem Params.default_wf : Params.default.wf = true := by decide

/-- Settles O58: the default parameters are well formed, and reset meets the invariant for all that are. -/
theorem resetMeetsTheInvariant : Obligations.ResetMeetsTheInvariant :=
  ⟨inv_afterReset Params.default_wf 0 [], fun _ epoch pending hc => inv_afterReset hc epoch pending⟩

end Sys2Proof.Machine
end

section
/-! The decoder of command words against the encoder, and the words it rejects (30_encoding.md R91 to R93). -/

namespace Sys2Proof.Machine

/-! ### The decoder -/

/-- Every command meets the round trip of its word. -/
theorem roundTrip (i : Instr) : Laws.RoundTrip.Statement i := by
  cases i with
  | nop => exact Laws.RoundTrip.nop
  | count => exact Laws.RoundTrip.count
  | build => exact Laws.RoundTrip.build
  | gentab => exact Laws.RoundTrip.gentab
  | encode => exact Laws.RoundTrip.encode
  | decode => exact Laws.RoundTrip.decode
  | compress => exact Laws.RoundTrip.compress
  | decompress => exact Laws.RoundTrip.decompress
  | clear => exact Laws.RoundTrip.clear
  | errack => exact Laws.RoundTrip.errack

theorem decode_encode (i : Instr) : decode (encode i) = .command i := by
  obtain ⟨-, -, -, h, -⟩ := roundTrip i
  exact h

/-- The decoder reads a command from its own word only (30_encoding.md R92). -/
theorem decode_eq_command_iff {w : Word} {i : Instr} : decode w = .command i ↔ w = encode i := by
  refine ⟨fun h => ?_, fun h => h ▸ decode_encode i⟩
  unfold decode at h
  split at h
  · rename_i hz
    rw [encode, ← opcode_of_decodeOpc h, zeroExtend_opcField hz]
  · cases h

theorem toNat_encode (i : Instr) : (encode i).toNat = (opcode i).toNat :=
  BitVec.toNat_setWidth_of_le (by decide)

/-- The opcode table's numbering of a word is the word (log 16). -/
theorem tableWord_toNat (w : Word) : tableWord 32 w.toNat = w := by
  rw [tableWord, Nat.mod_eq_of_lt w.isLt, BitVec.ofNat_toNat, BitVec.setWidth_eq]

theorem decodeTableWord_toNat_iff {w : Word} {i : Instr} :
    decodeTableWord 32 w.toNat = some i ↔ decode w = .command i := by
  unfold decodeTableWord
  rw [if_pos le_rfl, tableWord_toNat]
  cases decode w <;> simp

/-- Settles O2: the decoder reads `i` from the word of `i` and from no other, and the table's number of a word is the
word. -/
theorem decodeInvertsEncode : Obligations.DecodeInvertsEncode := fun _ i =>
  ⟨decode_eq_command_iff, toNat_encode i, decodeTableWord_toNat_iff.trans decode_eq_command_iff⟩

/-! ### The words it rejects -/

/-- The opcode map is defined on 0x00 to 0x09 and on nothing else (30_encoding.md R92, R93). -/
theorem decodeOpc_cases (b : Byte) :
    (b.toNat ≤ 9 ∧ ∃ i, decodeOpc b = .command i) ∨ (9 < b.toNat ∧ decodeOpc b = .illegal .opcodeUndefined) := by
  unfold decodeOpc
  split
  case h_11 =>
    have hlt : 9 < b.toNat := by
      simp only [imp_false] at *
      omega
    exact .inr ⟨hlt, rfl⟩
  all_goals exact .inl ⟨by omega, _, rfl⟩

/-- What the decoder makes of a word, by its two fields (30_encoding.md R91, R93). -/
theorem decode_cases (w : Word) :
    (zeroField w = 0#24 ∧ (opcField w).toNat ≤ 9 ∧ ∃ i, decode w = .command i) ∨
    (zeroField w = 0#24 ∧ 9 < (opcField w).toNat ∧ decode w = .illegal .opcodeUndefined) ∨
    (zeroField w ≠ 0#24 ∧ decode w = .illegal .zeroFieldSet) := by
  unfold decode
  by_cases hz : zeroField w = 0#24
  · rw [if_pos hz]
    rcases decodeOpc_cases (opcField w) with ⟨hle, h⟩ | ⟨hlt, h⟩
    · exact .inl ⟨hz, hle, h⟩
    · exact .inr (.inl ⟨hz, hlt, h⟩)
  · rw [if_neg hz]
    exact .inr (.inr ⟨hz, rfl⟩)

theorem commandWordLegal_iff (w : Word) :
    commandWordLegal w = true ↔ zeroField w = 0#24 ∧ (opcField w).toNat ≤ 9 := by
  unfold commandWordLegal zeroField opcField
  rw [Bool.and_eq_true, beq_iff_eq, decide_eq_true_eq]

/-- Settles O3: each of the three readings of a word goes with its own condition on the two fields. -/
theorem decodeRejectsEveryOtherWord : Obligations.DecodeRejectsEveryOtherWord := by
  intro w
  show (_ ↔ _) ∧ (_ ↔ zeroField w ≠ 0#24) ∧ (_ ↔ zeroField w = 0#24 ∧ 9 < (opcField w).toNat)
  rw [commandWordLegal_iff]
  rcases decode_cases w with ⟨hz, hle, i, h⟩ | ⟨hz, hlt, h⟩ | ⟨hz, h⟩
  · simp [h, hz, hle]
  · simp [h, hz, hlt]
  · simp [h, hz]

/-- Settles O1: each of the ten words is the word of its command. -/
theorem tenCommandWordsDecode : Obligations.TenCommandWordsDecode :=
  ⟨decode_encode .nop, decode_encode .count, decode_encode .build, decode_encode .gentab, decode_encode .encode,
    decode_encode .decode, decode_encode .compress, decode_encode .decompress, decode_encode .clear,
    decode_encode .errack⟩

end Sys2Proof.Machine
end

section
/-! A step, transaction by transaction (20_memory.md R72), and the gate (60_exceptions.md R234). -/

namespace Sys2Proof.Machine

variable {s : State} {rest : List HostOp}

/-! ### One step for each kind of transaction -/

theorem step_of_idle (h : s.pending = []) : step s = .next s := by
  rw [step, nextTransaction, h]

theorem step_of_pending {op : HostOp} (h : s.pending = op :: rest) :
    step s = perform op { s with pending := rest } := by
  rw [step, nextTransaction, h]

theorem step_of_read {a : Nat} (h : s.pending = .read a :: rest) :
    step s = .next { s with pending := rest, response := some (s.busRead a) } :=
  step_of_pending h

theorem step_of_reset (h : s.pending = .reset :: rest) :
    step s = .next (State.afterReset s.cfg (s.epoch + 1) rest) :=
  step_of_pending h

/-- A write to CMD issues its word, with the write off the queue and answered OK (10_state.md R25, 20_memory.md R69). -/
theorem step_of_cmd_write {w : Word} (h : s.pending = .write 0 w :: rest) :
    step s = issueCommand w (s.taken rest (some .writeOk)) :=
  (step_of_pending h).trans (performWrite_cmd w _)

theorem issueCommand_of_decode {w : Word} {i : Instr} (h : decode w = .command i) (s : State) :
    issueCommand w s = exec i s := by
  rw [issueCommand, h]

/-- A word that is no command reaches no `exec` (30_encoding.md R93). -/
theorem issueCommand_of_no_command {w : Word} (h : ∀ i, w ≠ encode i) (s : State) :
    issueCommand w s = .next (illegalCommand w s) := by
  unfold issueCommand
  cases hd : decode w with
  | command i => exact absurd (decode_eq_command_iff.1 hd) (h i)
  | illegal why => rfl

theorem illegalCommand_of_no_err {w : Word} (h : s.err = false) :
    illegalCommand w s = s.raiseFault none .illegalCmd w :=
  if_neg (by simp [h])

/-- Settles O4: both states have the CMD write as their oldest transaction, and the word decodes. -/
theorem stepRunsTheDecodedCommand : Obligations.StepRunsTheDecodedCommand := by
  intro s w i hd _
  have hrun : ∀ {u : State} {rest}, u.pending = .write 0 w :: rest →
      step u = exec i (u.taken rest (some .writeOk)) := fun h =>
    (step_of_cmd_write h).trans (issueCommand_of_decode hd _)
  refine ⟨fun rest h => hrun h, ?_⟩
  have hnext : (s.withFetchWord 32 w.toNat).pending = .write 0 w :: s.pending := by
    rw [State.withFetchWord_pending, commandWrite, tableWord_toNat]
    rfl
  exact hrun hnext

/-- Settles O6: the word is issued, decodes to no command, and is latched or ignored by ERR. -/
theorem illegalWordLatchesOrIsIgnored : Obligations.IllegalWordLatchesOrIsIgnored := by
  intro s w rest hp hw
  have hstep := (step_of_cmd_write hp).trans (issueCommand_of_no_command hw _)
  exact ⟨fun he => hstep.trans (congrArg _ (illegalCommand_of_no_err he)),
    fun he => hstep.trans (congrArg _ (if_pos he))⟩

/-! ### The gate -/

/-- Under a latched fault a word that is neither CLEAR's nor ERRACK's has no effect (60_exceptions.md R234). -/
theorem issueCommand_of_err {w : Word} (he : s.err = true) (hc : w ≠ encode .clear) (ha : w ≠ encode .errack) :
    issueCommand w s = .next s := by
  rcases issueCommand_cases w s with ⟨i, hd, e⟩ | ⟨h, -⟩ | ⟨-, e⟩
  · have hw := decode_eq_command_iff.1 hd
    exact e.trans (exec_of_err he (fun h => hc (h ▸ hw)) fun h => ha (h ▸ hw))
  · simp [he] at h
  · exact e

/-- Settles O7: the gate stops the commands, a word that is no command is ignored, and the bus has no gate. -/
theorem gateIgnoresCommandsUnderAFault : Obligations.GateIgnoresCommandsUnderAFault := by
  intro s he
  refine ⟨fun i hc ha => exec_of_err he hc ha, fun w rest hp hc ha => ?_, fun a rest hp => step_of_read hp,
    fun a v ha => performWrite_data fun h => ha (locate_cmd_iff.1 h)⟩
  exact (step_of_cmd_write hp).trans (issueCommand_of_err he hc ha)

/-! ### Reset as a step (70_reset_and_hazards.md R250) -/

/-- The registers and FREQ after reset, as the host reads them (10_state.md R51). -/
theorem afterReset_registers (cfg : Params) (epoch : Nat) (pending : List HostOp) :
    let t := State.afterReset cfg epoch pending
    t.statusWord = 0#32 ∧ t.ctrlWord = 0#32 ∧ t.len = 0#32 ∧ t.bitLen = 0#32 ∧ t.outLen = 0#32 ∧ t.errInfo = 0#32 ∧
      t.root.val = 0 ∧ t.nodeCnt.val = 0 ∧ ∀ i, i < 256 → freqAt t.freq i = 0#32 :=
  have hstatus : (State.afterReset cfg epoch pending).statusWord = 0#32 := by
    show 0#23 ++ DecState.atRoot.num ++ BitVec.ofBool false ++ TreeState.none.num ++ ErrCode.none.num ++
      BitVec.ofBool false = 0#32
    decide
  have hctrl : (State.afterReset cfg epoch pending).ctrlWord = 0#32 := by
    show 0#31 ++ Format.char.num = 0#32
    decide
  ⟨hstatus, hctrl, rfl, rfl, rfl, rfl, rfl, rfl, fun i _ => freqAt_zeroFreq i⟩

/-- Settles O5: with an empty queue a step is idle, and each kind of oldest transaction has its own step. -/
theorem stepPerformsTheOldestTransaction : Obligations.StepPerformsTheOldestTransaction := fun _ =>
  ⟨step_of_idle, fun _ _ => step_of_read, fun _ _ _ => step_of_pending, fun _ h =>
    ⟨_, step_of_reset h, rfl, rfl, rfl, rfl, afterReset_registers _ _ _⟩⟩

/-- Settles O18: after the reset event the registers have their reset values, and the memories list nothing. -/
theorem resetEventRestoresTheResetValues : Obligations.ResetEventRestoresTheResetValues := by
  intro s rest hp
  obtain ⟨h1, h2, h3, h4, h5, h6, h7, h8, h9⟩ := afterReset_registers s.cfg (s.epoch + 1) rest
  exact ⟨_, step_of_reset hp, rfl, rfl, rfl, h1, h2, h3, h4, h5, h6, h7, h8, h9, fun _ => ⟨rfl, rfl, rfl⟩,
    fun _ _ => ⟨rfl, rfl⟩⟩

/-- Settles O17: the first reset is the reset of epoch 0 with the default parameters. -/
theorem resetValues : Obligations.ResetValues := by
  obtain ⟨h1, h2, h3, h4, h5, h6, h7, h8, h9⟩ := afterReset_registers Params.default 0 []
  exact ⟨rfl, h1, h2, h3, h4, h5, h6, h7, h8, rfl, rfl, h9⟩

end Sys2Proof.Machine
end

section
/-! The host's bus: ERROR answers, the registers, and the windows of FREQ, NODE, CODE, SYM, OUT and BITS
(20_memory.md R62 to R67). -/

namespace Sys2Proof.Machine

variable {s : State} {a : Nat} {v : Word}

/-! ### A transaction at a known location -/

/-- A write at a known location other than CMD (20_memory.md R63). -/
theorem performWrite_of_locate {l : Location} (h : locate s.cfg a = l) (hc : l ≠ .reg .cmd) :
    performWrite a v s = .next ((s.respond (writeResponse l)).putLocation l v) := by
  subst h
  exact performWrite_data hc

theorem busRead_of_reg {r : Reg} (h : locate s.cfg a = .reg r) : s.busRead a = .readOk (s.regWord r) := by
  rw [State.busRead, h]

/-- Nothing stands at a misaligned address nor outside the seven windows (20_memory.md R65, R66). -/
theorem locate_eq_unmapped {p : Params} (h : a % 4 ≠ 0 ∨ ∀ w ∈ p.windows, ¬ (w.1 ≤ a ∧ a < w.1 + w.2)) :
    locate p a = .unmapped := by
  by_cases ha : a % 4 = 0
  · exact (locate_unmapped_iff ha).2 (h.resolve_left (not_not.2 ha))
  · exact locate_misaligned ha

@[simp] theorem putLocation_response (s : State) (l : Location) (v : Word) : (s.putLocation l v).response = s.response := by
  rw [putLocation_frame]

/-- Settles O8: the first case is the unmapped location; in the second the address leads to some location. -/
theorem busErrorExactlyWhenMisalignedOrUnmapped : Obligations.BusErrorExactlyWhenMisalignedOrUnmapped := by
  intro s a v
  refine ⟨fun h => ?_, fun ha w hw hlo hhi => ?_⟩
  · have hl : locate s.cfg a = .unmapped := locate_eq_unmapped h
    exact ⟨by rw [State.busRead, hl], performWrite_of_locate hl (by decide)⟩
  · have hl : locate s.cfg a ≠ .unmapped := fun hu => (locate_unmapped_iff ha).1 hu w hw ⟨hlo, hhi⟩
    refine ⟨?_, fun h0 => ⟨_, performWrite_data fun h => h0 (locate_cmd_iff.1 h), ?_⟩⟩
    · rcases busRead_cases s a with ⟨hu, -⟩ | ⟨-, hd⟩
      · exact absurd hu hl
      · exact hd
    · rw [putLocation_response, State.respond_response, writeResponse_ok hl]

/-! ### The registers (10_state.md R24 to R39) -/

theorem ctrlWord_eq (s : State) : s.ctrlWord = if s.fmt = .packed then 1#32 else 0#32 := by
  unfold State.ctrlWord
  cases s.fmt <;> decide

theorem statusWord_err (s : State) : s.statusWord.getLsbD 0 = s.err := by
  simp only [State.statusWord, BitVec.getLsbD_append]
  simp

theorem statusWord_errCode (s : State) : s.statusWord.extractLsb' 1 4 = s.errCode.num := by
  simp (disch := decide) only [State.statusWord, extract_append_low, extract_append_high, Nat.reduceSub,
    BitVec.extractLsb'_eq_self]

theorem statusWord_tree (s : State) : s.statusWord.extractLsb' 5 2 = s.tree.num := by
  simp (disch := decide) only [State.statusWord, extract_append_low, extract_append_high, Nat.reduceSub,
    BitVec.extractLsb'_eq_self]

theorem statusWord_codeV (s : State) : s.statusWord.getLsbD 7 = s.codeV := by
  simp only [State.statusWord, BitVec.getLsbD_append]
  simp

theorem statusWord_dstate (s : State) : s.statusWord.getLsbD 8 = decide (s.dstate = .descending) := by
  simp only [State.statusWord, BitVec.getLsbD_append]
  cases s.dstate <;> simp [DecState.num]

theorem statusWord_reserved (s : State) : s.statusWord.extractLsb' 9 23 = 0#23 := by
  simp (disch := decide) only [State.statusWord, extract_append_high, Nat.reduceSub, BitVec.extractLsb'_eq_self]

/-- Settles O9: each offset is its register's, and each field of STATUS stands at its bits. -/
theorem registersReadAsTheirFields : Obligations.RegistersReadAsTheirFields := by
  intro s
  refine ⟨busRead_of_reg (r := .cmd) rfl, busRead_of_reg (r := .status) rfl,
    ctrlWord_eq s ▸ busRead_of_reg (r := .ctrl) rfl, busRead_of_reg (r := .len) rfl, busRead_of_reg (r := .bitLen) rfl,
    busRead_of_reg (r := .outLen) rfl, busRead_of_reg (r := .errInfo) rfl, busRead_of_reg (r := .root) rfl,
    busRead_of_reg (r := .nodeCnt) rfl, busRead_of_reg (r := .capLen) rfl, busRead_of_reg (r := .capBits) rfl,
    statusWord_err s, fun f hf he => ?_, fun f hf he => ?_,
    statusWord_codeV s, statusWord_dstate s, statusWord_reserved s⟩
  · have hnum : ∀ f ∈ [(ErrCode.none, 0#4), (.invalidBit, 1#4), (.lookup, 2#4), (.mismatch, 3#4), (.invariant, 4#4),
        (.sequence, 5#4), (.overflow, 6#4), (.illegalCmd, 7#4), (.range, 8#4)], f.1.num = f.2 := by decide
    rw [statusWord_errCode, he, hnum f hf]
  · have hnum : ∀ f ∈ [(TreeState.none, 0#2), (.empty, 1#2), (.valid, 2#2)], f.1.num = f.2 := by decide
    rw [statusWord_tree, he, hnum f hf]

/-- Settles O10: each of the offsets leads to its register, and a register other than CTRL, LEN and BITLEN keeps its
value. -/
theorem hostWritesOfRegisters : Obligations.HostWritesOfRegisters := by
  intro s v
  refine ⟨performWrite_of_locate (l := .reg .ctrl) rfl (by decide),
    performWrite_of_locate (l := .reg .len) rfl (by decide),
    performWrite_of_locate (l := .reg .bitLen) rfl (by decide), fun a ha => ?_⟩
  simp only [List.mem_cons, List.not_mem_nil, or_false] at ha
  rcases ha with rfl | rfl | rfl | rfl | rfl | rfl | rfl
  · exact performWrite_of_locate (l := .reg .status) rfl (by decide)
  · exact performWrite_of_locate (l := .reg .outLen) rfl (by decide)
  · exact performWrite_of_locate (l := .reg .errInfo) rfl (by decide)
  · exact performWrite_of_locate (l := .reg .root) rfl (by decide)
  · exact performWrite_of_locate (l := .reg .nodeCnt) rfl (by decide)
  · exact performWrite_of_locate (l := .reg .capLen) rfl (by decide)
  · exact performWrite_of_locate (l := .reg .capBits) rfl (by decide)

/-! ### The windows -/

/-- Settles O11: an aligned address of the window is that of one of its words, and its location keeps nothing. -/
theorem readOnlyWindowsIgnoreWrites : Obligations.ReadOnlyWindowsIgnoreWrites := by
  intro s a v hwf ha h
  rcases h with h | h | h
  · obtain ⟨i, j, hi, hj, rfl⟩ : ∃ i j, i < 511 ∧ j < 4 ∧ a = 0x2000 + 16 * i + 4 * j :=
      ⟨(a - 0x2000) / 16, (a - 0x2000) % 16 / 4, by omega, by omega, by omega⟩
    exact performWrite_of_locate (locate_node hi hj) (by simp)
  · obtain ⟨k, j, hk, hj, rfl⟩ : ∃ k j, k < 257 ∧ j < 16 ∧ a = 0x4000 + 64 * k + 4 * j :=
      ⟨(a - 0x4000) / 64, (a - 0x4000) % 64 / 4, by omega, by omega, by omega⟩
    exact performWrite_of_locate (locate_code hk hj) (by simp)
  · have hw := windowsOk hwf
    obtain ⟨-, hbase, -⟩ := hw.aligned
    obtain ⟨w, rfl⟩ : ∃ w, a = s.cfg.outBase + 4 * w := ⟨(a - s.cfg.outBase) / 4, by omega⟩
    exact performWrite_of_locate (locate_out hw (by omega)) (by simp)

/-- Settles O12: the word is FREQ[i], and the write replaces that entry. -/
theorem freqWindowReadsWhatWasWritten : Obligations.FreqWindowReadsWhatWasWritten := by
  intro s i v hi
  refine ⟨by rw [State.busRead, locate_freq hi], _, performWrite_of_locate (locate_freq hi) (by simp), fun j _ => ?_⟩
  exact (freqAt_putFreq s.freq i j v hi).trans (if_congr eq_comm rfl rfl)

theorem lt_roundUp4 {w n : Nat} (h : 4 * w < n) : 4 * w < roundUp4 n := by
  unfold roundUp4
  omega

/-- Byte `k` of a byte memory is its lane of the bus word it stands in (20_memory.md R64, R67). -/
theorem extract_wordOfBytes (rd : Nat → Byte) (limit k : Nat) :
    (wordOfBytes rd limit (k / 4)).extractLsb' (8 * (k % 4)) 8 = if k < limit then rd k else 0#8 := by
  have h := wordOfBytes_lane rd limit (k / 4) (Nat.mod_lt k (by decide : 0 < 4))
  rwa [Nat.div_add_mod] at h

/-- Settles O13: the address of the word leads to its memory, and the byte is a lane of the word. -/
theorem byteMemoriesReadLittleEndian : Obligations.ByteMemoriesReadLittleEndian := by
  intro s k hwf
  have hw := windowsOk hwf
  refine ⟨fun hk => ?_, fun hk => ?_, fun hk => ?_⟩
  · exact ⟨_, by rw [State.busRead, locate_sym hw (by omega)], extract_wordOfBytes _ _ k⟩
  · exact ⟨_, by rw [State.busRead, locate_out hw (by omega)], extract_wordOfBytes _ _ k⟩
  · refine ⟨_, by rw [State.busRead, locate_bits hw (by omega)], ?_⟩
    rw [extract_wordOfBytes, if_pos hk]

theorem byteAt_putWord (free : Nat → Byte) (limit w : Nat) (v : Word) (m : Memory) (k : Nat) :
    byteAt free (putWord limit w v m) k = if k / 4 = w ∧ k < limit then laneOf v (k % 4) else byteAt free m k := by
  unfold byteAt
  rw [cellAt_putWord]
  split <;> rfl

/-- Settles O14: the address leads to the memory's word, whose bytes are the lanes of the value; MAX_BITS is a
multiple of 4, so no byte of a word of BITS is missing. -/
theorem byteMemoriesWriteLittleEndian : Obligations.ByteMemoriesWriteLittleEndian := by
  intro s w v hwf
  have hw := windowsOk hwf
  refine ⟨fun h => ?_, fun h => ?_⟩
  · exact ⟨_, performWrite_of_locate (locate_sym hw (lt_roundUp4 h)) (by simp), fun k => byteAt_putWord _ _ w v _ k⟩
  · refine ⟨_, performWrite_of_locate (locate_bits hw h) (by simp), fun k => ?_⟩
    obtain ⟨hdvd, -⟩ := hw.maxBits
    have hin : k / 4 = w ∧ k < s.cfg.maxBits ↔ k / 4 = w := and_iff_left_of_imp fun hk => by omega
    exact (byteAt_putWord _ _ w v _ k).trans (if_congr hin rfl rfl)

/-! ### The node record (30_encoding.md R96) -/

theorem busRead_node {i j : Nat} {n : Node} (hi : i < 511) (hj : j < 4) (h : cellAt s.node i = some n) :
    s.busRead (0x2000 + 16 * i + 4 * j) = .readOk (n.word j) := by
  rw [State.busRead, locate_node hi hj]
  simp only [State.nodeWordAt, h]

theorem toNat_symField (x : SymVal) : (symField x).toNat = x.val := by
  rw [symField, BitVec.toNat_ofNat]
  omega

theorem toNat_idxField (x : NodeIdx) : (idxField x).toNat = x.val := by
  rw [idxField, BitVec.toNat_ofNat]
  omega

theorem Node.word_one (n : Node) :
    (n.word 1).extractLsb' 0 8 = n.weight.extractLsb' 32 8 ∧ (n.word 1).extractLsb' 8 24 = 0#24 := by
  simp (disch := decide) only [Node.word, extract_append_low, extract_append_high, Nat.reduceSub,
    BitVec.extractLsb'_eq_self, and_self]

theorem Node.word_two (n : Node) :
    (n.word 2).extractLsb' 0 9 = symField n.sym ∧ (n.word 2).extractLsb' 9 7 = 0#7 ∧
      (n.word 2).extractLsb' 16 9 = symField n.minsym ∧ (n.word 2).extractLsb' 25 6 = 0#6 ∧
      (n.word 2).getLsbD 31 = decide (n.kind = .internal) := by
  simp only [Node.word]
  refine ⟨?_, ?_, ?_, ?_, ?_⟩
  case refine_5 =>
    simp only [BitVec.getLsbD_append]
    cases n.kind <;> simp [NodeKind.num]
  all_goals
    simp (disch := decide) only [extract_append_low, extract_append_high, Nat.reduceSub, BitVec.extractLsb'_eq_self]

theorem Node.word_three (n : Node) :
    (n.word 3).extractLsb' 0 9 = idxField n.left ∧ (n.word 3).extractLsb' 9 7 = 0#7 ∧
      (n.word 3).extractLsb' 16 9 = idxField n.right ∧ (n.word 3).extractLsb' 25 7 = 0#7 := by
  simp (disch := decide) only [Node.word, extract_append_low, extract_append_high, Nat.reduceSub,
    BitVec.extractLsb'_eq_self, and_self]

/-- Settles O15: the four addresses are those of the record's words, and each field stands at its bits. -/
theorem nodeWindowLayout : Obligations.NodeWindowLayout := by
  intro s i n hi hn
  obtain ⟨hw, hz⟩ := n.word_one
  obtain ⟨hsym, hz1, hmin, hz2, hkind⟩ := n.word_two
  obtain ⟨hleft, hz3, hright, hz4⟩ := n.word_three
  refine ⟨_, _, _, _, busRead_node (j := 0) hi (by decide) hn, busRead_node (j := 1) hi (by decide) hn,
    busRead_node (j := 2) hi (by decide) hn, busRead_node (j := 3) hi (by decide) hn, rfl, hw, hz, ?_, hz1, ?_, hz2,
    hkind, ?_, hz3, ?_, hz4⟩
  · rw [hsym, toNat_symField]
  · rw [hmin, toNat_symField]
  · rw [hleft, toNat_idxField]
  · rw [hright, toNat_idxField]

/-! ### The code-table entry (30_encoding.md R98) -/

theorem busRead_code {k j : Nat} {e : CodeEntry} (hk : k < 257) (hj : j < 16) (h : cellAt s.code k = some e) :
    s.busRead (0x4000 + 64 * k + 4 * j) = .readOk (e.word j) := by
  rw [State.busRead, locate_code hk hj]
  simp only [State.codeWordAt, h]

theorem CodeEntry.word_zero (e : CodeEntry) :
    (e.word 0).extractLsb' 0 8 = e.len ∧ (e.word 0).extractLsb' 8 23 = 0#23 ∧ (e.word 0).getLsbD 31 = e.valid := by
  unfold CodeEntry.word
  rw [if_pos rfl]
  refine ⟨?_, ?_, ?_⟩
  · simp (disch := decide) only [extract_append_low, BitVec.extractLsb'_eq_self]
  · simp (disch := decide) only [extract_append_low, extract_append_high, Nat.reduceSub, BitVec.extractLsb'_eq_self]
  · simp only [BitVec.getLsbD_append]
    simp

/-- Bit `j` of the code is bit `j mod 32` of word `1 + j div 32`; the last bit of word 8 is none of the code's. -/
theorem CodeEntry.word_bits (e : CodeEntry) {j : Nat} (hj : j < 256) :
    (e.word (1 + j / 32)).getLsbD (j % 32) = (decide (j < 255) && e.bits.getLsbD j) := by
  unfold CodeEntry.word
  rw [if_neg (by omega), if_pos (by omega), BitVec.getLsbD_extractLsb', BitVec.getLsbD_setWidth,
    show 32 * (1 + j / 32 - 1) + j % 32 = j by omega, decide_eq_true (Nat.mod_lt j (by decide : 0 < 32)),
    decide_eq_true hj, Bool.true_and, Bool.true_and]
  by_cases h : j < 255
  · simp [h]
  · rw [BitVec.getLsbD_of_ge _ _ (by omega), Bool.and_false]

theorem CodeEntry.word_reserved (e : CodeEntry) {j : Nat} (hj : 9 ≤ j) : e.word j = 0#32 := by
  unfold CodeEntry.word
  rw [if_neg (by omega), if_neg (by omega)]

/-- Settles O16: the sixteen addresses are those of the entry's words. -/
theorem codeWindowLayout : Obligations.CodeWindowLayout := by
  intro s k e hk he
  refine ⟨⟨_, busRead_code (j := 0) hk (by decide) he, e.word_zero⟩,
    fun j hj => ⟨_, busRead_code hk (by omega) he, e.word_bits hj⟩, fun j h9 h16 => ?_⟩
  rw [busRead_code hk h16 he, e.word_reserved h9]

end Sys2Proof.Machine
end

section
/-! COUNT (40_frequency_counter.md R121). -/

namespace Sys2Proof.Machine

theorem countUnit_of_len_le {s : State} (hlen : s.len.toNat ≤ s.cfg.maxLen) : countUnit s = s.counted :=
  if_neg (by omega)

theorem length_inputSeq_lt (s : State) : s.inputSeq.length < 2 ^ 32 := by
  rw [length_inputSeq]
  exact s.len.isLt

/-- FREQ[c] of a counted input is the number of positions of SYM that hold `c` (40_frequency_counter.md R121). -/
theorem toNat_freqAt_countFreq_inputSeq (s : State) (c : Byte) :
    (freqAt (countFreq s.inputSeq) c.toNat).toNat =
      ((List.range s.len.toNat).filter (fun i => s.symByte i == c)).length :=
  (toNat_freqAt_countFreq (length_inputSeq_lt s) c).trans (count_inputSeq s c)

/-- Settles O24: the table COUNT leaves is that of the input, whose present symbols are the input's members. -/
theorem countCountsTheInput : Obligations.CountCountsTheInput := by
  intro s herr hlen
  refine ⟨_, _, (exec_count herr).trans (congrArg _ (countUnit_of_len_le hlen)), toNat_freqAt_countFreq_inputSeq s,
    (freqSum_countFreq (length_inputSeq_lt s)).trans (length_inputSeq s), fun c => ?_⟩
  rw [← mem_inputSeq, ← mem_presentSyms_countFreq (length_inputSeq_lt s), mem_presentSyms]
  exact (and_iff_right c.isLt).symm

end Sys2Proof.Machine
end

section
/-! BUILD: its frame, the leaves, the merges and the tree it leaves (41_tree_builder.md R132 to R146). -/

namespace Sys2Proof.Machine

variable {s : State}

/-! ### The frame and what BUILD reads (41_tree_builder.md R142, R146) -/

theorem buildUnit_tree_ne_none (s : State) : (buildUnit s).tree ≠ .none := by
  rw [buildUnit_tree]
  split <;> simp

/-- Settles O25: BUILD has no fault, records a tree or the absent one, and writes the entries below NODECNT. -/
theorem buildFrame : Obligations.BuildFrame := fun s herr =>
  ⟨_, _, _, _, _, _, _, _, (exec_build herr).trans (congrArg _ (buildUnit_frame s)), buildUnit_tree_ne_none s,
    fun _ hi => buildUnit_node_frame s hi⟩

theorem freq_eq_of_freqAt {f g : Freq} (h : ∀ i, i < 256 → freqAt f i = freqAt g i) : f = g := by
  refine Vector.ext fun i hi => ?_
  have hfg := h i hi
  unfold freqAt at hfg
  rwa [Vector.getElem?_eq_getElem hi, Vector.getElem?_eq_getElem hi] at hfg

/-- The list of nodes is a function of FREQ; A and B have no part in it (41_tree_builder.md R142). -/
theorem buildForest_nodes_congr {s₁ s₂ : State} (h : s₁.freq = s₂.freq) :
    (buildForest s₁.freq s₁.regA.val s₁.regB.val).nodes = (buildForest s₂.freq s₂.regA.val s₂.regB.val).nodes := by
  rw [h]
  exact buildForest_nodes_eq _ _ _ _ _

/-- BUILD's tree is a function of FREQ (41_tree_builder.md R142). -/
theorem buildUnit_congr {s₁ s₂ : State} (h : s₁.freq = s₂.freq) :
    (buildUnit s₁).tree = (buildUnit s₂).tree ∧ (buildUnit s₁).root = (buildUnit s₂).root ∧
      (buildUnit s₁).nodeCnt = (buildUnit s₂).nodeCnt ∧
      ∀ i : NodeIdx, i.val < (buildUnit s₁).nodeCnt.val → (buildUnit s₁).nodeAt i = (buildUnit s₂).nodeAt i := by
  have hnodes := buildForest_nodes_congr h
  refine ⟨?_, ?_, ?_, fun i hi => ?_⟩
  · rw [buildUnit_tree, buildUnit_tree, hnodes]
  · rw [buildUnit_root, buildUnit_root, hnodes]
  · rw [buildUnit_nodeCnt, buildUnit_nodeCnt, hnodes]
  · rw [nodeCnt_buildUnit] at hi
    rw [nodeAt_buildUnit s₁ hi, nodeAt_buildUnit s₂ (hnodes ▸ hi), hnodes]

/-- Settles O33: equal entries make equal tables, and of the state BUILD's tree depends on the table only. -/
theorem buildDependsOnFreqAlone : Obligations.BuildDependsOnFreqAlone := fun _ _ herr₁ herr₂ h =>
  ⟨_, _, exec_build herr₁, exec_build herr₂, buildUnit_congr (freq_eq_of_freqAt h)⟩

/-! ### The leaves (41_tree_builder.md R132, R133, R141) -/

theorem symbolCount_eq (f : Freq) : symbolCount f = presentCount f := by
  rw [symbolCount, presentCount, presentSyms_eq]

theorem presentSyms_ne_nil (h : 1 ≤ symbolCount s.freq) : presentSyms s.freq ≠ [] := by
  rw [symbolCount_eq] at h
  exact List.ne_nil_of_length_pos h

/-- The leaves stand at the front of the arena (41_tree_builder.md R132, R133). -/
theorem nodeAt_buildUnit_leaf {i : NodeIdx} (h : i.val < (startNodes s.freq).length) :
    (buildUnit s).nodeAt i = nodeOf (startNodes s.freq) i.val := by
  have hne : presentSyms s.freq ≠ [] := fun e => by simp [startNodes_eq_nil.2 e] at h
  obtain ⟨ok, -, -, -⟩ := buildForest_ok s.regA.val s.regB.val hne
  rw [nodeAt_buildUnit s (h.trans_le ok.grown), ok.starts i.val h]

/-- The kind of a node is settled by its index (41_tree_builder.md R141). -/
theorem kind_buildUnit {i : NodeIdx} (hi : i.val < (buildUnit s).nodeCnt.val) :
    (((buildUnit s).nodeAt i).kind = .leaf ↔ i.val < (startNodes s.freq).length) ∧
      (((buildUnit s).nodeAt i).kind = .internal ↔ (startNodes s.freq).length ≤ i.val) := by
  rw [nodeCnt_buildUnit] at hi
  have hne : presentSyms s.freq ≠ [] := fun e => by simp [startForest_nil _ _ e] at hi
  rw [nodeAt_buildUnit s hi]
  exact buildForest_kind _ _ hne hi

/-- NODECNT and ROOT, counted from the leaves (41_tree_builder.md R139, R141). -/
theorem nodeCnt_root_buildUnit (h : presentSyms s.freq ≠ []) :
    (buildUnit s).nodeCnt.val + 1 = 2 * (startNodes s.freq).length ∧
      (buildUnit s).root.val + 1 = (buildUnit s).nodeCnt.val ∧ 2 ≤ (startNodes s.freq).length := by
  obtain ⟨-, hlen, -, h2⟩ := buildForest_ok s.regA.val s.regB.val h
  rw [root_buildUnit, nodeCnt_buildUnit]
  exact ⟨hlen, by omega, h2⟩

/-- Settles O27: there are as many leaves as start nodes, at most 256 of them, and one Internal node fewer. -/
theorem buildNodeCounts : Obligations.BuildNodeCounts := by
  intro s herr hpos
  have hne := presentSyms_ne_nil hpos
  obtain ⟨hcnt, hroot, h2⟩ := nodeCnt_root_buildUnit hne
  have hlen := startNodes_length s.freq
  rw [← symbolCount_eq] at hlen
  refine ⟨_, exec_build herr, (buildUnit_treeOk hne).1, ?_⟩
  rw [← hlen]
  refine ⟨startNodes_length_le _, by omega, by omega, fun i hi => ?_, fun i hle hi => ?_⟩
  · exact (kind_buildUnit (by omega)).1.2 hi
  · exact (kind_buildUnit (by omega)).2.2 hle

/-- The leaf of the k-th present symbol is NODE[k] (41_tree_builder.md R132). -/
theorem nodeAt_buildUnit_present {i : NodeIdx} (h : i.val < (presentSyms s.freq).length) :
    (buildUnit s).nodeAt i = leafNode s.freq (presentSyms s.freq)[i.val] := by
  have hstart : i.val < (startNodes s.freq).length := by
    rw [startNodes_length]
    unfold presentCount
    split <;> omega
  rw [nodeAt_buildUnit_leaf hstart, nodeOf_startNodes h]

/-- Settles O28: the symbols in ascending order are the present ones, and the k-th of them has its leaf at k. -/
theorem buildLeavesInAscendingOrder : Obligations.BuildLeavesInAscendingOrder := by
  intro s herr
  refine ⟨_, exec_build herr, fun k c hk i hi => ?_⟩
  subst hi
  rw [← presentSyms_eq] at hk
  obtain ⟨hlt, rfl⟩ := List.getElem?_eq_some_iff.1 hk
  have hsym := leafNode_sym s.freq (presentSyms_getElem_lt hlt)
  rw [nodeAt_buildUnit_present hlt]
  exact ⟨rfl, rfl, hsym, hsym, rfl, rfl⟩

/-! ### The merges (41_tree_builder.md R134, R135, R140) -/

/-- The two children of an Internal node are the two least unmerged nodes (41_tree_builder.md R134, R135). -/
theorem mergesTheTwoLeast_buildUnit {i : NodeIdx} (hi : i.val < (buildUnit s).nodeCnt.val)
    (hk : ((buildUnit s).nodeAt i).kind = .internal) :
    Unmerged (buildUnit s).nodeAt i.val ((buildUnit s).nodeAt i).left ∧
      Unmerged (buildUnit s).nodeAt i.val ((buildUnit s).nodeAt i).right ∧
      ((buildUnit s).nodeAt i).left ≠ ((buildUnit s).nodeAt i).right ∧
      (∀ j, Unmerged (buildUnit s).nodeAt i.val j → j ≠ ((buildUnit s).nodeAt i).left →
        Precedes ((buildUnit s).nodeAt ((buildUnit s).nodeAt i).left) ((buildUnit s).nodeAt j)) ∧
      (∀ j, Unmerged (buildUnit s).nodeAt i.val j → j ≠ ((buildUnit s).nodeAt i).left →
        j ≠ ((buildUnit s).nodeAt i).right →
        Precedes ((buildUnit s).nodeAt ((buildUnit s).nodeAt i).right) ((buildUnit s).nodeAt j)) := by
  have hle := (kind_buildUnit hi).2.1 hk
  have hi' := nodeCnt_buildUnit s ▸ hi
  have hp : presentSyms s.freq ≠ [] := fun e => by simp [startForest_nil _ _ e] at hi'
  have hun := fun j => unmerged_buildUnit s j i hi'
  have hnode : ∀ {j : NodeIdx}, j.val < i.val →
      (buildUnit s).nodeAt j = nodeOf (buildForest s.freq s.regA.val s.regB.val).nodes j.val :=
    fun hj => nodeAt_buildUnit s (hj.trans hi')
  obtain ⟨hl, hr, hleast, hnext⟩ := buildForest_least s.freq s.regA.val s.regB.val i.val hle hi'
  rw [← nodeAt_buildUnit s hi'] at hl hr hleast hnext
  have hok := (buildUnit_treeOk hp).2.nodes i hi
  unfold NodeOk at hok
  rw [hk] at hok
  obtain ⟨-, -, -, hne, -⟩ := hok
  refine ⟨(hun _).2 hl, (hun _).2 hr, hne, fun j hj hjl => ?_, fun j hj hjl hjr => ?_⟩
  · rw [hnode hl.1, hnode hj.1]
    exact hleast j.val ((hun j).1 hj) fun e => hjl (Fin.ext e)
  · rw [hnode hr.1, hnode hj.1]
    exact hnext j.val ((hun j).1 hj) (fun e => hjl (Fin.ext e)) fun e => hjr (Fin.ext e)

/-- Settles O30: in the list of nodes every Internal node has the two least unmerged nodes as its children, and the
arena holds that list. -/
theorem buildMergesTheTwoLeast : Obligations.BuildMergesTheTwoLeast := fun _ herr =>
  ⟨_, exec_build herr, fun _ hi hk => mergesTheTwoLeast_buildUnit hi hk⟩

/-- Settles O32: the root is the last node, whose weight is the total of ACTIVE. -/
theorem buildRootWeightIsTheSumOfCounts : Obligations.BuildRootWeightIsTheSumOfCounts := by
  intro s herr hpos
  have hne := presentSyms_ne_nil hpos
  obtain ⟨hcnt, hroot, h2⟩ := nodeCnt_root_buildUnit hne
  refine ⟨_, exec_build herr, ?_, freqSum_lt s.freq⟩
  rw [nodeAt_buildUnit s (by rw [← nodeCnt_buildUnit]; omega), root_buildUnit]
  exact buildForest_root_weight _ _ hne

/-! ### The tree (10_state.md R49) -/

/-- A real symbol has a leaf exactly when its count is not zero (41_tree_builder.md R132). -/
theorem buildUnit_leaf_iff (s : State) (c : Byte) :
    (∃ i : NodeIdx, i.val < (buildUnit s).nodeCnt.val ∧ ((buildUnit s).nodeAt i).kind = .leaf ∧
      ((buildUnit s).nodeAt i).sym.val = c.toNat) ↔ c.toNat ∈ presentSyms s.freq := by
  refine ⟨fun ⟨i, hi, hk, hs⟩ => ?_, buildUnit_leaf⟩
  have hstart := (kind_buildUnit hi).1.1 hk
  rw [nodeAt_buildUnit_leaf hstart] at hs
  rcases startNodes_cases hstart with ⟨hi', e⟩ | ⟨-, -, e⟩
  · rw [e, leafNode_sym _ (presentSyms_getElem_lt hi')] at hs
    exact hs ▸ List.getElem_mem hi'
  · rw [e] at hs
    exact absurd hs (Nat.ne_of_gt c.isLt)

/-- There is a synthetic leaf exactly when one symbol is present (41_tree_builder.md R133). -/
theorem buildUnit_synthetic_iff (s : State) :
    (∃ i : NodeIdx, i.val < (buildUnit s).nodeCnt.val ∧ ((buildUnit s).nodeAt i).kind = .leaf ∧
      ((buildUnit s).nodeAt i).sym = sentinel) ↔ presentCount s.freq = 1 := by
  constructor
  · rintro ⟨i, hi, hk, hs⟩
    have hstart := (kind_buildUnit hi).1.1 hk
    rw [nodeAt_buildUnit_leaf hstart] at hs
    rcases startNodes_cases hstart with ⟨hi', e⟩ | ⟨h1, -, -⟩
    · have hlt := presentSyms_getElem_lt hi'
      have hval := leafNode_sym s.freq hlt
      rw [← e, hs] at hval
      exact absurd hval (Nat.ne_of_gt hlt)
    · exact h1
  · intro h1
    have hlen : (startNodes s.freq).length = 2 := by rw [startNodes_length, if_pos h1]
    have hne : presentSyms s.freq ≠ [] := List.ne_nil_of_length_pos (by rw [presentCount] at h1; omega)
    have hcnt := (nodeCnt_root_buildUnit hne).1
    have hnode : (buildUnit s).nodeAt 1 = syntheticLeaf :=
      (nodeAt_buildUnit_leaf (by rw [hlen]; decide)).trans (nodeOf_startNodes_synthetic h1)
    exact ⟨1, by rw [hlen] at hcnt; change 1 < _; omega, by rw [hnode]; rfl, by rw [hnode]; rfl⟩

theorem active_buildUnit (h : presentSyms s.freq ≠ []) : (buildUnit s).active = [(buildUnit s).root] := by
  obtain ⟨-, -, hact, -⟩ := buildForest_ok s.regA.val s.regB.val h
  rw [buildUnit_root]
  show (buildForest s.freq s.regA.val s.regB.val).active.map (Fin.ofNat 511) = _
  rw [hact]
  rfl

/-- Settles O31: the arena is a tree, its leaves are the start nodes, and the last merge leaves ROOT in ACTIVE. -/
theorem buildMakesATree : Obligations.BuildMakesATree := by
  intro s herr hpos
  have hne := presentSyms_ne_nil hpos
  obtain ⟨htree, ok⟩ := buildUnit_treeOk hne
  refine ⟨_, exec_build herr, htree, ok, fun c => ?_, ?_, active_buildUnit hne⟩
  · rw [buildUnit_leaf_iff, mem_presentSyms]
    exact and_iff_right c.isLt
  · rw [buildUnit_synthetic_iff, symbolCount_eq]

/-! ### One symbol present (41_tree_builder.md R133) -/

theorem presentSyms_eq_singleton {f : Freq} {k : Nat} (h : ∀ i, i ∈ presentSyms f ↔ i = k) : presentSyms f = [k] := by
  have hmem : ∀ i, i ∈ presentSyms f ↔ i ∈ [k] := fun i => (h i).trans List.mem_singleton.symm
  exact List.perm_singleton.1 ((List.perm_ext_iff_of_nodup (presentSyms_nodup f) (List.nodup_singleton _)).2 hmem)

/-- The only leaf of real weight is greater than the synthetic leaf of weight 0 (41_tree_builder.md R133, R134). -/
theorem not_precedes_syntheticLeaf {f : Freq} {k : Nat} (h : freqAt f k ≠ 0#32) :
    ¬ Precedes (leafNode f k) syntheticLeaf := by
  have hweight : (leafNode f k).weight.toNat = (freqAt f k).toNat := BitVec.toNat_setWidth_of_le (by decide)
  have hpos : (freqAt f k).toNat ≠ 0 := fun e => h (BitVec.eq_of_toNat_eq e)
  unfold Precedes
  rw [BitVec.lt_def, ← BitVec.toNat_inj, hweight]
  show ¬ (_ < 0 ∨ _ = 0 ∧ _)
  omega

/-- The arena of one present symbol (41_tree_builder.md R133). -/
theorem buildUnit_of_one_symbol {c : Byte} (h : presentSyms s.freq = [c.toNat]) :
    (buildUnit s).nodeCnt.val = 3 ∧ (buildUnit s).root = 2 ∧ (buildUnit s).nodeAt 0 = leafNode s.freq c.toNat ∧
      (buildUnit s).nodeAt 1 = syntheticLeaf ∧ ((buildUnit s).nodeAt 2).kind = .internal ∧
      ((buildUnit s).nodeAt 2).left = 1 ∧ ((buildUnit s).nodeAt 2).right = 0 := by
  have h1 : presentCount s.freq = 1 := by rw [presentCount, h]; rfl
  have hne : presentSyms s.freq ≠ [] := by simp [h]
  have hlen : (startNodes s.freq).length = 2 := by rw [startNodes_length, if_pos h1]
  obtain ⟨hcnt, hroot, -⟩ := nodeCnt_root_buildUnit hne
  have hn0 : (buildUnit s).nodeAt 0 = leafNode s.freq c.toNat := by
    rw [nodeAt_buildUnit_present (by rw [h]; exact Nat.zero_lt_one)]
    simp [h]
  have hn1 : (buildUnit s).nodeAt 1 = syntheticLeaf :=
    (nodeAt_buildUnit_leaf (by rw [hlen]; decide)).trans (nodeOf_startNodes_synthetic h1)
  have hi : (2 : NodeIdx).val < (buildUnit s).nodeCnt.val := by
    show 2 < _
    omega
  have hk : ((buildUnit s).nodeAt 2).kind = .internal := (kind_buildUnit hi).2.2 hlen.le
  obtain ⟨hl, hr, hlr, hleast, -⟩ := mergesTheTwoLeast_buildUnit hi hk
  have hleft : ((buildUnit s).nodeAt 2).left = 1 := by
    by_contra hne1
    have hl2 : ((buildUnit s).nodeAt 2).left.val < 2 := hl.1
    have hl1 : ((buildUnit s).nodeAt 2).left.val ≠ 1 := fun e => hne1 (Fin.ext e)
    have hl0 : ((buildUnit s).nodeAt 2).left = 0 := Fin.ext (by show _ = 0; omega)
    have hun : Unmerged (buildUnit s).nodeAt 2 1 := by
      refine ⟨by decide, fun i hi2 hc => ?_⟩
      have hleaf : ((buildUnit s).nodeAt i).kind = .leaf := (kind_buildUnit (by omega)).1.2 (hlen ▸ hi2)
      rw [hc.1] at hleaf
      cases hleaf
    have hprec := hleast 1 hun (Ne.symm hne1)
    rw [hl0, hn0, hn1] at hprec
    have hmem : c.toNat ∈ presentSyms s.freq := by simp [h]
    exact not_precedes_syntheticLeaf (mem_presentSyms.1 hmem).2 hprec
  refine ⟨by omega, Fin.ext (by show _ = 2; omega), hn0, hn1, hk, hleft, Fin.ext ?_⟩
  have hr2 : ((buildUnit s).nodeAt 2).right.val < 2 := hr.1
  have hne1 : ((buildUnit s).nodeAt 2).right.val ≠ 1 := fun e => hlr (hleft.trans (Fin.ext e.symm))
  show _ = 0
  omega

/-- The two codes of that tree: "1" for the symbol, "0" for the synthetic leaf (41_tree_builder.md R133). -/
theorem isCode_buildUnit_of_one_symbol {c : Byte} (h : presentSyms s.freq = [c.toNat]) :
    (buildUnit s).IsCode [true] c.toNat ∧ (buildUnit s).IsCode [false] 256 := by
  obtain ⟨-, hroot, hn0, hn1, hk, hleft, hright⟩ := buildUnit_of_one_symbol h
  refine ⟨⟨0, ?_, by rw [hn0]; rfl, by rw [hn0]; exact leafNode_sym _ c.isLt⟩,
    ⟨1, ?_, by rw [hn1]; rfl, by rw [hn1]; rfl⟩⟩
  · rw [hroot, descend_cons_internal hk]
    exact congrArg some hright
  · rw [hroot, descend_cons_internal hk]
    exact congrArg some hleft

/-- Settles O29: the table has one present symbol, and the one merge takes the synthetic leaf first. -/
theorem buildOfOneSymbolAddsTheSyntheticLeaf : Obligations.BuildOfOneSymbolAddsTheSyntheticLeaf := by
  intro s c herr hc
  have h : presentSyms s.freq = [c.toNat] := presentSyms_eq_singleton fun i => by
    rw [mem_presentSyms]
    exact ⟨fun ⟨hi, hne⟩ => (hc i hi).1 hne, fun e => ⟨e ▸ c.isLt, (hc i (e ▸ c.isLt)).2 e⟩⟩
  obtain ⟨hcnt, hroot, hn0, hn1, hk, hleft, hright⟩ := buildUnit_of_one_symbol h
  refine ⟨_, exec_build herr, (buildUnit_treeOk (by simp [h])).1, hcnt, by rw [hroot]; rfl, by rw [hn0]; rfl, ?_, hn1,
    hk, hleft, hright, isCode_buildUnit_of_one_symbol h⟩
  rw [hn0]
  exact leafNode_sym _ c.isLt

end Sys2Proof.Machine
end

section
/-! GENTAB: the codes it records are the paths of the tree, and a root that is a leaf is its INVARIANT fault
(42_code_table_generator.md R150 to R157). -/

namespace Sys2Proof.Machine

variable {s : State}

/-! ### The entries of a tree's table -/

/-- The entry of a symbol that has a leaf holds the path to it, and that of every other symbol is the absent one
(42_code_table_generator.md R150, R151). -/
theorem cellAt_of_tableOfTree {code : Store CodeEntry} {q : List Bool} {k : Nat} (hv : s.tree = .valid)
    (tr : TreeOk s.nodeAt s.nodeCnt.val s.root) (htab : s.tableOfTree = some (code, q)) (hk : k < 257) :
    (∀ p, s.IsCode p k → p.length ≤ 255 ∧ cellAt code k = some (CodeEntry.ofPath p)) ∧
      ((∀ p, ¬ s.IsCode p k) → cellAt code k = some CodeEntry.absent) := by
  obtain ⟨code', q', htab', hleaf, hno⟩ := tableOfTree_valid hv tr
  obtain ⟨rfl, -⟩ := Prod.mk.inj (Option.some.inj (htab.symm.trans htab'))
  refine ⟨fun p ⟨l, hl, hkind, hsym⟩ => ⟨tr.path_length_le hl, hsym ▸ hleaf p l hl hkind⟩, fun h => ?_⟩
  refine hno k hk fun l hl hkind hsym => ?_
  obtain ⟨p, hp⟩ := tr.reached l hl
  exact h p ⟨l, hp, hkind, hsym⟩

theorem codeAt_of_cellAt {k : Nat} {e : CodeEntry} (h : cellAt s.code k = some e) : s.codeAt k = e := by
  rw [State.codeAt, h, Option.getD_some]

/-- In a state that holds the table of a tree, the code of a symbol is its path (42_code_table_generator.md R151). -/
theorem codeOf_eq_some_iff {t : State} {q p : List Bool} {k : Nat} (hv : s.tree = .valid)
    (tr : TreeOk s.nodeAt s.nodeCnt.val s.root) (htab : s.tableOfTree = some (t.code, q)) (hk : k < 257) :
    t.codeOf k = some p ↔ s.IsCode p k := by
  obtain ⟨hpath, hnone⟩ := cellAt_of_tableOfTree hv tr htab hk
  have hof : ∀ p, s.IsCode p k → t.codeOf k = some p := fun p hp => by
    obtain ⟨hlen, hcell⟩ := hpath p hp
    rw [State.codeOf, codeAt_of_cellAt hcell, CodeEntry.code_ofPath hlen]
    rfl
  refine ⟨fun h => ?_, hof p⟩
  by_cases hex : ∃ p', s.IsCode p' k
  · obtain ⟨p', hp'⟩ := hex
    rwa [Option.some.inj (h.symm.trans (hof p' hp'))]
  · rw [State.codeOf, codeAt_of_cellAt (hnone (not_exists.1 hex))] at h
    cases h

/-- Settles O34: GENTAB has a tree and raises no fault, and the table's entries are the paths. -/
theorem gentabRecordsThePaths : Obligations.GentabRecordsThePaths := by
  intro s herr hv tr
  obtain ⟨code, q, htab, hgentab⟩ := gentabUnit_ok (s := s) (by simp [hv]) fun _ => tr
  refine ⟨code, q, [], (exec_gentab herr).trans hgentab, fun k hk => ?_⟩
  obtain ⟨hpath, hnone⟩ := cellAt_of_tableOfTree hv tr htab hk
  refine ⟨fun p hp => ?_, hnone⟩
  obtain ⟨hlen, hcell⟩ := hpath p hp
  exact ⟨_, hcell, rfl, CodeEntry.len_ofPath hlen, CodeEntry.code_ofPath hlen, CodeEntry.bits_ofPath p⟩

/-! ### No code is the start of another -/

/-- A code that goes on from a leaf ends there, so a code that starts with another is the same symbol's
(42_code_table_generator.md R157). -/
theorem State.IsCode.eq_of_prefix {p q : List Bool} {j k : Nat} (hp : s.IsCode p j) (hq : s.IsCode q k)
    (h : p <+: q) : j = k := by
  obtain ⟨l, hl, hkind, rfl⟩ := hp
  obtain ⟨m, hm, -, rfl⟩ := hq
  obtain ⟨r, rfl⟩ := h
  obtain ⟨l', hl', hrest⟩ := descend_append_some hm
  obtain rfl : l = l' := Option.some.inj (hl.symm.trans hl')
  cases r with
  | nil => rw [Option.some.inj hrest]
  | cons b r =>
    rw [descend_cons_leaf hkind] at hrest
    cases hrest

/-- Settles O35: every recorded code is a path to a leaf from an Internal root, and no such path goes on from a
leaf. -/
theorem gentabCodesArePrefixFree : Obligations.GentabCodesArePrefixFree := by
  intro s herr hv tr
  obtain ⟨code, q, htab, hgentab⟩ := gentabUnit_ok (s := s) (by simp [hv]) fun _ => tr
  have hcode : ∀ {k p}, k < 257 → State.codeOf { s.startTable with code := code, path := q, codeV := true } k = some p →
      s.IsCode p k := fun hk => (codeOf_eq_some_iff hv tr htab hk).1
  refine ⟨_, (exec_gentab herr).trans hgentab, herr, fun k p hk h => ?_, fun j k p q hj hk hne hp hq hpre => ?_⟩
  · have hp := hcode hk h
    obtain ⟨l, hl, -, -⟩ := id hp
    exact ⟨List.length_pos_of_ne_nil (hp.ne_nil tr.rootInternal), tr.path_length_lt hl, tr.path_length_le hl⟩
  · exact hne ((hcode hj hp).eq_of_prefix (hcode hk hq) hpre)

/-! ### A root that is a leaf -/

/-- The INVARIANT fault, raised after CODE is cleared (42_code_table_generator.md R154). -/
theorem gentabUnit_of_root_leaf (hv : s.tree = .valid) (hk : (s.nodeAt s.root).kind = .leaf) :
    gentabUnit s = .next (s.startTable.raiseFault (some .gentab) .invariant (BitVec.ofNat 32 s.root.val)) := by
  unfold gentabUnit
  rw [if_neg (by simp [hv]), if_pos ⟨hv, hk⟩]

/-- The invariant's tree has an Internal root (10_state.md R49 (c)). -/
theorem Inv.treeOk_of_valid (h : Inv s) (hv : s.tree = .valid) : TreeOk s.nodeAt s.nodeCnt.val s.root := by
  have ht := h.treeOk
  unfold TreeStateOk at ht
  rw [hv] at ht
  exact ht.1

/-- Settles O37: GENTAB faults with the cleared table, and the root of a tree is Internal. -/
theorem gentabInvariantFault : Obligations.GentabInvariantFault := by
  intro s hv hk
  refine ⟨fun herr => ?_, fun hinv => ?_⟩
  · have hunit := gentabUnit_of_root_leaf hv hk
    rw [raiseFault_of_not_voidsOutput rfl] at hunit
    exact ⟨clearedCode, [], [], (exec_gentab herr).trans hunit, fun k h => (cellAt_clearedCode k).trans (if_pos h)⟩
  · have hroot := (hinv.treeOk_of_valid hv).rootInternal
    rw [hk] at hroot
    cases hroot

end Sys2Proof.Machine
end

section
/-! ENCODE of an input whose codes fit, the bytes it writes, and its faults inside the loop (43_encoder.md R166 to
R172). -/

namespace Sys2Proof.Machine

variable {s : State}

theorem byteAt_congr {free : Nat → Byte} {m m' : Memory} {k : Nat} (h : cellAt m k = cellAt m' k) :
    byteAt free m k = byteAt free m' k := by
  rw [byteAt, byteAt, h]

/-! ### All codes written -/

theorem look_valid_of_symByte (h : ∀ i, i < s.len.toNat → (s.codeAt (s.symByte i).toNat).valid = true) :
    ∀ c ∈ s.inputSeq, (s.look c).valid = true := by
  intro c hc
  obtain ⟨i, hi, rfl⟩ := mem_inputSeq.1 hc
  exact h i hi

theorem toNat_ofNat_of_le_maxBits (hwf : s.cfg.wf = true) {n : Nat} (h : n ≤ s.cfg.maxBits) :
    (BitVec.ofNat 32 n).toNat = n := by
  obtain ⟨-, -, hbits⟩ := Params.bounds hwf
  rw [BitVec.toNat_ofNat, Nat.mod_eq_of_lt (by omega)]

/-- Settles O38: the loop writes the concatenation, and BITLEN, its length, is within MAX_BITS. -/
theorem encodeConcatenatesTheCodes : Obligations.EncodeConcatenatesTheCodes := by
  intro s hwf herr hcode hlen hvalid hsum
  have hlook := look_valid_of_symByte hvalid
  have hlength := length_concatCodes s.look s.inputSeq
  have hfit : (concatCodes s.look s.inputSeq).length ≤ s.cfg.maxBits := hlength.trans_le hsum
  obtain ⟨-, -, hbits⟩ := Params.bounds hwf
  refine ⟨_, _, _, _, (exec_encode herr).trans (congrArg _ (encodeUnit_ok hcode hlen hlook hfit)), ?_,
    elems_finishEncode (by omega)⟩
  exact (toNat_ofNat_of_le_maxBits hwf hfit).trans hlength

/-- The bits of BITS after a fault-free PACKED ENCODE: the bit-string, padded with zeros to whole bytes
(43_encoder.md R170). -/
theorem getLsbD_finishEncode_packed (hf : s.fmt = .packed) (bs : List Bool) (n : Nat) {k j : Nat}
    (hk : k < (bs.length + 7) / 8) (hj : j < 8) :
    ((s.finishEncode (encRegsAt s bs n .none)).bitsByte k).getLsbD j = bs.getD (8 * k + j) false := by
  have hbits : (s.finishEncode (encRegsAt s bs n .none)).bits =
      putElems .packed (s.free .bits) s.bits 0 (bs ++ List.replicate (padCount .packed bs.length) false) := by
    rw [putElems_append, Nat.zero_add, ← hf]
    rfl
  have hpad : padCount .packed bs.length = 8 * ((bs.length + 7) / 8) - bs.length := rfl
  show (byteAt (s.free .bits) (s.finishEncode (encRegsAt s bs n .none)).bits k).getLsbD j = _
  rw [hbits, bit_putElems_packed _ _ _ _ _ hj, if_pos, Nat.sub_zero]
  · by_cases h : 8 * k + j < bs.length
    · rw [List.getD_append _ _ _ _ h]
    · have hlt : 8 * k + j - bs.length < padCount .packed bs.length := by omega
      rw [List.getD_append_right _ _ _ _ (by omega), List.getD_eq_default bs _ (by omega)]
      exact List.getD_replicate _ hlt
  · rw [List.length_append, List.length_replicate]
    omega

/-- The bytes of BITS after a fault-free CHAR ENCODE: the digits of the bit-string, with no padding (43_encoder.md
R167, R170). -/
theorem bitsByte_finishEncode_char (hf : s.fmt = .char) (bs : List Bool) (n k : Nat) :
    (s.finishEncode (encRegsAt s bs n .none)).bitsByte k =
      if k < bs.length then (if bs.getD k false then 0x31#8 else 0x30#8) else s.bitsByte k := by
  have hbits : (s.finishEncode (encRegsAt s bs n .none)).bits = putElems .char (s.free .bits) s.bits 0 bs := by
    show putElems s.fmt _ (putElems s.fmt _ s.bits 0 bs) bs.length (List.replicate (padCount s.fmt bs.length) false) = _
    rw [hf]
    rfl
  show byteAt (s.free .bits) (s.finishEncode (encRegsAt s bs n .none)).bits k = _
  rw [hbits, byteAt_putElems_char]
  simp only [Nat.zero_le, true_and, Nat.zero_add, Nat.sub_zero]
  rfl

/-- Settles O39: CHAR writes one byte an element, PACKED whole bytes with the padding, and neither another byte. -/
theorem encodeWritesExactlyItsBytes : Obligations.EncodeWritesExactlyItsBytes := by
  intro s hwf herr hcode hlen hvalid hfit
  have hunit := encodeUnit_ok hcode hlen (look_valid_of_symByte hvalid) hfit
  refine ⟨_, (exec_encode herr).trans (congrArg _ hunit), herr, fun hf k => bitsByte_finishEncode_char hf _ _ k,
    fun hf k => ⟨fun hk j hj => getLsbD_finishEncode_packed hf _ _ hk hj, fun hk => ?_⟩⟩
  have hother : ∀ j, j < (concatCodes s.look s.inputSeq).length → elemByte s.fmt j ≠ k := fun j hj => by
    rw [hf]
    change ((concatCodes s.look s.inputSeq).length + 7) / 8 ≤ k at hk
    show j / 8 ≠ k
    omega
  exact byteAt_congr (cellAt_finishEncode_other s _ s.len.toNat .none hother)

/-! ### A fault inside the loop (43_encoder.md R168, R169, R172) -/

/-- The loop goes on after a first part of the input that ended with no fault. -/
theorem encodeSyms_append {fmt : Format} {free : Nat → Byte} {look : Byte → CodeEntry} {cap : Nat}
    (done rest : List Byte) {r : EncRegs} (hstop : r.stop = .none) (h : (encodeSyms fmt free look cap done r).stop = .none) :
    encodeSyms fmt free look cap (done ++ rest) r =
      encodeSyms fmt free look cap rest (encodeSyms fmt free look cap done r) := by
  induction done generalizing r with
  | nil => rfl
  | cons c done ih =>
    rw [encodeSyms] at h
    rw [List.cons_append, encodeSyms, encodeSyms]
    by_cases hc : (encodeSym fmt free look cap c r).stop = .none
    · rw [if_pos hc] at h
      rw [if_pos hc, if_pos hc, ih hc h]
    · rw [if_neg hc] at h
      exact absurd h hc

/-- The first symbol that has no code, or one that does not fit, ends the loop (43_encoder.md R168, R169). -/
theorem encodeSyms_fault {fmt : Format} {free : Nat → Byte} {look : Byte → CodeEntry} {cap : Nat} (c : Byte)
    (rest : List Byte) {r : EncRegs} {f : ErrCode}
    (h : ((look c).valid = false ∧ f = .lookup) ∨
      ((look c).valid = true ∧ f = .overflow ∧ cap < r.pos + (look c).len.toNat)) :
    encodeSyms fmt free look cap (c :: rest) r = { r with stop := f } := by
  have hsym : encodeSym fmt free look cap c r = { r with stop := f } := by
    unfold encodeSym
    rcases h with ⟨hv, rfl⟩ | ⟨hv, rfl, hlt⟩
    · rw [if_pos hv]
    · rw [if_neg (by simp [hv]), if_pos hlt]
  have hf : f ≠ .none := by rcases h with ⟨-, rfl⟩ | ⟨-, rfl, -⟩ <;> decide
  rw [encodeSyms, hsym]
  exact if_neg hf

/-- ENCODE behind the gate when its loop ends at the symbol `c`, the codes of the symbols before it written
(43_encoder.md R172). -/
theorem encodeUnit_fault {done rest : List Byte} {c : Byte} {f : ErrCode} (hcode : s.codeV = true)
    (hlen : s.len.toNat ≤ s.cfg.maxLen) (hin : s.inputSeq = done ++ c :: rest)
    (hvalid : ∀ d ∈ done, (s.look d).valid = true) (hfit : (concatCodes s.look done).length ≤ s.cfg.maxBits)
    (h : ((s.look c).valid = false ∧ f = .lookup) ∨
      ((s.look c).valid = true ∧ f = .overflow ∧
        s.cfg.maxBits < (concatCodes s.look done).length + (s.look c).len.toNat)) :
    encodeUnit s = (s.withEncRegs (encRegsAt s (concatCodes s.look done) done.length f)).raiseFault (some .encode) f
      (BitVec.ofNat 32 done.length) := by
  have hdone : encodeSyms s.fmt (s.free .bits) s.look s.cfg.maxBits done
      { bits := s.bits, symPos := 0, pos := 0, stop := .none } =
        encRegsAt s (concatCodes s.look done) done.length .none := by
    rw [encodeSyms_all _ _ _ _ _ _ rfl hvalid (by dsimp only; omega)]
    simp only [Nat.zero_add]
    rfl
  have hrun : s.encodeRun = encRegsAt s (concatCodes s.look done) done.length f := by
    rw [State.encodeRun_eq, hin, encodeSyms_append _ _ rfl (by rw [hdone]; rfl), hdone, encodeSyms_fault c rest h]
    rfl
  have hf : f ≠ .none := by rcases h with ⟨-, rfl⟩ | ⟨-, rfl, -⟩ <;> decide
  unfold encodeUnit
  rw [if_neg (by simp [hcode]), if_neg (by omega), hrun]
  exact if_neg hf

/-- Settles O41: the loop ends at `c` with the codes of `done` written and no padding step. -/
theorem encodeStopsAtTheFirstFaultySymbol : Obligations.EncodeStopsAtTheFirstFaultySymbol := by
  intro s done rest c f _ herr hcode hlen hin hvalid hfit h
  have hunit := encodeUnit_fault hcode hlen hin hvalid hfit h
  rw [raiseFault_of_not_voidsOutput rfl] at hunit
  refine ⟨_, _, _, (exec_encode herr).trans (congrArg _ hunit), fun j hj => ?_, fun k hk => ?_, fun hf k j hj hle => ?_⟩
  · refine (elemAt_putElems s.fmt (s.free .bits) _ s.bits 0 j).trans ?_
    rw [if_pos ⟨Nat.zero_le j, by rwa [Nat.zero_add]⟩]
    rfl
  · refine byteAt_congr (cellAt_putElems_other _ _ _ _ _ _ fun j _ hj => hk j ?_)
    rwa [Nat.zero_add] at hj
  · show (byteAt (s.free .bits) (putElems s.fmt (s.free .bits) s.bits 0 (concatCodes s.look done)) k).getLsbD j = _
    rw [hf, bit_putElems_packed _ _ _ _ _ hj, if_neg]
    · rfl
    · rintro ⟨-, hlt⟩
      exact absurd hlt (by rw [Nat.zero_add]; exact Nat.not_lt.2 hle)

end Sys2Proof.Machine
end

section
/-! DECODE and DECOMPRESS: known bit-strings, the frame, and that the result depends on the encoded result alone
(44_decoder.md R187 to R194). -/

namespace Sys2Proof.Machine

variable {s : State} {i : Instr}

/-! ### The decoder's faults void OUTLEN (60_exceptions.md R232) -/

/-- The three faults of the walk and of phase 1. -/
def decoderFaults : List ErrCode := [.invalidBit, .mismatch, .overflow]

theorem voidsOutput_decoder {f : ErrCode} (hi : i ∈ [Instr.decode, .decompress]) (hf : f ∈ decoderFaults) :
    voidsOutput (some i) f = true := by
  have h : ∀ i ∈ [Instr.decode, .decompress], ∀ f ∈ decoderFaults, voidsOutput (some i) f = true := by decide
  exact h i hi f hf

/-- Fault entry with a decoder's fault changes the latch and OUTLEN (60_exceptions.md R232). -/
theorem raiseFault_decoder {f : ErrCode} (hi : i ∈ [Instr.decode, .decompress]) (hf : f ∈ decoderFaults) (s : State)
    (info : Word) :
    s.raiseFault (some i) f info = { s with outLen := 0#32, err := true, errCode := f, errInfo := info } := by
  rw [State.raiseFault, voidsOutput_decoder hi hf]
  rfl

/-! ### Bit-strings that are known -/

theorem ofNat_bitLen (s : State) : BitVec.ofNat 32 s.bitLen.toNat = s.bitLen := by simp

/-- Settles O43: the walk emits the symbols of complete codes and ends at ROOT. -/
theorem decodeOfCompleteCodes : Obligations.DecodeOfCompleteCodes := by
  intro s bs cs hinv herr htree hel hbl hsp hcs i hi
  have hroot := (hinv.treeOk_of_valid htree).rootInternal
  have hunit := decodeUnit_spells (cmd := i) htree hroot hel hbl hsp hcs
  rw [State.withDecRegs, ofNat_bitLen] at hunit
  exact ⟨_, (exec_decoder herr hi).trans (congrArg _ hunit), outByte_putCells _ _ cs⟩

/-- Settles O44: after the complete codes the walk goes down the rest and ends at an Internal node. -/
theorem decodeOfAPartialTrailingCode : Obligations.DecodeOfAPartialTrailingCode := by
  intro s bs p cs n hinv herr htree hel hbl hsp hcs hp hn hk i hi
  have hroot := (hinv.treeOk_of_valid htree).rootInternal
  have hunit := decodeUnit_partial (cmd := i) htree hroot hel hbl hsp hcs hp hn hk
  rw [raiseFault_decoder hi (by decide), State.withDecRegs, ofNat_bitLen] at hunit
  exact ⟨_, (exec_decoder herr hi).trans (congrArg _ hunit), outByte_putCells _ _ cs⟩

/-- Settles O45: after the complete codes the walk meets the synthetic leaf, or a real one with OUT full. -/
theorem decodeStopsInsideTheBitString : Obligations.DecodeStopsInsideTheBitString := by
  intro s bs p rest cs k f hinv herr htree hel hbl hsp hcs hcode hf i hi
  have hroot := (hinv.treeOk_of_valid htree).rootInternal
  have hmem : f ∈ decoderFaults := by rcases hf with ⟨-, rfl⟩ | ⟨-, -, rfl⟩ <;> decide
  obtain ⟨m, hunit⟩ := decodeUnit_fault (cmd := i) htree hroot hel hbl hsp hcs hcode hf
  rw [raiseFault_decoder hi hmem] at hunit
  exact ⟨_, _, _, (exec_decoder herr hi).trans (congrArg _ hunit), outByte_putCells _ _ cs⟩

/-! ### The end of a DECODE -/

/-- How a DECODE that had no fault latched ends: without a fault at ROOT, refused before its first write, or with a
decoder's fault and OUTLEN = 0 (44_decoder.md R191). -/
def DecodeEnd (t : State) : Prop :=
  (t.err = false ∧ t.dstate = .atRoot) ∨ (t.err = true ∧ t.errCode ∈ [ErrCode.sequence, .range]) ∨
    (t.err = true ∧ t.errCode ∈ decoderFaults ∧ t.outLen = 0#32)

theorem decodeEnd_raiseFault {f : ErrCode} (hi : i ∈ [Instr.decode, .decompress]) (hf : f ∈ decoderFaults) (u : State)
    (info : Word) : DecodeEnd (u.raiseFault (some i) f info) := by
  rw [raiseFault_decoder hi hf]
  exact .inr (.inr ⟨rfl, hf, rfl⟩)

theorem decodeRun_stop (s : State) : s.decodeRun.stop = .none ∨ s.decodeRun.stop ∈ decoderFaults := by
  have h := decodeElems_stop s.nodeAt s.root s.cfg.maxLen (es := s.elems)
    (r := { out := s.out, outLen := 0, dstate := .atRoot, cur := s.root, bitPos := 0, stop := .none }) rfl
  rcases h with h | h | h
  · exact .inl h
  · exact .inr (by rw [State.decodeRun, h]; decide)
  · exact .inr (by rw [State.decodeRun, h]; decide)

/-- The end of the walk by its last registers (44_decoder.md R188 to R190). -/
theorem finishDecode_cases (cmd : Instr) (s : State) (r : DecRegs) :
    (r.stop = .none ∧ r.dstate = .atRoot ∧ s.finishDecode cmd r = s.withDecRegs r) ∨
    (r.stop = .none ∧ r.dstate = .descending ∧
      s.finishDecode cmd r = (s.withDecRegs r).raiseFault (some cmd) .mismatch s.bitLen) ∨
    (r.stop ≠ .none ∧
      s.finishDecode cmd r = (s.withDecRegs r).raiseFault (some cmd) r.stop (BitVec.ofNat 32 (r.bitPos - 1))) := by
  unfold State.finishDecode
  by_cases hs : r.stop = .none
  · rw [if_pos hs]
    cases hd : r.dstate with
    | atRoot => exact .inl ⟨hs, rfl, if_neg (by decide)⟩
    | descending => exact .inr (.inl ⟨hs, rfl, if_pos rfl⟩)
  · exact .inr (.inr ⟨hs, if_neg hs⟩)

theorem decodeUnit_end (herr : s.err = false) (hi : i ∈ [Instr.decode, .decompress]) : DecodeEnd (decodeUnit i s) := by
  rcases decodeUnit_cases i s with ⟨-, e⟩ | ⟨-, -, e⟩ | ⟨-, -, j, -, e⟩ | ⟨-, -, -, e⟩ | ⟨-, -, -, e⟩ <;> rw [e]
  · exact .inr (.inl ⟨rfl, by simp⟩)
  · exact .inr (.inl ⟨rfl, by simp⟩)
  · exact decodeEnd_raiseFault hi (by decide) _ _
  · split
    · exact .inl ⟨herr, rfl⟩
    · exact decodeEnd_raiseFault hi (by decide) _ _
  · rcases finishDecode_cases i s s.decodeRun with ⟨-, hd, e⟩ | ⟨-, -, e⟩ | ⟨hs, e⟩ <;> rw [e]
    · exact .inl ⟨herr, hd⟩
    · exact decodeEnd_raiseFault hi (by decide) _ _
    · exact decodeEnd_raiseFault hi ((decodeRun_stop s).resolve_left hs) _ _

/-- Settles O48: the decoder's frame, and the three ways in which it ends. -/
theorem decodeFrame : Obligations.DecodeFrame := by
  intro s herr i hi
  refine ⟨_, _, _, _, _, _, _, _, (exec_decoder herr hi).trans (congrArg _ (decodeUnit_frame i s)),
    fun k hk => byteAt_congr (decodeUnit_out_frame i s hk), ?_⟩
  rcases decodeUnit_end herr hi with ⟨he, hd⟩ | ⟨he, hc⟩ | ⟨he, hc, hl⟩
  · simp [he, hd]
  · refine ⟨fun h => by simp [he] at h, fun _ => ?_, fun _ h1 h2 => ?_⟩
    · rcases List.mem_pair.1 hc with h | h <;> simp [h]
    · rcases List.mem_pair.1 hc with h | h
      · exact absurd h h1
      · exact absurd h h2
  · exact ⟨fun h => by simp [he] at h, fun _ => List.mem_cons_of_mem _ (List.mem_cons_of_mem _ hc), fun _ _ _ => hl⟩

/-! ### Two states with the same encoded result (44_decoder.md R194) -/

/-- Two ends of a DECODE that the host cannot tell apart: the latch, OUTLEN, DSTATE and OUT[0..OUTLEN-1]. -/
structure SameDecoded (t₁ t₂ : State) : Prop where
  err : t₁.err = t₂.err
  fault : t₁.err = true → t₁.errCode = t₂.errCode ∧ t₁.errInfo = t₂.errInfo
  outLen : t₁.outLen = t₂.outLen
  dstate : t₁.dstate = t₂.dstate
  out : ∀ k, k < t₁.outLen.toNat → t₁.outByte k = t₂.outByte k

variable {s₁ s₂ : State}

theorem sameDecoded_raiseFault {f : ErrCode} (hi : i ∈ [Instr.decode, .decompress]) (hf : f ∈ decoderFaults)
    (hd : s₁.dstate = s₂.dstate) (info : Word) :
    SameDecoded (s₁.raiseFault (some i) f info) (s₂.raiseFault (some i) f info) := by
  rw [raiseFault_decoder hi hf, raiseFault_decoder hi hf]
  exact ⟨rfl, fun _ => ⟨rfl, rfl⟩, rfl, hd, fun k hk => absurd hk (Nat.not_lt_zero k)⟩

theorem sameDecoded_startDecode (h₁ : s₁.err = false) (h₂ : s₂.err = false) :
    SameDecoded s₁.startDecode s₂.startDecode where
  err := h₁.trans h₂.symm
  fault := fun h => by simp [h₁] at h
  outLen := rfl
  dstate := rfl
  out := fun k hk => absurd hk (Nat.not_lt_zero k)

/-- Two equal walks that end without a fault: the bytes below OUTLEN are written by both. -/
theorem sameDecoded_withDecRegs {r₁ r₂ : DecRegs} (h₁ : s₁.err = false) (h₂ : s₂.err = false) (h : SameWalk r₁ r₂) :
    SameDecoded (s₁.withDecRegs r₁) (s₂.withDecRegs r₂) where
  err := h₁.trans h₂.symm
  fault := fun he => by simp [h₁] at he
  outLen := congrArg (BitVec.ofNat 32) h.outLen
  dstate := h.dstate
  out := fun k hk => by
    have hk' : k < r₁.outLen := by
      rw [State.withDecRegs_outLen, BitVec.toNat_ofNat] at hk
      exact hk.trans_le (Nat.mod_le _ _)
    obtain ⟨hcell, hsome⟩ := h.out k hk'
    obtain ⟨b, hb⟩ := Option.isSome_iff_exists.1 hsome
    show byteAt _ r₁.out k = byteAt _ r₂.out k
    rw [byteAt, byteAt, ← hcell, hb]
    rfl

theorem sameDecoded_finishDecode {r₁ r₂ : DecRegs} (h₁ : s₁.err = false) (h₂ : s₂.err = false)
    (hi : i ∈ [Instr.decode, .decompress]) (hbl : s₁.bitLen = s₂.bitLen) (h : SameWalk r₁ r₂)
    (hstop : r₁.stop = .none ∨ r₁.stop ∈ decoderFaults) :
    SameDecoded (s₁.finishDecode i r₁) (s₂.finishDecode i r₂) := by
  unfold State.finishDecode
  rw [← h.stop, ← h.dstate, ← h.bitPos, ← hbl]
  split
  · split
    · exact sameDecoded_raiseFault hi (by decide) h.dstate _
    · exact sameDecoded_withDecRegs h₁ h₂ h
  · exact sameDecoded_raiseFault hi (hstop.resolve_left ‹_›) h.dstate _

/-- The walks of two states with the same tree and the same elements. -/
theorem sameWalk_decodeRun (hcfg : s₁.cfg = s₂.cfg) (hroot : s₁.root = s₂.root) (hnode : s₁.nodeAt = s₂.nodeAt)
    (hel : s₁.elems = s₂.elems) : SameWalk s₁.decodeRun s₂.decodeRun := by
  unfold State.decodeRun
  rw [hcfg, hroot, hnode, hel]
  exact SameWalk.elems _ _ _ _ ⟨rfl, rfl, rfl, rfl, rfl, fun k hk => absurd hk (Nat.not_lt_zero k)⟩

theorem elems_congr (hbl : s₁.bitLen = s₂.bitLen) (h : ∀ j, j < s₁.bitLen.toNat → s₁.elem j = s₂.elem j) :
    s₁.elems = s₂.elems := by
  unfold State.elems
  rw [← hbl]
  exact List.map_congr_left fun j hj => h j (List.mem_range.1 hj)

/-- DECODE that is not refused is a function of the encoded result (44_decoder.md R194). -/
theorem sameDecoded_decodeUnit (h₁ : s₁.err = false) (h₂ : s₂.err = false) (hi : i ∈ [Instr.decode, .decompress])
    (hcfg : s₁.cfg = s₂.cfg) (htree : s₁.tree = s₂.tree) (hroot : s₁.root = s₂.root) (hnode : s₁.nodeAt = s₂.nodeAt)
    (hbl : s₁.bitLen = s₂.bitLen) (hel : s₁.elems = s₂.elems) (hne : s₁.tree ≠ .none)
    (hle : s₁.bitLen.toNat ≤ s₁.cfg.maxBits) : SameDecoded (decodeUnit i s₁) (decodeUnit i s₂) := by
  have hle₂ : s₂.bitLen.toNat ≤ s₂.cfg.maxBits := hbl ▸ hcfg ▸ hle
  have hstart : s₁.startDecode.dstate = s₂.startDecode.dstate := rfl
  rcases decodeUnit_cases i s₁ with ⟨h, -⟩ | ⟨-, h, -⟩ | ⟨-, -, j, hj, e⟩ | ⟨ht, -, hf, e⟩ | ⟨ht, -, hf, e⟩
  · exact absurd h hne
  · omega
  · rw [e, decodeUnit_of_invalid (htree ▸ hne) hle₂ (hel ▸ hj)]
    exact sameDecoded_raiseFault hi (by decide) hstart _
  · rw [e, decodeUnit_of_absent_tree (htree ▸ ht) hle₂ (hel ▸ hf), ← hbl]
    split
    · exact sameDecoded_startDecode h₁ h₂
    · exact sameDecoded_raiseFault hi (by decide) hstart _
  · rcases decodeUnit_cases i s₂ with ⟨h, -⟩ | ⟨-, h, -⟩ | ⟨-, -, j, hj, -⟩ | ⟨h, -⟩ | ⟨-, -, -, e₂⟩
    · simp [← htree, ht] at h
    · omega
    · simp [← hel, hf] at hj
    · simp [← htree, ht] at h
    · rw [e, e₂]
      exact sameDecoded_finishDecode h₁ h₂ hi hbl (sameWalk_decodeRun hcfg hroot hnode hel) (decodeRun_stop s₁)

/-- A refused DECODE latches its fault and writes nothing else (44_decoder.md R191, R196). -/
theorem decodeUnit_of_refused (h : s.tree = .none ∨ s.cfg.maxBits < s.bitLen.toNat) :
    decodeUnit i s = { s with
      err := true, errCode := if s.tree = .none then .sequence else .range,
      errInfo := if s.tree = .none then (opcode i).zeroExtend 32 else s.bitLen } := by
  by_cases ht : s.tree = .none
  · rw [if_pos ht, if_pos ht, decodeUnit_of_no_tree i ht, raiseFault_sequence]
  · rw [if_neg ht, if_neg ht, decodeUnit_of_bitLen_gt i ht (h.resolve_left ht), raiseFault_range]

/-- Settles O49: a refused DECODE is refused in both states and keeps the output of each; one that is not refused ends
in both as its operands say. -/
theorem decodeDependsOnTheEncodedResultAlone : Obligations.DecodeDependsOnTheEncodedResultAlone := by
  intro s₁ s₂ h₁ h₂ hcfg htree hroot hnode _ hbl helem i hi
  refine ⟨_, _, exec_decoder h₁ hi, exec_decoder h₂ hi, ?_⟩
  by_cases href : s₁.tree = .none ∨ s₁.cfg.maxBits < s₁.bitLen.toNat
  · rw [decodeUnit_of_refused href, decodeUnit_of_refused (s := s₂) (htree ▸ hcfg ▸ hbl ▸ href)]
    refine ⟨rfl, fun _ => ?_, fun hne hle => ?_, fun _ => ⟨rfl, ⟨rfl, rfl, fun _ => rfl⟩, rfl, rfl, fun _ => rfl⟩⟩
    · simp only [htree, hbl, and_self]
    · rcases href with h | h
      · exact absurd h hne
      · omega
  · obtain ⟨hne, hle⟩ := not_or.1 href
    have h := sameDecoded_decodeUnit h₁ h₂ hi hcfg htree hroot (funext hnode) hbl (elems_congr hbl helem) hne
      (Nat.le_of_not_lt hle)
    exact ⟨h.err, h.fault, fun _ _ => ⟨h.outLen, h.dstate, h.out⟩, fun hr => absurd hr href⟩

end Sys2Proof.Machine
end

section
/-! COMPRESS: the four commands in a row, what it leaves, and the way back (45_compound_and_control.md R206 to R208,
44_decoder.md R193, 00_scope.md R8). -/

namespace Sys2Proof.Machine

variable {s : State}

/-! ### The four commands (45_compound_and_control.md R206, R207) -/

/-- COMPRESS's ENCODE has the gate of the command ENCODE. -/
theorem encodeAfter_eq_andThen (o : Host.Outcome State Fault Refusal) : encodeAfter o = andThen o (exec .encode) := by
  cases o <;> rfl

/-- Under a latched fault the commands of COMPRESS that still follow have no effect (60_exceptions.md R234). -/
theorem andThen_build_gentab_encode_of_err {u : State} (h : u.err = true) :
    andThen (andThen (andThen (.next u) (exec .build)) (exec .gentab)) (exec .encode) = .next u := by
  have hgated : ∀ i ∈ [Instr.build, .gentab, .encode], andThen (.next u) (exec i) = .next u := fun i hi =>
    exec_of_err h (by rintro rfl; simp at hi) (by rintro rfl; simp at hi)
  rw [hgated .build (by simp), hgated .gentab (by simp), hgated .encode (by simp)]

/-- Settles O50: a fault latched before COMPRESS, or by its COUNT, gates all that follows; otherwise each unit runs
ungated. -/
theorem compressIsTheFourCommands : Obligations.CompressIsTheFourCommands := by
  intro s
  cases herr : s.err with
  | true =>
    rw [exec_of_err (i := .compress) herr (by decide) (by decide),
      exec_of_err (i := .count) herr (by decide) (by decide), andThen_build_gentab_encode_of_err herr]
  | false =>
    rw [exec_compress herr, exec_count herr, compressUnit]
    cases hc : (countUnit s).err with
    | true => rw [if_pos rfl, andThen_build_gentab_encode_of_err hc]
    | false =>
      have hbuild : andThen (.next (countUnit s)) (exec .build) = .next (buildUnit (countUnit s)) := exec_build hc
      have hgentab : andThen (.next (buildUnit (countUnit s))) (exec .gentab) = gentabUnit (buildUnit (countUnit s)) :=
        exec_gentab ((buildUnit_err _).trans hc)
      rw [if_neg (by decide), encodeAfter_eq_andThen, hbuild, hgentab]

/-! ### What ENCODE keeps of the state before it -/

@[simp] theorem encodeUnit_codeV (u : State) : (encodeUnit u).codeV = u.codeV := by rw [encodeUnit_frame]
@[simp] theorem encodeUnit_freq (u : State) : (encodeUnit u).freq = u.freq := by rw [encodeUnit_frame]
@[simp] theorem encodeUnit_tree (u : State) : (encodeUnit u).tree = u.tree := by rw [encodeUnit_frame]
@[simp] theorem encodeUnit_root (u : State) : (encodeUnit u).root = u.root := by rw [encodeUnit_frame]
@[simp] theorem encodeUnit_nodeCnt (u : State) : (encodeUnit u).nodeCnt = u.nodeCnt := by rw [encodeUnit_frame]
@[simp] theorem encodeUnit_code (u : State) : (encodeUnit u).code = u.code := by rw [encodeUnit_frame]
@[simp] theorem encodeUnit_nodeAt (u : State) : (encodeUnit u).nodeAt = u.nodeAt := by rw [encodeUnit_frame]; rfl
@[simp] theorem encodeUnit_codeAt (u : State) : (encodeUnit u).codeAt = u.codeAt := by rw [encodeUnit_frame]; rfl
@[simp] theorem encodeUnit_codeOf (u : State) : (encodeUnit u).codeOf = u.codeOf := by rw [encodeUnit_frame]; rfl

/-! ### What COMPRESS leaves -/

/-- COMPRESS within MAX_LEN is the ENCODE of the table of its input's tree (45_compound_and_control.md R206). -/
theorem exec_compress_of_len_le (herr : s.err = false) (hlen : s.len.toNat ≤ s.cfg.maxLen) :
    ∃ code p, (s.tabled code p).tableOfTree = some (code, p) ∧
      exec .compress s = .next (encodeUnit (s.tabled code p)) := by
  rcases compressUnit_cases herr with ⟨h, -⟩ | ⟨-, code, p, htab, e⟩
  · omega
  · exact ⟨code, p, htab, (exec_compress herr).trans e⟩

section Tabled

variable {code : Store CodeEntry} {p : List Bool}

/-- The codes of the input, one after the other, as COMPRESS's table has them. -/
def State.codesOfInput (s : State) (code : Store CodeEntry) (p : List Bool) : List Bool :=
  concatCodes (s.tabled code p).look s.inputSeq

theorem codesOfInput_eq (s : State) (code : Store CodeEntry) (p : List Bool) :
    s.inputSeq.flatMap (fun c => ((encodeUnit (s.tabled code p)).codeAt c.toNat).code) = s.codesOfInput code p := by
  rw [encodeUnit_codeAt]
  rfl

theorem codesOfInput_of_len_zero (h : s.len = 0#32) : s.codesOfInput code p = [] := by
  rw [State.codesOfInput, inputSeq_of_len_zero h]
  rfl

/-- The codes fit: no fault, and the bit-string is their concatenation (43_encoder.md R166). -/
theorem encodeUnit_tabled_fits (hwf : s.cfg.wf = true) (herr : s.err = false) (hlen : s.len.toNat ≤ s.cfg.maxLen)
    (htab : (s.tabled code p).tableOfTree = some (code, p)) (h : (s.codesOfInput code p).length ≤ s.cfg.maxBits) :
    (encodeUnit (s.tabled code p)).err = false ∧
      (encodeUnit (s.tabled code p)).bitLen.toNat = (s.codesOfInput code p).length ∧
      (encodeUnit (s.tabled code p)).elems = elemsOfBits (s.codesOfInput code p) := by
  obtain ⟨-, -, hbits⟩ := Params.bounds hwf
  rcases encodeUnit_tabled hlen htab with ⟨-, e⟩ | ⟨hlt, -⟩
  · rw [e]
    refine ⟨?_, ?_, elems_finishEncode (h.trans_lt hbits)⟩
    · rw [State.finishEncode_err, tabled_err, herr]
    · rw [State.finishEncode_bitLen]
      exact toNat_ofNat_of_le_maxBits hwf h
  · exact absurd hlt (Nat.not_lt.2 h)

/-- The codes do not fit: OVERFLOW with BITLEN = 0 (43_encoder.md R169, R172). -/
theorem encodeUnit_tabled_overflows (hlen : s.len.toNat ≤ s.cfg.maxLen)
    (htab : (s.tabled code p).tableOfTree = some (code, p)) (h : s.cfg.maxBits < (s.codesOfInput code p).length) :
    (encodeUnit (s.tabled code p)).err = true ∧ (encodeUnit (s.tabled code p)).errCode = .overflow ∧
      (encodeUnit (s.tabled code p)).bitLen = 0#32 := by
  rcases encodeUnit_tabled hlen htab with ⟨hle, -⟩ | ⟨-, done, c, rest, -, -, e⟩
  · exact absurd hle (Nat.not_le.2 h)
  · rw [e]
    exact ⟨rfl, rfl, rfl⟩

/-- The entry of a symbol of the input, as the table after COMPRESS has it (43_encoder.md R168). -/
theorem codeOf_tabled_of_mem (htab : (s.tabled code p).tableOfTree = some (code, p)) {c : Byte} (hc : c ∈ s.inputSeq) :
    ∃ q, (s.tabled code p).codeOf c.toNat = some q ∧ 1 ≤ q.length ∧ q.length ≤ 255 ∧
      (s.tabled code p).IsCode q c.toNat := by
  obtain ⟨hvalid, hne, hle, -⟩ := tabled_look htab hc
  exact ⟨_, if_pos hvalid, List.length_pos_of_ne_nil hne, hle, isCode_tabled htab hc⟩

end Tabled

/-- Settles O51: FREQ is COUNT's, the tree BUILD's and the table GENTAB's, and of ENCODE's faults only OVERFLOW can
occur. -/
theorem compressResult : Obligations.CompressResult := by
  intro s hwf herr hlen
  obtain ⟨code, p, htab, hexec⟩ := exec_compress_of_len_le herr hlen
  have hfits := encodeUnit_tabled_fits hwf herr hlen htab
  refine ⟨_, hexec, encodeUnit_codeV _, ?_, fun h0 => ?_, fun h0 => ?_, ?_⟩
  · rw [encodeUnit_freq, tabled_freq]
    exact toNat_freqAt_countFreq_inputSeq s
  · obtain ⟨htree, hcnt, habsent⟩ := tabled_empty htab h0
    obtain ⟨he, hbl, -⟩ := hfits (by simp [codesOfInput_of_len_zero h0])
    rw [codesOfInput_of_len_zero h0] at hbl
    refine ⟨he, (encodeUnit_tree _).trans htree, (encodeUnit_nodeCnt _).trans hcnt, BitVec.eq_of_toNat_eq hbl,
      fun k hk => ?_⟩
    rw [encodeUnit_codeOf, State.codeOf, habsent k hk]
    rfl
  · obtain ⟨htree, tr⟩ := tabled_treeOk (s := s) (fun e => h0 (BitVec.eq_of_toNat_eq e)) code p
    rw [encodeUnit_tree, encodeUnit_nodeAt, encodeUnit_nodeCnt, encodeUnit_root, encodeUnit_codeOf]
    refine ⟨htree, tr, fun i hi => ?_⟩
    obtain ⟨q, hq, h1, h255, hcode⟩ := codeOf_tabled_of_mem htab (mem_inputSeq.2 ⟨i, hi, rfl⟩)
    refine ⟨q, hq, h1, h255, ?_⟩
    rwa [State.IsCode, encodeUnit_nodeAt, encodeUnit_root]
  · rw [codesOfInput_eq]
    exact ⟨hfits, encodeUnit_tabled_overflows hlen htab⟩

/-- Settles O56: the codes of the input take at most eight bits a symbol, so they fit. -/
theorem compressNeverOverflowsAtEightBitsASymbol : Obligations.CompressNeverOverflowsAtEightBitsASymbol := by
  intro s hwf hbits herr hlen
  obtain ⟨code, p, htab, hexec⟩ := exec_compress_of_len_le herr hlen
  have hle : (s.codesOfInput code p).length ≤ 8 * s.len.toNat := length_codes_le htab
  obtain ⟨he, hbl, -⟩ := encodeUnit_tabled_fits hwf herr hlen htab (by omega)
  exact ⟨_, hexec, he, hbl.trans_le hle⟩

/-! ### One repeated symbol (45_compound_and_control.md R208) -/

theorem elem_of_elems {bs : List Bool} (h : s.elems = elemsOfBits bs) {j : Nat} (hj : j < bs.length) :
    s.elem j = bitElem bs[j] := by
  have hlen : s.bitLen.toNat = bs.length := by rw [← length_elems, h, length_elemsOfBits]
  have hget : s.elems[j]? = (elemsOfBits bs)[j]? := by rw [h]
  simpa [State.elems, elemsOfBits, hlen, hj] using hget

theorem elems_of_bitLen_zero (h : s.bitLen = 0#32) : s.elems = [] :=
  List.eq_nil_of_length_eq_zero (by rw [length_elems, h]; rfl)

theorem inputSeq_eq_replicate {c : Byte} (h : ∀ i, i < s.len.toNat → s.symByte i = c) :
    s.inputSeq = List.replicate s.len.toNat c := by
  refine List.eq_replicate_iff.2 ⟨length_inputSeq s, fun d hd => ?_⟩
  obtain ⟨i, hi, rfl⟩ := mem_inputSeq.1 hd
  exact h i hi

/-- The only present symbol of an input of one repeated symbol. -/
theorem presentSyms_countFreq_of_repeated {c : Byte} (h0 : s.len.toNat ≠ 0)
    (h : ∀ i, i < s.len.toNat → s.symByte i = c) : presentSyms (countFreq s.inputSeq) = [c.toNat] := by
  have hbyte : ∀ d : Byte, d.toNat ∈ presentSyms (countFreq s.inputSeq) ↔ d = c := fun d => by
    rw [mem_presentSyms_countFreq (length_inputSeq_lt s), inputSeq_eq_replicate h, List.mem_replicate]
    exact and_iff_right h0
  refine presentSyms_eq_singleton fun i => ⟨fun hi => ?_, fun e => e ▸ (hbyte c).2 rfl⟩
  have hval : (BitVec.ofNat 8 i).toNat = i := by
    rw [BitVec.toNat_ofNat, Nat.mod_eq_of_lt (mem_presentSyms.1 hi).1]
  rw [← hval] at hi
  rw [← hval, (hbyte _).1 hi]

/-- Settles O52: the tree of one present symbol gives it the code "1", once for each symbol of the input. -/
theorem compressOfOneSymbol : Obligations.CompressOfOneSymbol := by
  intro s c hwf herr hlen hne hfit hsame
  have h0 : s.len.toNat ≠ 0 := fun e => hne (BitVec.eq_of_toNat_eq e)
  obtain ⟨code, p, htab, hexec⟩ := exec_compress_of_len_le herr hlen
  obtain ⟨htree, tr⟩ := tabled_treeOk h0 code p
  have hpresent : presentSyms s.counted.freq = [c.toNat] := presentSyms_countFreq_of_repeated h0 hsame
  obtain ⟨hcnt, -⟩ := buildUnit_of_one_symbol hpresent
  obtain ⟨hone, hzero⟩ := isCode_buildUnit_of_one_symbol hpresent
  rw [← tabled_isCode s code p] at hone hzero
  have hof : ∀ {k q}, k < 257 → (s.tabled code p).IsCode q k → (encodeUnit (s.tabled code p)).codeOf k = some q := by
    intro k q hk hq
    rw [encodeUnit_codeOf]
    exact (codeOf_eq_some_iff htree tr htab hk).2 hq
  have hlook : ((s.tabled code p).look c).code = [true] := by
    obtain ⟨hentry, hle⟩ := codeAt_tabled htab h0 hone
    rw [State.look, hentry, CodeEntry.code_ofPath hle]
  have hcodes : s.codesOfInput code p = List.replicate s.len.toNat true := by
    rw [State.codesOfInput, inputSeq_eq_replicate hsame, concatCodes, List.flatMap_replicate, hlook]
    simp
  have hlength : (s.codesOfInput code p).length = s.len.toNat := by rw [hcodes, List.length_replicate]
  obtain ⟨he, hbl, hel⟩ := encodeUnit_tabled_fits hwf herr hlen htab (by omega)
  refine ⟨_, hexec, he, (encodeUnit_tree _).trans htree, ?_, hof (by have := c.isLt; omega) hone, hof (by decide) hzero,
    BitVec.eq_of_toNat_eq (hbl.trans hlength), fun j hj => ?_⟩
  · rw [encodeUnit_nodeCnt]
    exact hcnt
  · rw [elem_of_elems hel (by omega)]
    simp [hcodes, bitElem]

/-! ### The frame (10_state.md R50, 43_encoder.md R167, R172) -/

/-- The bytes of BITS that COMPRESS within MAX_LEN leaves alone: those that hold no element of the codes it wrote, of
the whole input or, on OVERFLOW, of the ERRINFO symbols before the one that does not fit. -/
theorem encodeUnit_tabled_bits {code : Store CodeEntry} {p : List Bool} (herr : s.err = false)
    (hlen : s.len.toNat ≤ s.cfg.maxLen) (htab : (s.tabled code p).tableOfTree = some (code, p)) :
    let t := encodeUnit (s.tabled code p)
    let n := if t.err then t.errInfo.toNat else s.len.toNat
    let bs := concatCodes (s.tabled code p).look (s.inputSeq.take n)
    bs.length ≤ s.cfg.maxBits ∧
      ∀ k, (∀ j, j < bs.length → elemByte s.fmt j ≠ k) → cellAt t.bits k = cellAt s.bits k := by
  rcases encodeUnit_tabled hlen htab with ⟨hfit, e⟩ | ⟨-, done, c, rest, hin, hfit, e⟩
  · have htake : s.inputSeq.take s.len.toNat = s.inputSeq := by rw [← length_inputSeq, List.take_length]
    have hno : (encodeUnit (s.tabled code p)).err = false := by
      rw [e, State.finishEncode_err, tabled_err, herr]
    dsimp only
    rw [hno, if_neg (by decide), htake]
    refine ⟨hfit, fun k hk => ?_⟩
    rw [← tabled_fmt s code p] at hk
    rw [e, cellAt_finishEncode_other _ _ _ _ hk, tabled_bits]
  · have hdone : (BitVec.ofNat 32 done.length).toNat = done.length := by
      have hlt := length_inputSeq_lt s
      rw [hin, List.length_append] at hlt
      rw [BitVec.toNat_ofNat, Nat.mod_eq_of_lt (by omega)]
    have htake : s.inputSeq.take done.length = done := by rw [hin, List.take_left]
    have hyes : (encodeUnit (s.tabled code p)).err = true := by rw [e]; rfl
    have hinfo : (encodeUnit (s.tabled code p)).errInfo = BitVec.ofNat 32 done.length := by rw [e]; rfl
    dsimp only
    rw [hyes, if_pos rfl, hinfo, hdone, htake]
    refine ⟨hfit, fun k hk => ?_⟩
    rw [e, State.raiseFault_bits, State.withEncRegs_bits, encRegsAt, cellAt_putElems_other, tabled_bits]
    rw [tabled_fmt, Nat.zero_add]
    exact fun j _ => hk j

/-- Settles O53: the frame of the four units, the RANGE fault of COUNT, and the codes ENCODE wrote. -/
theorem compressFrame : Obligations.CompressFrame := by
  intro s herr
  by_cases hlen : s.len.toNat ≤ s.cfg.maxLen
  · obtain ⟨code, p, htab, hexec⟩ := exec_compress_of_len_le herr hlen
    have hunit := (exec_compress herr).symm.trans hexec
    have hframe := compressUnit_frame herr hunit
    refine ⟨_, hexec, hframe, fun k => ?_, (compressUnit_memory_frame herr hunit).1, fun h => by omega, fun _ => ?_⟩
    · rw [hframe]
      exact ⟨rfl, rfl⟩
    · have hepoch : (encodeUnit (s.tabled code p)).free .bits = s.free .bits := by
        rw [hframe]
        rfl
      obtain ⟨hfit, hbits⟩ := encodeUnit_tabled_bits herr hlen htab
      dsimp only
      rw [encodeUnit_codeAt]
      refine ⟨hfit, fun k hk => ?_⟩
      rw [State.bitsByte, hepoch]
      exact byteAt_congr (hbits k hk)
  · have hgt : s.cfg.maxLen < s.len.toNat := by omega
    have hunit := compressUnit_of_len_gt herr hgt
    rw [raiseFault_range] at hunit
    exact ⟨_, (exec_compress herr).trans hunit, rfl, fun _ => ⟨rfl, rfl⟩, fun _ _ => rfl, fun _ => rfl,
      fun h => absurd h hlen⟩

/-! ### Two states with the same input (45_compound_and_control.md R208) -/

section Determinism

variable {s₁ s₂ : State}

/-- The table is a function of the tree (42_code_table_generator.md R158). -/
theorem tableOfTree_congr (htree : s₁.tree = s₂.tree) (hroot : s₁.root = s₂.root)
    (tr : s₁.tree = .valid → TreeOk s₁.nodeAt s₁.nodeCnt.val s₁.root)
    (hnode : ∀ i : NodeIdx, i.val < s₁.nodeCnt.val → s₁.nodeAt i = s₂.nodeAt i) :
    s₁.tableOfTree = s₂.tableOfTree := by
  unfold State.tableOfTree
  rw [← htree, ← hroot]
  cases hv : s₁.tree with
  | none => rfl
  | empty => rfl
  | valid =>
    have hlast := (tr hv).rootLast
    exact (tr hv).walk_congr hnode 511 (by omega) [] clearedCode

theorem inputSeq_congr (hlen : s₁.len = s₂.len) (h : ∀ i, i < s₁.len.toNat → s₁.symByte i = s₂.symByte i) :
    s₁.inputSeq = s₂.inputSeq := by
  unfold State.inputSeq
  rw [← hlen]
  exact List.map_congr_left fun i hi => h i (List.mem_range.1 hi)

/-- COMPRESS's BUILD makes a tree, or the absent one. -/
theorem treeOk_buildUnit_of_valid (h : (buildUnit s).tree = .valid) :
    TreeOk (buildUnit s).nodeAt (buildUnit s).nodeCnt.val (buildUnit s).root := by
  refine (buildUnit_treeOk fun e => ?_).2
  rw [(buildUnit_empty e).1] at h
  cases h

/-- The entries a table of a tree lists do not depend on the unwritten ones (log 4). -/
theorem look_congr {code : Store CodeEntry} {q : List Bool} (h₁ : s₁.code = code) (h₂ : s₂.code = code)
    (htab : s₁.tableOfTree = some (code, q)) : s₁.look = s₂.look := by
  funext c
  obtain ⟨-, -, hsome⟩ := tableOfTree_keeps htab
  obtain ⟨e, he⟩ := Option.isSome_iff_exists.1 (hsome c.toNat (by have := c.isLt; omega))
  rw [State.look, State.look, codeAt_of_cellAt (h₁ ▸ he), codeAt_of_cellAt (h₂ ▸ he)]

/-- Equal inputs have equal trees (40_frequency_counter.md R121, 41_tree_builder.md R142). -/
theorem tabled_congr (hin : s₁.inputSeq = s₂.inputSeq) (code₁ code₂ : Store CodeEntry) (p₁ p₂ : List Bool) :
    (s₁.tabled code₁ p₁).tree = (s₂.tabled code₂ p₂).tree ∧ (s₁.tabled code₁ p₁).root = (s₂.tabled code₂ p₂).root ∧
      (s₁.tabled code₁ p₁).nodeCnt = (s₂.tabled code₂ p₂).nodeCnt ∧
      ∀ i : NodeIdx, i.val < (s₁.tabled code₁ p₁).nodeCnt.val →
        (s₁.tabled code₁ p₁).nodeAt i = (s₂.tabled code₂ p₂).nodeAt i := by
  have hfreq : s₁.counted.freq = s₂.counted.freq := by rw [counted_freq, counted_freq, hin]
  simp only [tabled_tree, tabled_root, tabled_nodeCnt, tabled_nodeAt]
  exact buildUnit_congr hfreq

/-- Equal inputs have equal tables (42_code_table_generator.md R158). -/
theorem code_congr {code₁ code₂ : Store CodeEntry} {p₁ p₂ : List Bool} (hin : s₁.inputSeq = s₂.inputSeq)
    (htab₁ : (s₁.tabled code₁ p₁).tableOfTree = some (code₁, p₁))
    (htab₂ : (s₂.tabled code₂ p₂).tableOfTree = some (code₂, p₂)) : code₁ = code₂ := by
  obtain ⟨htree, hroot, -, hnode⟩ := tabled_congr hin code₁ code₂ p₁ p₂
  have tr : (s₁.tabled code₁ p₁).tree = .valid →
      TreeOk (s₁.tabled code₁ p₁).nodeAt (s₁.tabled code₁ p₁).nodeCnt.val (s₁.tabled code₁ p₁).root := by
    rw [tabled_tree, tabled_nodeAt, tabled_nodeCnt, tabled_root]
    exact treeOk_buildUnit_of_valid
  have htab := tableOfTree_congr htree hroot tr hnode
  rw [htab₁, htab₂] at htab
  exact congrArg Prod.fst (Option.some.inj htab)

/-- Equal inputs have equal codes. -/
theorem codesOfInput_congr {code : Store CodeEntry} {p₁ p₂ : List Bool} (hin : s₁.inputSeq = s₂.inputSeq)
    (htab₁ : (s₁.tabled code p₁).tableOfTree = some (code, p₁)) :
    s₁.codesOfInput code p₁ = s₂.codesOfInput code p₂ := by
  rw [State.codesOfInput, State.codesOfInput, hin, look_congr (tabled_code s₁ code p₁) (tabled_code s₂ code p₂) htab₁]

end Determinism

/-- Settles O54: equal inputs have equal counts, so equal trees, tables, codes, and bit-strings. -/
theorem compressDependsOnTheInputAlone : Obligations.CompressDependsOnTheInputAlone := by
  intro s₁ s₂ herr₁ herr₂ hcfg hfmt hlen hwf hle hsym
  have hin := inputSeq_congr hlen hsym
  obtain ⟨code, p₁, htab₁, hexec₁⟩ := exec_compress_of_len_le herr₁ hle
  obtain ⟨code₂, p₂, htab₂, hexec₂⟩ := exec_compress_of_len_le herr₂ (hlen ▸ hcfg ▸ hle)
  obtain rfl := code_congr hin htab₁ htab₂
  have hcodes : s₁.codesOfInput code p₁ = s₂.codesOfInput code p₂ := codesOfInput_congr hin htab₁
  obtain ⟨htree, hroot, hcnt, hnode⟩ := tabled_congr hin code code p₁ p₂
  refine ⟨_, _, hexec₁, hexec₂, ?_⟩
  rw [encodeUnit_freq, encodeUnit_freq, tabled_freq, tabled_freq, hin, encodeUnit_tree, encodeUnit_tree,
    encodeUnit_root, encodeUnit_root, encodeUnit_nodeCnt, encodeUnit_nodeCnt, encodeUnit_nodeAt, encodeUnit_nodeAt,
    encodeUnit_code, encodeUnit_code, tabled_code, tabled_code]
  by_cases hfit : (s₁.codesOfInput code p₁).length ≤ s₁.cfg.maxBits
  · obtain ⟨he₁, hbl₁, hel₁⟩ := encodeUnit_tabled_fits hwf herr₁ hle htab₁ hfit
    obtain ⟨he₂, hbl₂, hel₂⟩ := encodeUnit_tabled_fits (hcfg ▸ hwf) herr₂ (hlen ▸ hcfg ▸ hle) htab₂
      (hcodes ▸ hcfg ▸ hfit)
    have hbl : (encodeUnit (s₁.tabled code p₁)).bitLen = (encodeUnit (s₂.tabled code p₂)).bitLen :=
      BitVec.eq_of_toNat_eq (by rw [hbl₁, hbl₂, hcodes])
    exact ⟨he₁.trans he₂.symm, rfl, htree, hroot, hcnt, hnode, rfl, hbl, by rw [hel₁, hel₂, hcodes]⟩
  · obtain ⟨he₁, -, hbl₁⟩ := encodeUnit_tabled_overflows hle htab₁ (Nat.not_le.1 hfit)
    obtain ⟨he₂, -, hbl₂⟩ := encodeUnit_tabled_overflows (hlen ▸ hcfg ▸ hle) htab₂
      (hcodes ▸ hcfg ▸ Nat.not_le.1 hfit)
    have hel : (encodeUnit (s₁.tabled code p₁)).elems = (encodeUnit (s₂.tabled code p₂)).elems :=
      (elems_of_bitLen_zero hbl₁).trans (elems_of_bitLen_zero hbl₂).symm
    exact ⟨he₁.trans he₂.symm, rfl, htree, hroot, hcnt, hnode, rfl, hbl₁.trans hbl₂.symm, hel⟩

/-! ### The round trip (44_decoder.md R193) -/

/-- The input is not longer than SYM where COMPRESS ended without a fault (60_exceptions.md R228). -/
theorem len_le_of_compress {t : State} (herr : s.err = false) (hexec : exec .compress s = .next t)
    (ht : t.err = false) :
    s.len.toNat ≤ s.cfg.maxLen := by
  by_contra hgt
  have hunit := (exec_compress herr).symm.trans hexec
  rw [compressUnit_of_len_gt herr (by omega)] at hunit
  cases hunit
  cases ht

theorem getD_inputSeq {k : Nat} (hk : k < s.len.toNat) (b : Byte) : s.inputSeq.getD k b = s.symByte k := by
  simp [State.inputSeq, hk]

/-- DECODE of the bit-string of an input by the tree of that input gives the input (44_decoder.md R193). -/
theorem decodeUnit_of_codesOfInput {code : Store CodeEntry} {p : List Bool} {u : State} (i : Instr)
    (htab : (s.tabled code p).tableOfTree = some (code, p)) (hlen : s.len.toNat ≤ u.cfg.maxLen)
    (htree : u.tree = (s.tabled code p).tree) (hroot : u.root = (s.tabled code p).root)
    (hnode : u.nodeAt = (s.tabled code p).nodeAt) (hbl : u.bitLen.toNat ≤ u.cfg.maxBits)
    (hel : u.elems = elemsOfBits (s.codesOfInput code p)) :
    (decodeUnit i u).err = u.err ∧ (decodeUnit i u).outLen = s.len ∧
      ∀ k, k < s.len.toNat → (decodeUnit i u).outByte k = s.symByte k := by
  by_cases h0 : s.len = 0#32
  · obtain ⟨hempty, -, -⟩ := tabled_empty htab h0
    have hzero : u.bitLen = 0#32 := by
      rw [codesOfInput_of_len_zero h0] at hel
      exact BitVec.eq_of_toNat_eq ((length_elems u).symm.trans (congrArg List.length hel))
    rw [decodeUnit_empty (htree.trans hempty) hzero, h0]
    exact ⟨rfl, rfl, fun k hk => absurd hk (Nat.not_lt_zero k)⟩
  · obtain ⟨hvalid, tr⟩ := tabled_treeOk (s := s) (fun e => h0 (BitVec.eq_of_toNat_eq e)) code p
    have hspells : u.SpellsOut (s.codesOfInput code p) s.inputSeq := by
      refine spellsOut_concatCodes fun c hc => ?_
      rw [State.IsCode, hnode, hroot]
      exact isCode_tabled htab hc
    have hinternal : (u.nodeAt u.root).kind = .internal := by
      rw [hnode, hroot]
      exact tr.rootInternal
    rw [decodeUnit_spells (htree.trans hvalid) hinternal hel hbl hspells (by rwa [length_inputSeq])]
    refine ⟨rfl, ?_, fun k hk => ?_⟩
    · rw [State.withDecRegs_outLen, length_inputSeq]
      simp
    · exact (outByte_putCells _ _ _ k).trans (getD_inputSeq hk _)

/-- Settles O55: the later state has the tree and the elements of the state COMPRESS left, and DECODE walks them
back. -/
theorem compressDecompressRoundTrip : Obligations.CompressDecompressRoundTrip := by
  intro s t u hwf herr hexec ht hu hcfg hfmt hbl hbits htree hroot hnode i hi
  have hlen := len_le_of_compress herr hexec ht
  obtain ⟨code, p, htab, hexec'⟩ := exec_compress_of_len_le herr hlen
  obtain rfl : t = encodeUnit (s.tabled code p) := by
    rw [hexec] at hexec'
    injection hexec'
  have hfit : (s.codesOfInput code p).length ≤ s.cfg.maxBits := by
    by_contra hgt
    obtain ⟨he, -, -⟩ := encodeUnit_tabled_overflows hlen htab (Nat.not_le.1 hgt)
    rw [he] at ht
    cases ht
  obtain ⟨-, hblt, hel⟩ := encodeUnit_tabled_fits hwf herr hlen htab hfit
  have hcfg' : u.cfg = s.cfg := by
    rw [hcfg, encodeUnit_frame]
    exact tabled_cfg s code p
  have helu : u.elems = (encodeUnit (s.tabled code p)).elems := by
    unfold State.elems State.elem
    rw [hbl, hfmt, funext hbits]
  obtain ⟨he, hol, hout⟩ := decodeUnit_of_codesOfInput i htab (by rwa [hcfg']) (htree.trans (encodeUnit_tree _))
    (hroot.trans (encodeUnit_root _)) ((funext hnode).trans (encodeUnit_nodeAt _))
    (by rw [hbl, hblt, hcfg']; exact hfit) (helu.trans hel)
  exact ⟨_, exec_decoder hu hi, he.trans hu, hol, hout⟩

end Sys2Proof.Machine
end

section
/-! Which command, and which write of the host, writes which state (10_state.md R50). -/

namespace Sys2Proof.Machine

variable {s t : State}

/-! ### The ownership table, command by command -/

/-- The ownership table's rows for the command `i` that led from `s` to `t`, but for the latch (10_state.md R50). -/
def OwnersWrite (i : Instr) (s t : State) : Prop :=
  t.cfg = s.cfg ∧ (∀ k, t.symByte k = s.symByte k) ∧
    (i ≠ .clear → t.fmt = s.fmt ∧ t.len = s.len) ∧
    (i ∉ [Instr.count, .compress, .clear] → ∀ k, freqAt t.freq k = freqAt s.freq k) ∧
    (i ∉ [Instr.build, .compress, .clear] → t.tree = s.tree ∧ t.root = s.root ∧ t.nodeCnt = s.nodeCnt) ∧
    (i ∉ [Instr.build, .compress] → t.active = s.active ∧ ∀ k j, t.nodeWordAt k j = s.nodeWordAt k j) ∧
    (i ∉ [Instr.gentab, .build, .compress, .clear] → t.codeV = s.codeV) ∧
    (i ∉ [Instr.gentab, .compress] → ∀ k j, t.codeWordAt k j = s.codeWordAt k j) ∧
    (i ∉ [Instr.decode, .decompress, .clear] → t.dstate = s.dstate ∧ t.outLen = s.outLen) ∧
    (i ∉ [Instr.decode, .decompress] → ∀ k, t.outByte k = s.outByte k) ∧
    (i ∉ [Instr.encode, .compress, .clear] → t.bitLen = s.bitLen) ∧
    (i ∉ [Instr.encode, .compress] → ∀ k, t.bitsByte k = s.bitsByte k)

theorem ownersWrite_refl (i : Instr) (s : State) : OwnersWrite i s s :=
  ⟨rfl, fun _ => rfl, fun _ => ⟨rfl, rfl⟩, fun _ _ => rfl, fun _ => ⟨rfl, rfl, rfl⟩, fun _ => ⟨rfl, fun _ _ => rfl⟩,
    fun _ => rfl, fun _ _ _ => rfl, fun _ => ⟨rfl, rfl⟩, fun _ _ => rfl, fun _ => rfl, fun _ _ => rfl⟩

/-- CLEAR's writes (45_compound_and_control.md R210). -/
theorem ownersWrite_cleared (s : State) : OwnersWrite .clear s s.cleared :=
  ⟨rfl, fun _ => rfl, fun h => absurd rfl h, fun h => absurd (by decide) h, fun h => absurd (by decide) h,
    fun _ => ⟨rfl, fun _ _ => rfl⟩, fun h => absurd (by decide) h, fun _ _ _ => rfl, fun h => absurd (by decide) h,
    fun _ _ => rfl, fun h => absurd (by decide) h, fun _ _ => rfl⟩

theorem ownersWrite_ackFault (s : State) : OwnersWrite .errack s s.ackFault :=
  ⟨rfl, fun _ => rfl, fun _ => ⟨rfl, rfl⟩, fun _ _ => rfl, fun _ => ⟨rfl, rfl, rfl⟩, fun _ => ⟨rfl, fun _ _ => rfl⟩,
    fun _ => rfl, fun _ _ _ => rfl, fun _ => ⟨rfl, rfl⟩, fun _ _ => rfl, fun _ => rfl, fun _ _ => rfl⟩

theorem ownersWrite_countUnit (s : State) : OwnersWrite .count s (countUnit s) := by
  rw [countUnit_frame]
  exact ⟨rfl, fun _ => rfl, fun _ => ⟨rfl, rfl⟩, fun h => absurd (by decide) h, fun _ => ⟨rfl, rfl, rfl⟩,
    fun _ => ⟨rfl, fun _ _ => rfl⟩, fun _ => rfl, fun _ _ _ => rfl, fun _ => ⟨rfl, rfl⟩, fun _ _ => rfl, fun _ => rfl,
    fun _ _ => rfl⟩

theorem ownersWrite_buildUnit (s : State) : OwnersWrite .build s (buildUnit s) :=
  ⟨buildUnit_cfg s, fun _ => rfl, fun _ => ⟨buildUnit_fmt s, buildUnit_len s⟩, fun _ _ => by rw [buildUnit_freq],
    fun h => absurd (by decide) h, fun h => absurd (by decide) h, fun h => absurd (by decide) h, fun _ _ _ => rfl,
    fun _ => ⟨buildUnit_dstate s, buildUnit_outLen s⟩, fun _ _ => rfl, fun _ => buildUnit_bitLen s, fun _ _ => rfl⟩

theorem ownersWrite_gentabUnit (h : gentabUnit s = .next t) : OwnersWrite .gentab s t := by
  rw [gentabUnit_frame h]
  exact ⟨rfl, fun _ => rfl, fun _ => ⟨rfl, rfl⟩, fun _ _ => rfl, fun _ => ⟨rfl, rfl, rfl⟩,
    fun _ => ⟨rfl, fun _ _ => rfl⟩, fun h => absurd (by decide) h, fun h => absurd (by decide) h, fun _ => ⟨rfl, rfl⟩,
    fun _ _ => rfl, fun _ => rfl, fun _ _ => rfl⟩

theorem ownersWrite_encodeUnit (s : State) : OwnersWrite .encode s (encodeUnit s) := by
  rw [encodeUnit_frame]
  exact ⟨rfl, fun _ => rfl, fun _ => ⟨rfl, rfl⟩, fun _ _ => rfl, fun _ => ⟨rfl, rfl, rfl⟩,
    fun _ => ⟨rfl, fun _ _ => rfl⟩, fun _ => rfl, fun _ _ _ => rfl, fun _ => ⟨rfl, rfl⟩, fun _ _ => rfl,
    fun h => absurd (by decide) h, fun h => absurd (by decide) h⟩

theorem ownersWrite_decodeUnit {i : Instr} (hi : i ∈ [Instr.decode, .decompress]) (s : State) :
    OwnersWrite i s (decodeUnit i s) := by
  have howner : i ∈ [Instr.decode, .decompress, .clear] := by
    rcases List.mem_pair.1 hi with rfl | rfl <;> decide
  rw [decodeUnit_frame]
  exact ⟨rfl, fun _ => rfl, fun _ => ⟨rfl, rfl⟩, fun _ _ => rfl, fun _ => ⟨rfl, rfl, rfl⟩,
    fun _ => ⟨rfl, fun _ _ => rfl⟩, fun _ => rfl, fun _ _ _ => rfl, fun h => absurd howner h, fun h => absurd hi h,
    fun _ => rfl, fun _ _ => rfl⟩

theorem ownersWrite_compressUnit (herr : s.err = false) (h : compressUnit s = .next t) : OwnersWrite .compress s t := by
  rw [compressUnit_frame herr h]
  exact ⟨rfl, fun _ => rfl, fun _ => ⟨rfl, rfl⟩, fun h => absurd (by decide) h, fun h => absurd (by decide) h,
    fun h => absurd (by decide) h, fun h => absurd (by decide) h, fun h => absurd (by decide) h, fun _ => ⟨rfl, rfl⟩,
    fun _ _ => rfl, fun h => absurd (by decide) h, fun h => absurd (by decide) h⟩

theorem ownersWrite_exec {i : Instr} (h : exec i s = .next t) : OwnersWrite i s t := by
  rcases exec_next h with rfl | ⟨rfl, rfl⟩ | ⟨rfl, rfl⟩ |
    ⟨he, ⟨rfl, rfl⟩ | ⟨rfl, rfl⟩ | ⟨rfl, e⟩ | ⟨rfl, rfl⟩ | ⟨hi, rfl⟩ | ⟨rfl, e⟩⟩
  · exact ownersWrite_refl i t
  · exact ownersWrite_cleared s
  · exact ownersWrite_ackFault s
  · exact ownersWrite_countUnit s
  · exact ownersWrite_buildUnit s
  · exact ownersWrite_gentabUnit e
  · exact ownersWrite_encodeUnit s
  · exact ownersWrite_decodeUnit hi s
  · exact ownersWrite_compressUnit he e

/-! ### The latch (10_state.md R27) -/

/-- A command that is no return from a fault keeps the latch or sets a clear one: only the first fault is recorded. -/
theorem latch_exec {i : Instr} (h : exec i s = .next t) (hc : i ≠ .clear) (ha : i ≠ .errack) :
    (t.err = s.err ∧ t.errCode = s.errCode ∧ t.errInfo = s.errInfo) ∨ (s.err = false ∧ t.err = true) := by
  have hunit : s.err = false → LatchKeptOrSet s t →
      (t.err = s.err ∧ t.errCode = s.errCode ∧ t.errInfo = s.errInfo) ∨ (s.err = false ∧ t.err = true) :=
    fun he hl => hl.imp_right fun h => ⟨he, h⟩
  rcases exec_next h with rfl | ⟨hi, -⟩ | ⟨hi, -⟩ |
    ⟨he, ⟨-, rfl⟩ | ⟨-, rfl⟩ | ⟨-, e⟩ | ⟨-, rfl⟩ | ⟨-, rfl⟩ | ⟨-, e⟩⟩
  · exact .inl ⟨rfl, rfl, rfl⟩
  · exact absurd hi hc
  · exact absurd hi ha
  · exact hunit he (countUnit_latch s)
  · exact .inl ⟨buildUnit_err s, buildUnit_errCode s, buildUnit_errInfo s⟩
  · exact hunit he (gentabUnit_latch e)
  · exact hunit he (encodeUnit_latch s)
  · exact hunit he (decodeUnit_latch i s)
  · exact hunit he (compressUnit_latch he e)

/-! ### The parameters are constants -/

@[simp] theorem putLocation_cfg (s : State) (l : Location) (v : Word) : (s.putLocation l v).cfg = s.cfg := by
  rw [putLocation_frame]

theorem step_cfg (h : step s = .next t) : t.cfg = s.cfg := by
  rcases step_cases s with ⟨-, e⟩ | ⟨rest, e⟩ | ⟨rest, r, e | ⟨l, v, e⟩ | ⟨i, e⟩ | ⟨-, w, e⟩⟩ <;> rw [e] at h
  · cases h
    rfl
  · cases h
    rfl
  · cases h
    rfl
  · cases h
    exact putLocation_cfg _ l v
  · obtain ⟨hcfg, -⟩ := ownersWrite_exec h
    exact hcfg
  · cases h
    rfl

/-- Settles O57: a host write is `putLocation`'s, no step changes the parameters, and each command keeps to its rows of
the table and to the rule of the latch. -/
theorem onlyTheOwnersWrite : Obligations.OnlyTheOwnersWrite := by
  refine ⟨fun s t a v hl h => ?_, fun s t => step_cfg, fun i s t h => ?_⟩
  · rw [performWrite_data hl, putLocation_frame] at h
    cases h
    exact ⟨_, _, _, _, _, _, rfl⟩
  · obtain ⟨h1, h2, h3, h4, h5, h6, h7, h8, h9, h10, h11, h12⟩ := ownersWrite_exec h
    refine ⟨h1, h2, h3, h4, h5, h6, h7, h8, h9, h10, h11, h12, fun hi => ?_⟩
    exact latch_exec h (by rintro rfl; simp at hi) (by rintro rfl; simp at hi)

end Sys2Proof.Machine
end
